-- ==== Sys2Proof/Word.lean ====
section
/-! DEFINITION. The word types of the block (spec/00_scope.md R7, R8): 32-bit event and response words, 8-bit
names, pin ids and data bytes. A one-bit value (a line level, a flag, a parity bit) is a Bool, true for 1. -/

namespace Sys2Proof

/-- An event or response word (spec/30_encoding.md R85, R87, R90): bit 0 is the least significant bit. -/
abbrev Word := BitVec 32

/-- A channel name, a pin id or a data byte (spec/00_scope.md R7). -/
abbrev Byte := BitVec 8

end Sys2Proof
end

