-- ==== Sys2Proof/Config.lean ====
section
/-! DEFINITION. The implementation parameters of spec/00_scope.md R6. The source fixes them at build time and gives
no value for any of them, so the model is a function of them: they stand in the one record `Config`, which State
carries and no event writes (notes/assumptions/5.md). -/

namespace Sys2Proof

/-- The build-time constants of spec/00_scope.md R6. -/
structure Config where
  /-- NCH, the maximum channel count (Registry capacity). -/
  nch : Nat
  /-- TXD, the TX buffer depth of every channel. -/
  txd : Nat
  /-- RXD, the RX buffer depth of every channel. -/
  rxd : Nat
  /-- T, ticks per bit (`ticksPerBit`). -/
  T : Nat
  /-- S, the sample tick offset (`sampleTick`). -/
  S : Nat
  /-- NPINS, the number of pin lines addressable by pin ids. -/
  npins : Nat
  /-- LINE0, the line levels before any event, one bit per pin (OPEN). -/
  line0 : List Bool
  deriving DecidableEq, Repr

/-- Whether a list of levels has exactly one level for each of `n` pins. -/
def oneLevelEach : Nat → List Bool → Bool
  | 0, [] => true
  | n + 1, _ :: rest => oneLevelEach n rest
  | 0, _ :: _ => false
  | _ + 1, [] => false

/-- The legal values of spec/00_scope.md R6: NCH >= 0, TXD >= 1, RXD >= 0, T >= 1, 0 <= S < T, NPINS in 1..256,
and LINE0 has one level for each pin. A configuration that breaks one describes no build of this block. -/
def Config.legal (c : Config) : Bool :=
  decide (1 ≤ c.txd) && decide (1 ≤ c.T) && decide (c.S < c.T) && decide (1 ≤ c.npins) &&
    decide (c.npins ≤ 256) && oneLevelEach c.npins c.line0

/-- The configuration of `State.reset`. DESIGN CHOICE (notes/assumptions/5.md and 6.md): the spec gives no value
for any parameter; NPINS = 256 makes every pin id legal, and the lines are 0. No statement rests on these values. -/
def Config.chosen : Config :=
  { nch := 2, txd := 4, rxd := 4, T := 4, S := 2, npins := 256, line0 := List.replicate 256 false }

/-- CMD_PORT_PLACEMENT (spec/20_memory.md R68): where the command port sits on a host bus. It is left to the
platform and no rule reads it, so it is a constant without a value (notes/assumptions/17.md). -/
opaque Config.cmdPortPlacement : Nat

end Sys2Proof
end

