-- ==== Sys2Proof/Syntax.lean ====
section
/-! DEFINITION. The events of the block as syntax: one constructor for each row of spec/opcode_table.json
(spec/30_encoding.md R86), the agent that issues each (spec/60_exceptions.md R233), and the pseudo-forms of
spec/30_encoding.md R93. -/

namespace Sys2Proof

/-- The nine operations of spec/30_encoding.md R86, by name. -/
inductive Op where
  | tick | init | add | send | recv | recvb | clrtx | clrrx | line
  deriving DecidableEq, Repr

/-- One event with its operands (spec/30_encoding.md R86 and R88). Every operand is an unsigned field. -/
inductive Instr where
  /-- TICK: one quantum (spec/41_tick_dispatcher.md R130). -/
  | tick
  /-- INIT: initialise the block and arm the tick source (spec/42_host_commands.md R172). -/
  | init
  /-- ADD name, txPin, rxPin: add a channel (R173). -/
  | add (name txPin rxPin : Byte)
  /-- SEND name, data, c (clearRxOnArrival), b (isBlank): queue one message (R174). -/
  | send (name data : Byte) (c b : Bool)
  /-- RECV name: take one received message without blocking (R175). -/
  | recv (name : Byte)
  /-- RECVB name: take one received message, waiting while there is none (R176). -/
  | recvb (name : Byte)
  /-- CLRTX name: discard the queued TX messages (R177). -/
  | clrtx (name : Byte)
  /-- CLRRX name: discard the received messages and the frame being received (R178). -/
  | clrrx (name : Byte)
  /-- LINE pin, v: the outside world drives a line (spec/43_line_environment.md R211). -/
  | line (pin : Byte) (v : Bool)
  deriving DecidableEq, Repr

/-- The row of the opcode table an event belongs to. -/
def Instr.op : Instr → Op
  | .tick => .tick
  | .init => .init
  | .add _ _ _ => .add
  | .send _ _ _ _ => .send
  | .recv _ => .recv
  | .recvb _ => .recvb
  | .clrtx _ => .clrtx
  | .clrrx _ => .clrrx
  | .line _ _ => .line

/-- The three agents that produce events (spec/60_exceptions.md R233). -/
inductive Agent where
  | host | tickSource | lineEnvironment
  deriving DecidableEq, Repr

/-- Which agent issues an event (spec/60_exceptions.md R233). -/
def Instr.agent : Instr → Agent
  | .tick => .tickSource
  | .line _ _ => .lineEnvironment
  | .init => .host
  | .add _ _ _ => .host
  | .send _ _ _ _ => .host
  | .recv _ => .host
  | .recvb _ => .host
  | .clrtx _ => .host
  | .clrrx _ => .host

/-- The pseudo-forms of spec/30_encoding.md R93. -/
inductive Pseudo where
  /-- `TICKS n` -/
  | ticks (n : Nat)
  /-- `SEND name, data` -/
  | sendShort (name data : Byte)
  /-- `SENDBLANK name` -/
  | sendBlank (name : Byte)
  /-- `SENDCLR name, data` -/
  | sendClr (name data : Byte)
  deriving DecidableEq, Repr

/-- The events a pseudo-form stands for (spec/30_encoding.md R93). -/
def Pseudo.expand : Pseudo → List Instr
  | .ticks n => List.replicate n .tick
  | .sendShort name data => [.send name data false false]
  | .sendBlank name => [.send name 0x00 false true]
  | .sendClr name data => [.send name data true false]

end Sys2Proof
end

