-- ==== Sys2Proof/WellFormed.lean ====
section
/-! DEFINITION. When an event's operands are legal by value (spec/30_encoding.md R89, R91 step 3): a pin of ADD or
LINE is below NPINS. Every other operand value is legal (R88: every name is). -/

namespace Sys2Proof

/-- A pin id that names a line (spec/00_scope.md R6, spec/30_encoding.md R89). -/
def pinLegal (npins : Nat) (pin : Byte) : Bool := decide (pin.toNat < npins)

/-- Step 3 of the decoding procedure of spec/30_encoding.md R91. -/
def Instr.wellFormed (npins : Nat) : Instr → Bool
  | .add _ txPin rxPin => pinLegal npins txPin && pinLegal npins rxPin
  | .line pin _ => pinLegal npins pin
  | .tick => true
  | .init => true
  | .send _ _ _ _ => true
  | .recv _ => true
  | .recvb _ => true
  | .clrtx _ => true
  | .clrrx _ => true

end Sys2Proof
end

