-- ==== Sys2Proof/Decode.lean ====
section
/-! DEFINITION. Decoding and encoding of event words (spec/30_encoding.md R85 to R91): the opcode table as rows of a
mask and a value, the operand fields, the decoder (total on every word, rejecting by name) and the encoder, and the
assembler text of R92. Step 3 of R91 (a pin below NPINS) depends on the configuration: see WellFormed. -/

namespace Sys2Proof

/-- One row of the table of spec/30_encoding.md R86: a word matches when `(w & mask) = value`. -/
structure OpRow where
  op : Op
  value : Word
  mask : Word
  deriving DecidableEq, Repr

/-- The opcode table of spec/30_encoding.md R86, in its order. -/
def opcodeTable : List OpRow :=
  [ { op := .tick,  value := 0x00000000, mask := 0xFFFFFFFF },
    { op := .init,  value := 0x00000001, mask := 0xFFFFFFFF },
    { op := .add,   value := 0x00000002, mask := 0x000000FF },
    { op := .send,  value := 0x00000003, mask := 0xFF0000CF },
    { op := .recv,  value := 0x00000004, mask := 0xFFFF00FF },
    { op := .recvb, value := 0x00000005, mask := 0xFFFF00FF },
    { op := .clrtx, value := 0x00000006, mask := 0xFFFF00FF },
    { op := .clrrx, value := 0x00000016, mask := 0xFFFF00FF },
    { op := .line,  value := 0x00000007, mask := 0xFF00FFEF } ]

/-- Whether a word matches a row (spec/30_encoding.md R86). -/
def OpRow.accepts (r : OpRow) (w : Word) : Bool := (w &&& r.mask) == r.value

/-- `w[15:8]`, the channel name (spec/30_encoding.md R88). -/
def nameField (w : Word) : Byte := w.extractLsb' 8 8

/-- `w[23:16]`: data of SEND, txPin of ADD, pin of LINE (spec/30_encoding.md R88). -/
def dataField (w : Word) : Byte := w.extractLsb' 16 8

/-- `w[31:24]`, rxPin of ADD (spec/30_encoding.md R88). -/
def rxPinField (w : Word) : Byte := w.extractLsb' 24 8

/-- `w[4]`: c of SEND, v of LINE (spec/30_encoding.md R88). -/
def bitFour (w : Word) : Bool := w.getLsbD 4

/-- `w[5]`: b of SEND (spec/30_encoding.md R88). -/
def bitFive (w : Word) : Bool := w.getLsbD 5

/-- `w[3:0]`, the operation (spec/30_encoding.md R88). -/
def opField (w : Word) : BitVec 4 := w.extractLsb' 0 4

/-- Operand assembly of spec/30_encoding.md R88 for the row that matched. -/
def assemble (op : Op) (w : Word) : Instr :=
  match op with
  | .tick => .tick
  | .init => .init
  | .add => .add (nameField w) (dataField w) (rxPinField w)
  | .send => .send (nameField w) (dataField w) (bitFour w) (bitFive w)
  | .recv => .recv (nameField w)
  | .recvb => .recvb (nameField w)
  | .clrtx => .clrtx (nameField w)
  | .clrrx => .clrrx (nameField w)
  | .line => .line (dataField w) (bitFour w)

/-- Why a word matches no row (spec/30_encoding.md R89). -/
inductive DecodeError where
  /-- `op` is 0x8 to 0xF. -/
  | unusedOp
  /-- `op` is 0x0 to 0x7 and a bit is set that the row holds at zero. -/
  | reservedBits
  deriving DecidableEq, Repr

/-- Steps 1 and 2 of the decoding procedure of spec/30_encoding.md R91. -/
def decode (w : Word) : Except DecodeError Instr :=
  match opcodeTable.find? (fun r => r.accepts w) with
  | some r => .ok (assemble r.op w)
  | none => .error (if 8 ≤ (opField w).toNat then .unusedOp else .reservedBits)

/-- The layout of spec/30_encoding.md R85: rxPin, data, name, two zero bits, b, c, op, from the high bits down. -/
def packWord (rxPin data name : Byte) (b c : Bool) (op : BitVec 4) : Word :=
  rxPin ++ data ++ name ++ (0#2) ++ BitVec.ofBool b ++ BitVec.ofBool c ++ op

/-- The word of an event (spec/30_encoding.md R85, R86); a field an operation does not use is zero. -/
def encode : Instr → Word
  | .tick => packWord 0 0 0 false false 0x0
  | .init => packWord 0 0 0 false false 0x1
  | .add name txPin rxPin => packWord rxPin txPin name false false 0x2
  | .send name data c b => packWord 0 data name b c 0x3
  | .recv name => packWord 0 0 name false false 0x4
  | .recvb name => packWord 0 0 name false false 0x5
  | .clrtx name => packWord 0 0 name false false 0x6
  | .clrrx name => packWord 0 0 name false true 0x6
  | .line pin v => packWord 0 pin 0 false v 0x7

/-- The instruction the decoder reads from the low `nbits` bits of `w`, every higher bit of the event word being 0.
An event is exactly one 32-bit word (spec/30_encoding.md R90), so more than 32 significant bits are no event. -/
def decodeTableWord (nbits w : Nat) : Option Instr :=
  if w % 2 ^ nbits < 2 ^ 32 then (decode (BitVec.ofNat 32 (w % 2 ^ nbits))).toOption else none

/-- A one-bit operand in assembler text (spec/30_encoding.md R92). -/
def bitText (b : Bool) : String := if b then "1" else "0"

/-- A number in assembler text, in decimal (spec/30_encoding.md R92; notes/assumptions/19.md). -/
def byteText (x : Byte) : String := toString x.toNat

/-- The line of assembler text that stands for an event (spec/30_encoding.md R92): ADD's order is name, txPin,
rxPin. -/
def Instr.text : Instr → String
  | .tick => "TICK"
  | .init => "INIT"
  | .add name txPin rxPin => "ADD " ++ byteText name ++ ", " ++ byteText txPin ++ ", " ++ byteText rxPin
  | .send name data c b =>
      "SEND " ++ byteText name ++ ", " ++ byteText data ++ ", " ++ bitText c ++ ", " ++ bitText b
  | .recv name => "RECV " ++ byteText name
  | .recvb name => "RECVB " ++ byteText name
  | .clrtx name => "CLRTX " ++ byteText name
  | .clrrx name => "CLRRX " ++ byteText name
  | .line pin v => "LINE " ++ byteText pin ++ ", " ++ bitText v

end Sys2Proof
end

