-- ==== Sys2Proof/Machine/State.lean ====
section
/-! DEFINITION. Every piece of state the spec gives the block (spec/10_state.md R22 to R36), the reasons a step can
stop (spec/60_exceptions.md R225, spec/30_encoding.md R89, spec/00_scope.md R6) and the state at reset
(spec/70_reset_and_hazards.md R250). State is plain data. -/

namespace Sys2Proof.Machine

/-- A bit position (spec/30_encoding.md R80, spec/90_conflicts.md C1): twelve states. The ordinals 12 to 15, which
are never held, have no constructor (notes/assumptions/11.md). -/
inductive BitPos where
  | idle
  | start
  | data (k : Fin 8)
  | parity
  | stop
  deriving DecidableEq, Repr

/-- A payload (spec/10_state.md R27). -/
structure Message where
  data : Byte
  parity : Bool
  isBlank : Bool
  clearsRx : Bool
  stopViolation : Bool
  deriving DecidableEq, Repr

/-- The 0-message of spec/42_host_commands.md R173: every field 0. -/
def Message.zero : Message :=
  { data := 0, parity := false, isBlank := false, clearsRx := false, stopViolation := false }

/-- A bit-machine (spec/10_state.md R26): bit position, quantum counter and scratch message. The counter is a
natural number (spec/92_eei_decisions.md D27; notes/assumptions/18.md). -/
structure BitMachine where
  pos : BitPos
  q : Nat
  scr : Message
  deriving DecidableEq, Repr

/-- A machine in Idle with a zero counter and a zero scratch, as ADD leaves it (spec/42_host_commands.md R173). -/
def BitMachine.zero : BitMachine := { pos := .idle, q := 0, scr := Message.zero }

/-- A channel record (spec/10_state.md R25, R28, R29). The four pools are the sequences of node indices of
spec/00_scope.md R9, head first; `txPay` and `rxPay` are the payload arenas their nodes are bound to. -/
structure Channel where
  name : Byte
  txPin : Byte
  rxPin : Byte
  txEn : Bool
  rxEn : Bool
  /-- The source's `lastSampledLine` (spec/41_tick_dispatcher.md R141). -/
  last : Bool
  tx : BitMachine
  rx : BitMachine
  /-- The drop mark beside the RX scratch, `rx.drop` (spec/10_state.md R28). -/
  rxDrop : Bool
  txFree : List Nat
  txPend : List Nat
  rxFree : List Nat
  rxPend : List Nat
  txPay : List Message
  rxPay : List Message
  deriving DecidableEq, Repr

/-- A channel record before INIT: the spec's canonical zeros (spec/92_eei_decisions.md D42, spec/10_state.md R37),
with payload arenas of the configured sizes and no node in any pool (notes/assumptions/7.md). -/
def Channel.blankSlot (cfg : Config) : Channel :=
  { name := 0, txPin := 0, rxPin := 0, txEn := false, rxEn := false, last := false,
    tx := BitMachine.zero, rx := BitMachine.zero, rxDrop := false,
    txFree := [], txPend := [], rxFree := [], rxPend := [],
    txPay := List.replicate cfg.txd Message.zero, rxPay := List.replicate cfg.rxd Message.zero }

/-- The recorded direction of a pin (spec/10_state.md R22, R35). -/
inductive PinDir where
  | unconfigured | input | output
  deriving DecidableEq, Repr

/-- The nine result codes of spec/30_encoding.md R84, in the spec's order (their numbers are in Flags). -/
inductive ResultCode where
  | ok | notInitialized | unknownName | nameAlreadyUsed | txPinAlreadyUsed | bufferFull | bufferEmpty
  | parityError | stopViolation
  deriving DecidableEq, Repr

/-- Why the machine stops with a fault. Each is a state of the model, not of the block (spec/60_exceptions.md R225),
and no event raises one in a state that meets the invariant `BlockInv` of Sys2Proof/Safety.lean. All are safe: the model
stops where nothing is known of the block. -/
inductive Fault where
  /-- PushBack or PushFront of a node that is already in a pool (spec/40_fifo_controller.md R112, R113). Safe. -/
  | pushOwnedNode
  /-- RemoveUnchecked of a node that is not in the pool (spec/40_fifo_controller.md R116). Safe. -/
  | removeNonMember
  /-- A payload slot outside its arena (spec/20_memory.md R60; notes/assumptions/9.md). Raised by MemRead and
  MemWrite. Safe. -/
  | noSuchPayloadSlot
  /-- A channel slot outside 0..NCH-1 (spec/20_memory.md R60; notes/assumptions/9.md). Raised by every event that
  visits an active channel. Safe. -/
  | noSuchChannelSlot
  /-- A line outside 0..NPINS-1 (spec/20_memory.md R60; notes/assumptions/9.md). Raised by LineRead, LineWrite and
  the direction record. Safe. -/
  | noSuchLine
  /-- ADD finds the new channel's TX free pool empty, which the spec rules out (spec/42_host_commands.md R173;
  notes/assumptions/10.md). Safe. -/
  | noBlankSlot
  /-- A linked pool primitive meets a member whose neighbour is NIL or outside the arena, against the representation
  invariants of spec/40_fifo_controller.md R110 (notes/assumptions/8.md). Raised only by Machine/LinkedPool. Safe. -/
  | brokenLinks
  deriving DecidableEq, Repr

/-- Why an event has no meaning (spec/60_exceptions.md R225). -/
inductive Refusal where
  /-- No meaning yet for the instruction of this mnemonic. Raised by an arm of `exec` only; no arm raises it now.
  Safe. -/
  | notModelled (mnemonic : String)
  /-- The event word matches no row of the table (spec/30_encoding.md R89). Raised by `step`. Safe. -/
  | illegalWord (why : DecodeError)
  /-- A pin operand of ADD or LINE is not below NPINS (spec/30_encoding.md R89, R91). Raised by ADD and LINE. Safe. -/
  | pinOutOfRange
  /-- The configuration breaks a legal-value constraint (spec/00_scope.md R6). Raised by `step`. Safe. -/
  | illegalConfig
  deriving DecidableEq, Repr

/-- The state of the block (spec/10_state.md R22), its fixed configuration, and its host port. -/
structure State where
  /-- The build-time constants (spec/10_state.md R23): not state of the block; no event writes them. -/
  cfg : Config
  /-- Also the tick-armed flag (spec/10_state.md R22). -/
  initialized : Bool
  /-- Channel slots not yet used (spec/10_state.md R24). -/
  chFree : List Nat
  /-- Channel slots in the order they were added (spec/10_state.md R24). -/
  chActive : List Nat
  /-- The channel records, slot by slot (spec/10_state.md R25). -/
  ch : List Channel
  /-- The line levels, pin by pin (spec/10_state.md R35). -/
  line : List Bool
  /-- The direction ADD last configured, pin by pin (spec/10_state.md R35); nothing reads it. -/
  dir : List PinDir
  /-- The name of the RECVB that holds, if one does (spec/42_host_commands.md R170, R176). -/
  outstanding : Option Byte
  /-- The model's own field: the event words still to come, in their total order (spec/20_memory.md R69;
  notes/assumptions/1.md). -/
  events : List Word
  /-- The model's own field: whether the waiting host is scheduled at its next turns (spec/42_host_commands.md R176;
  notes/assumptions/4.md). Beyond the list's end it is scheduled at once. -/
  hostTurns : List Bool
  /-- The model's own field: the response words returned so far, oldest first (spec/30_encoding.md R87;
  notes/assumptions/2.md). -/
  responses : List Word
  deriving DecidableEq, Repr

/-- The state before the first event (spec/70_reset_and_hazards.md R250), for every configuration. -/
def State.resetOf (cfg : Config) : State :=
  { cfg := cfg, initialized := false, chFree := [], chActive := [],
    ch := List.replicate cfg.nch (Channel.blankSlot cfg),
    line := cfg.line0, dir := List.replicate cfg.npins .unconfigured,
    outstanding := none, events := [], hostTurns := [], responses := [] }

/-- The machine right after reset, with the configuration the log names (notes/assumptions/5.md). -/
def State.reset : State := State.resetOf Config.chosen

end Sys2Proof.Machine
end

