-- ==== Sys2Proof/Machine/Ops.lean ====
section
/-! DEFINITION. The shared operations of the block: the pool primitives on their abstract sequences
(spec/40_fifo_controller.md R111 to R118), the payload and line accesses (spec/20_memory.md R62,
spec/43_line_environment.md R212), the channel records, and the response that ends a command
(spec/30_encoding.md R87). The block takes no exception and returns from none (spec/60_exceptions.md R220, R239):
`State.respond` is the one way a command reports anything. -/

namespace Sys2Proof.Machine

/-! ### Pool primitives -/

/-- PoolInit (spec/40_fifo_controller.md R111): every node of the arena, in ascending order. -/
def poolInit (cap : Nat) : List Nat := List.range cap

/-- PushBack (spec/40_fifo_controller.md R112): append node `n`, which no pool of its arena may hold; `owned` is the
nodes that some pool of the arena holds. -/
def pushBack (owned pool : List Nat) (n : Nat) : Except Fault (List Nat) :=
  if n ∈ owned then .error .pushOwnedNode else .ok (pool ++ [n])

/-- PushFront (spec/40_fifo_controller.md R113): insert node `n` at the head. No event uses it (R122). -/
def pushFront (owned pool : List Nat) (n : Nat) : Except Fault (List Nat) :=
  if n ∈ owned then .error .pushOwnedNode else .ok (n :: pool)

/-- PopFront (spec/40_fifo_controller.md R114): the head and the rest; `none` is EMPTY, the pool unchanged. -/
def popFront : List Nat → Option (Nat × List Nat)
  | [] => none
  | n :: rest => some (n, rest)

/-- PopBack (spec/40_fifo_controller.md R115): the tail and the rest; `none` is EMPTY. No event uses it (R122). -/
def popBack (pool : List Nat) : Option (Nat × List Nat) :=
  match pool.getLast? with
  | none => none
  | some n => some (n, pool.dropLast)

/-- RemoveUnchecked (spec/40_fifo_controller.md R116): delete a member; a non-member faults. No event uses it. -/
def removeUnchecked (pool : List Nat) (n : Nat) : Except Fault (List Nat) :=
  if n ∈ pool then .ok (pool.erase n) else .error .removeNonMember

/-- RemoveChecked (spec/40_fifo_controller.md R117): `none` is NOT_MEMBER, the pool unchanged; `some` is OK with the
new pool. It faults never. No event uses it. -/
def removeChecked (pool : List Nat) (n : Nat) : Option (List Nat) :=
  match removeUnchecked pool n with
  | .ok rest => some rest
  | .error _ => none

/-- MergeAll(from, to) (spec/40_fifo_controller.md R118): the new `from`, which is empty, and the new `to`. -/
def mergeAll (src dst : List Nat) : List Nat × List Nat := ([], dst ++ src)

/-! ### Payload arenas and lines -/

/-- MemRead (spec/20_memory.md R62): the whole Message in payload slot `i`. -/
def memRead (arena : List Message) (i : Nat) : Except Fault Message :=
  match arena[i]? with
  | some m => .ok m
  | none => .error .noSuchPayloadSlot

/-- MemWrite (spec/20_memory.md R62): replace the whole Message in payload slot `i`. -/
def memWrite (arena : List Message) (i : Nat) (m : Message) : Except Fault (List Message) :=
  if i < arena.length then .ok (arena.set i m) else .error .noSuchPayloadSlot

/-- LineRead (spec/43_line_environment.md R212): the level of a line; nothing changes. -/
def lineRead (levels : List Bool) (pin : Byte) : Except Fault Bool :=
  match levels[pin.toNat]? with
  | some v => .ok v
  | none => .error .noSuchLine

/-- LineWrite (spec/43_line_environment.md R212): set the level of a line. -/
def lineWrite (levels : List Bool) (pin : Byte) (v : Bool) : Except Fault (List Bool) :=
  match levels[pin.toNat]? with
  | some _ => .ok (levels.set pin.toNat v)
  | none => .error .noSuchLine

/-- configurePin (spec/43_line_environment.md R212): record a direction; no other effect. -/
def configurePin (dir : List PinDir) (pin : Byte) (mode : PinDir) : Except Fault (List PinDir) :=
  match dir[pin.toNat]? with
  | some _ => .ok (dir.set pin.toNat mode)
  | none => .error .noSuchLine

/-! ### Channel records -/

/-- `ch[c]`, the record of a channel slot (spec/00_scope.md R10). -/
def State.slot (s : State) (c : Nat) : Except Fault Channel :=
  match s.ch[c]? with
  | some r => .ok r
  | none => .error .noSuchChannelSlot

/-- Replace the record of a channel slot. -/
def State.setSlot (s : State) (c : Nat) (r : Channel) : State := { s with ch := s.ch.set c r }

/-- Whether slot `c` holds a channel of this name. -/
def State.hasName (s : State) (name : Byte) (c : Nat) : Bool :=
  match s.ch[c]? with
  | some r => r.name == name
  | none => false

/-- Whether slot `c` holds a channel that transmits on this pin. -/
def State.hasTxPin (s : State) (pin : Byte) (c : Nat) : Bool :=
  match s.ch[c]? with
  | some r => r.txPin == pin
  | none => false

/-- find(name) (spec/42_host_commands.md R171): the active channel of that name, if there is one. -/
def State.find (s : State) (name : Byte) : Option Nat := s.chActive.find? (s.hasName name)

/-- The record of the active channel of that name, if there is one (spec/42_host_commands.md R171). -/
def State.lookup (s : State) (name : Byte) : Option (Nat × Channel) :=
  match s.find name with
  | none => none
  | some c =>
    match s.ch[c]? with
    | none => none
    | some r => some (c, r)

/-- Whether some active channel transmits on this pin (spec/42_host_commands.md R173). -/
def State.txPinUsed (s : State) (pin : Byte) : Bool := s.chActive.any (s.hasTxPin pin)

/-! ### Ends of an event -/

/-- The outcome of an event whose effect was computed with possible faults. -/
def finish : Except Fault State → Host.Outcome State Fault Refusal
  | .ok s => .next s
  | .error f => .fault f

end Sys2Proof.Machine
end

