-- ==== Sys2Proof/Machine/Flags.lean ====
section
/-! DEFINITION. Flags, parity, result codes and the response word: parity8 (spec/30_encoding.md R83), the numbers of
the result codes (R84), the response word (R87), the classification of a dequeued message
(spec/60_exceptions.md R227), and the scratch flags that Start clears (spec/41_tick_dispatcher.md R134). -/

namespace Sys2Proof.Machine

/-- parity8 (spec/30_encoding.md R83): 1 if the byte has an odd number of set bits. -/
def parity8 (b : Byte) : Bool :=
  b.getLsbD 0 ^^ b.getLsbD 1 ^^ b.getLsbD 2 ^^ b.getLsbD 3 ^^ b.getLsbD 4 ^^ b.getLsbD 5 ^^ b.getLsbD 6 ^^
    b.getLsbD 7

/-- The number of a result code (spec/30_encoding.md R84). -/
def ResultCode.bits : ResultCode → BitVec 4
  | .ok => 0
  | .notInitialized => 1
  | .unknownName => 2
  | .nameAlreadyUsed => 3
  | .txPinAlreadyUsed => 4
  | .bufferFull => 5
  | .bufferEmpty => 6
  | .parityError => 7
  | .stopViolation => 8

/-- The response word (spec/30_encoding.md R87): the code in [3:0], the data byte in [15:8], every other bit 0. -/
def responseWord (code : ResultCode) (data : Byte) : Word := (0#16) ++ data ++ (0#4) ++ code.bits

/-- respond(code, data) (spec/00_scope.md R10): the command returns its response word. -/
def State.respond (s : State) (code : ResultCode) (data : Byte) : State :=
  { s with responses := s.responses ++ [responseWord code data] }

/-- classify(m) (spec/60_exceptions.md R227): StopViolation wins over ParityError. -/
def classify (m : Message) : ResultCode :=
  if m.stopViolation = true then .stopViolation
  else if parity8 m.data ≠ m.parity then .parityError
  else .ok

/-- The scratch after "resets the scratch message flags" (spec/41_tick_dispatcher.md R134): the three flags are
cleared, the data and the parity stay. -/
def Message.clearFlags (m : Message) : Message :=
  { m with isBlank := false, clearsRx := false, stopViolation := false }

/-- The message SEND stores (spec/42_host_commands.md R174). -/
def sentMessage (data : Byte) (c b : Bool) : Message :=
  { data := data, parity := parity8 data, isBlank := b, clearsRx := c, stopViolation := false }

/-- The blank resynchronisation message of ADD (spec/42_host_commands.md R173, spec/92_eei_decisions.md D26). -/
def blankMessage : Message :=
  { data := 0x00, parity := false, isBlank := true, clearsRx := false, stopViolation := false }

end Sys2Proof.Machine
end

