-- ==== Sys2Proof/Machine/Operands.lean ====
section
/-! DEFINITION. What the events work on beside whole records: the bit positions and their successor
(spec/30_encoding.md R80, R81), the frame on the line (R82), setting one bit of the scratch byte
(spec/41_tick_dispatcher.md R137), and the pools of one channel as SEND, RECV and the flushes use them
(spec/40_fifo_controller.md R122). -/

namespace Sys2Proof.Machine

/-- The ordinal of a bit position (spec/30_encoding.md R80). -/
def BitPos.ordinal : BitPos → Nat
  | .idle => 0
  | .start => 1
  | .data k => 2 + k.val
  | .parity => 10
  | .stop => 11

/-- The bit position of an ordinal; 12 and above name none (spec/30_encoding.md R80). -/
def BitPos.ofOrdinal : Nat → Option BitPos
  | 0 => some .idle
  | 1 => some .start
  | 2 => some (.data 0)
  | 3 => some (.data 1)
  | 4 => some (.data 2)
  | 5 => some (.data 3)
  | 6 => some (.data 4)
  | 7 => some (.data 5)
  | 8 => some (.data 6)
  | 9 => some (.data 7)
  | 10 => some .parity
  | 11 => some .stop
  | _ => none

/-- The successor next(pos) (spec/30_encoding.md R81). next(Idle) is not used by any rule; it is Idle here
(notes/assumptions/12.md). -/
def BitPos.succ : BitPos → BitPos
  | .idle => .idle
  | .start => .data 0
  | .data k => if h : k.val + 1 < 8 then .data ⟨k.val + 1, h⟩ else .parity
  | .parity => .stop
  | .stop => .idle

/-- The level a frame of message `m` has in a bit position (spec/30_encoding.md R82, spec/41_tick_dispatcher.md
R145); the idle line is 1. -/
def frameLevel (m : Message) : BitPos → Bool
  | .idle => true
  | .start => false
  | .data k => m.data.getLsbD k.val
  | .parity => m.parity
  | .stop => true

/-- `data[k] <- v` (spec/41_tick_dispatcher.md R137): bit `k` is set or cleared, no other bit changes. -/
def setBit (d : Byte) (k : Fin 8) (v : Bool) : Byte :=
  if v then d ||| BitVec.twoPow 8 k.val else d &&& ~~~(BitVec.twoPow 8 k.val)

/-- Queue a message on the TX side (spec/40_fifo_controller.md R122, rows SEND and ADD): `none` when the free pool is
empty. -/
def Channel.enqueueTx (r : Channel) (m : Message) : Except Fault (Option Channel) :=
  match popFront r.txFree with
  | none => .ok none
  | some (n, free) => do
    let pay ← memWrite r.txPay n m
    let pend ← pushBack (free ++ r.txPend) r.txPend n
    return some { r with txFree := free, txPend := pend, txPay := pay }

/-- Take the head message of the TX queue and return its node (spec/40_fifo_controller.md R122, row TX pop; spec/41_tick_dispatcher.md
R144): `none` when the queue is empty. -/
def Channel.dequeueTx (r : Channel) : Except Fault (Option (Message × Channel)) :=
  match popFront r.txPend with
  | none => .ok none
  | some (n, pend) => do
    let m ← memRead r.txPay n
    let free ← pushBack (r.txFree ++ pend) r.txFree n
    return some (m, { r with txPend := pend, txFree := free })

/-- Queue a received message (spec/40_fifo_controller.md R122, row RX completion): when the free pool is empty the
message is discarded and nothing records the loss (spec/41_tick_dispatcher.md R140). -/
def Channel.enqueueRx (r : Channel) (m : Message) : Except Fault Channel :=
  match popFront r.rxFree with
  | none => .ok r
  | some (n, free) => do
    let pay ← memWrite r.rxPay n m
    let pend ← pushBack (free ++ r.rxPend) r.rxPend n
    return { r with rxFree := free, rxPend := pend, rxPay := pay }

/-- Take the head received message and return its node (spec/40_fifo_controller.md R122, rows RECV and RECVB): `none`
when nothing is pending. -/
def Channel.dequeueRx (r : Channel) : Except Fault (Option (Message × Channel)) :=
  match popFront r.rxPend with
  | none => .ok none
  | some (n, pend) => do
    let m ← memRead r.rxPay n
    let free ← pushBack (r.rxFree ++ pend) r.rxFree n
    return some (m, { r with rxPend := pend, rxFree := free })

/-- MergeAll(rxPend, rxFree) on one channel. -/
def Channel.mergeRx (r : Channel) : Channel :=
  let merged := mergeAll r.rxPend r.rxFree
  { r with rxPend := merged.1, rxFree := merged.2 }

/-- MergeAll(txPend, txFree) on one channel. -/
def Channel.mergeTx (r : Channel) : Channel :=
  let merged := mergeAll r.txPend r.txFree
  { r with txPend := merged.1, txFree := merged.2 }

/-- Discard what was received and mark the frame in flight (spec/42_host_commands.md R178, spec/41_tick_dispatcher.md
R148). -/
def Channel.flushRx (r : Channel) : Channel := { r.mergeRx with rxDrop := true }

end Sys2Proof.Machine
end

