-- ==== Sys2Proof/Machine/Commands.lean ====
section
/-! DEFINITION. The host commands INIT, ADD, SEND, RECV, RECVB, CLRTX, CLRRX (spec/42_host_commands.md R170 to R178).
Each tests its failure conditions in the spec's order and the first that holds gives the result (R170). -/

namespace Sys2Proof.Machine

/-! ### INIT -/

/-- Link the four pools of a slot (spec/42_host_commands.md R172). -/
def Channel.initPools (cfg : Config) (r : Channel) : Channel :=
  { r with txFree := poolInit cfg.txd, txPend := [], rxFree := poolInit cfg.rxd, rxPend := [] }

/-- The effect of the first INIT (spec/42_host_commands.md R172). -/
def State.initAll (s : State) : State :=
  { s with
    chFree := poolInit s.cfg.nch
    chActive := []
    ch := s.ch.map (Channel.initPools s.cfg)
    initialized := true }

/-- INIT (spec/42_host_commands.md R172): always Ok; a second INIT changes nothing. -/
def execInit (s : State) : Host.Outcome State Fault Refusal :=
  .next ((if s.initialized = false then s.initAll else s).respond .ok 0)

/-! ### ADD -/

/-- The record ADD writes, before the blank message is queued (spec/42_host_commands.md R173): the pools and payload
arenas of the slot stay; `seed` is the level of the RX pin read after the TX pin was driven high. -/
def Channel.configured (r : Channel) (name txPin rxPin : Byte) (seed : Bool) : Channel :=
  { r with
    name := name, txPin := txPin, rxPin := rxPin, txEn := true, rxEn := true, last := seed,
    tx := BitMachine.zero, rx := BitMachine.zero, rxDrop := false }

/-- The effect of an ADD that succeeds (spec/42_host_commands.md R173), in the spec's order of steps; `c` and `free`
are the head and the rest of `chFree`. -/
def State.addChannel (s : State) (c : Nat) (free : List Nat) (name txPin rxPin : Byte) : Except Fault State := do
  let active ← pushBack (free ++ s.chActive) s.chActive c
  let r ← s.slot c
  let dirOut ← configurePin s.dir txPin .output
  let dir ← configurePin dirOut rxPin .input
  let line ← lineWrite s.line txPin true
  let seed ← lineRead line rxPin
  match ← (r.configured name txPin rxPin seed).enqueueTx blankMessage with
  | none => .error .noBlankSlot
  | some r' =>
    return { s.setSlot c r' with chFree := free, chActive := active, dir := dir, line := line }

/-- ADD (spec/42_host_commands.md R173, spec/60_exceptions.md R222): a pin that is not below NPINS is refused first
(spec/30_encoding.md R91 step 3; notes/assumptions/13.md). -/
def execAdd (name txPin rxPin : Byte) (s : State) : Host.Outcome State Fault Refusal :=
  if Instr.wellFormed s.cfg.npins (.add name txPin rxPin) = false then .refused .pinOutOfRange
  else if s.initialized = false then .next (s.respond .notInitialized 0)
  else
    match popFront s.chFree with
    | none => .next (s.respond .bufferFull 0)
    | some (c, free) =>
      if (s.find name).isSome = true then .next (s.respond .nameAlreadyUsed 0)
      else if s.txPinUsed txPin = true then .next (s.respond .txPinAlreadyUsed 0)
      else finish ((s.addChannel c free name txPin rxPin).map (fun t => t.respond .ok 0))

/-! ### SEND -/

/-- SEND (spec/42_host_commands.md R174): NotInitialized, UnknownName, BufferFull, Ok, tested in that order. -/
def execSend (name data : Byte) (c b : Bool) (s : State) : Host.Outcome State Fault Refusal :=
  if s.initialized = false then .next (s.respond .notInitialized 0)
  else
    match s.lookup name with
    | none => .next (s.respond .unknownName 0)
    | some (k, r) =>
      finish ((r.enqueueTx (sentMessage data c b)).map fun
        | none => s.respond .bufferFull 0
        | some r' => (s.setSlot k r').respond .ok 0)

/-! ### RECV and RECVB -/

/-- What RECV name does in a state (spec/42_host_commands.md R175): the code, the data byte, and the state with the
message taken out. -/
def receive (name : Byte) (s : State) : Except Fault (ResultCode × Byte × State) :=
  if s.initialized = false then .ok (.notInitialized, 0, s)
  else
    match s.lookup name with
    | none => .ok (.unknownName, 0, s)
    | some (k, r) =>
      r.dequeueRx.map fun
        | none => (.bufferEmpty, 0, s)
        | some (m, r') => (classify m, m.data, s.setSlot k r')

/-- RECV (spec/42_host_commands.md R175): it never waits. -/
def execRecv (name : Byte) (s : State) : Host.Outcome State Fault Refusal :=
  finish ((receive name s).map fun (code, data, t) => t.respond code data)

/-- RECVB (spec/42_host_commands.md R176): where RECV would answer BufferEmpty the command holds, nothing else changes
and no response is returned; otherwise it is RECV, and is no longer outstanding. -/
def execRecvb (name : Byte) (s : State) : Host.Outcome State Fault Refusal :=
  finish ((receive name s).map fun (code, data, t) =>
    if code = .bufferEmpty then { s with outstanding := some name }
    else { t with outstanding := none }.respond code data)

/-- Whether RECVB name would complete in this state (spec/42_host_commands.md R176). -/
def recvReady (name : Byte) (s : State) : Bool :=
  match receive name s with
  | .ok (code, _, _) => decide (code ≠ .bufferEmpty)
  | .error _ => true

/-! ### CLRTX and CLRRX -/

/-- CLRTX (spec/42_host_commands.md R177): no test of `initialized`; the message in flight is not touched. -/
def execClrtx (name : Byte) (s : State) : Host.Outcome State Fault Refusal :=
  match s.lookup name with
  | none => .next (s.respond .unknownName 0)
  | some (k, r) => .next ((s.setSlot k r.mergeTx).respond .ok 0)

/-- CLRRX (spec/42_host_commands.md R178): no test of `initialized`; the drop mark is set in every RX state. -/
def execClrrx (name : Byte) (s : State) : Host.Outcome State Fault Refusal :=
  match s.lookup name with
  | none => .next (s.respond .unknownName 0)
  | some (k, r) => .next ((s.setSlot k r.flushRx).respond .ok 0)

end Sys2Proof.Machine
end

