-- ==== Sys2Proof/Machine/Lines.lean ====
section
/-! DEFINITION. The LINE event (spec/43_line_environment.md R211): the outside world drives a pin line. -/

namespace Sys2Proof.Machine

/-- LINE (spec/43_line_environment.md R211): any pin below NPINS, before INIT too; it returns no response. -/
def execLine (pin : Byte) (v : Bool) (s : State) : Host.Outcome State Fault Refusal :=
  if Instr.wellFormed s.cfg.npins (.line pin v) = false then .refused .pinOutOfRange
  else finish ((lineWrite s.line pin v).map fun line => { s with line := line })

end Sys2Proof.Machine
end

