-- ==== Sys2Proof/Machine/Tick.lean ====
section
/-! DEFINITION. The tick dispatcher and the two bit-machines (spec/41_tick_dispatcher.md R130 to R150). -/

namespace Sys2Proof.Machine

/-- Advance(m) of spec/41_tick_dispatcher.md R132, for a machine that is not Idle: the machine, and whether it
ENTERED a new state. -/
def advance (T : Nat) (m : BitMachine) : BitMachine × Bool :=
  if m.q + 1 = T then ({ m with q := 0, pos := m.pos.succ }, true) else ({ m with q := m.q + 1 }, false)

/-! ### Receive side -/

/-- RxSample (spec/41_tick_dispatcher.md R133; R136 to R139): what one sample `v` does in each state. -/
def rxSample (m : BitMachine) (v : Bool) : BitMachine :=
  match m.pos with
  | .idle => m
  | .start => if v = true then { m with pos := .idle, q := 0 } else m
  | .data k => { m with scr := { m.scr with data := setBit m.scr.data k v } }
  | .parity => { m with scr := { m.scr with parity := v } }
  | .stop => if v = false then { m with scr := { m.scr with stopViolation := true } } else m

/-- RxComplete (spec/41_tick_dispatcher.md R140). -/
def rxComplete (r : Channel) : Except Fault Channel :=
  if r.rxDrop = false then r.enqueueRx r.rx.scr else .ok r.mergeRx

/-- The Idle case of RxStep (spec/41_tick_dispatcher.md R134): a falling edge enters Start with the scratch flags and
the drop mark cleared; anything else stays Idle. -/
def rxIdle (r : Channel) (v : Bool) : Channel :=
  if r.last = true ∧ v = false then
    { r with rx := { pos := .start, q := 0, scr := r.rx.scr.clearFlags }, rxDrop := false }
  else r

/-- The non-Idle case of RxStep (spec/41_tick_dispatcher.md R132, R140): advance, and complete on Stop to Idle. -/
def rxBusy (T : Nat) (r : Channel) : Except Fault Channel :=
  let r' := { r with rx := (advance T r.rx).1 }
  if r.rx.pos = .stop ∧ r'.rx.pos = .idle then rxComplete r' else .ok r'

/-- The last two lines of RxStep (spec/41_tick_dispatcher.md R135, R141): the sample at `q = S`, then `last <- v`. -/
def rxSettle (S : Nat) (r : Channel) (v : Bool) : Channel :=
  { r with
    rx := if r.rx.pos ≠ .idle ∧ r.rx.q = S then rxSample r.rx v else r.rx
    last := v }

/-- RxStep (spec/41_tick_dispatcher.md R133) on a channel record, with `v` the level read at the start of the pass. -/
def rxStepWith (cfg : Config) (r : Channel) (v : Bool) : Except Fault Channel := do
  let r' ← if r.rx.pos = .idle then .ok (rxIdle r v) else rxBusy cfg.T r
  return rxSettle cfg.S r' v

/-- RxStep with its one LineRead (spec/41_tick_dispatcher.md R133, R150). -/
def rxStep (cfg : Config) (line : List Bool) (r : Channel) : Except Fault Channel := do
  let v ← lineRead line r.rxPin
  rxStepWith cfg r v

/-! ### Transmit side -/

/-- Start a message (spec/41_tick_dispatcher.md R144, R145, R147, R148): the record, and the level written if one is. -/
def txStart (r : Channel) (m : Message) : Channel × Option Bool :=
  let r' := { r with tx := { pos := .start, q := 0, scr := m } }
  (if m.clearsRx = true then r'.flushRx else r', if m.isBlank = true then none else some false)

/-- The non-Idle case of TxStep (spec/41_tick_dispatcher.md R142, R145, R146, R147): a level is written only on entry
to a state other than Idle, and never for a blank message. -/
def txBusy (T : Nat) (r : Channel) : Channel × Option Bool :=
  let x := (advance T r.tx).1
  ({ r with tx := x },
    if (advance T r.tx).2 = true ∧ x.pos ≠ .idle ∧ x.scr.isBlank = false then some (frameLevel x.scr x.pos) else none)

/-- TxStep (spec/41_tick_dispatcher.md R142) on a channel record: the new record, and the level it writes on its TX
pin, if it writes one. -/
def txStep (cfg : Config) (r : Channel) : Except Fault (Channel × Option Bool) :=
  if r.tx.pos = .idle then do
    match ← r.dequeueTx with
    | none => return (r, some true)
    | some (m, r') => return txStart r' m
  else .ok (txBusy cfg.T r)

/-! ### The two passes -/

/-- The RX pass at one slot (spec/41_tick_dispatcher.md R130): only a channel with `rxEn = 1` is processed (R36). -/
def rxAt (s : State) (c : Nat) : Except Fault State := do
  let r ← s.slot c
  if r.rxEn = true then
    let r' ← rxStep s.cfg s.line r
    return s.setSlot c r'
  else return s

/-- The TX pass at one slot (spec/41_tick_dispatcher.md R130): only a channel with `txEn = 1` is processed
(spec/10_state.md R36). -/
def txAt (s : State) (c : Nat) : Except Fault State := do
  let r ← s.slot c
  if r.txEn = true then
    let (r', drive) ← txStep s.cfg r
    match drive with
    | none => return s.setSlot c r'
    | some v =>
      let line ← lineWrite s.line r.txPin v
      return { s.setSlot c r' with line := line }
  else return s

/-- A pass over a list of slots, in order (spec/41_tick_dispatcher.md R131). -/
def pass (f : State → Nat → Except Fault State) : List Nat → State → Except Fault State
  | [], s => .ok s
  | c :: rest, s => do
    let s' ← f s c
    pass f rest s'

/-- The two passes of one TICK over the slots `order` (spec/41_tick_dispatcher.md R130, R131). -/
def tickOver (order : List Nat) (s : State) : Except Fault State := do
  let s' ← pass rxAt order s
  pass txAt order s'

/-- TICK (spec/41_tick_dispatcher.md R130): no effect before INIT; then the RX pass of every active channel, then the
TX pass of every active channel. It returns no response. -/
def execTick (s : State) : Host.Outcome State Fault Refusal :=
  if s.initialized = false then .next s else finish (tickOver s.chActive s)

end Sys2Proof.Machine
end

