-- ==== Sys2Proof/Machine/Dispatch.lean ====
section
/-! DEFINITION. One arm for each event of spec/opcode_table.json. -/

namespace Sys2Proof.Machine

def exec (i : Instr) (s : State) : Host.Outcome State Fault Refusal :=
  match i with
  | .tick => Sys2Proof.Machine.execTick s
  | .init => Sys2Proof.Machine.execInit s
  | .add name txPin rxPin => Sys2Proof.Machine.execAdd name txPin rxPin s
  | .send name data c b => Sys2Proof.Machine.execSend name data c b s
  | .recv name => Sys2Proof.Machine.execRecv name s
  | .recvb name => Sys2Proof.Machine.execRecvb name s
  | .clrtx name => Sys2Proof.Machine.execClrtx name s
  | .clrrx name => Sys2Proof.Machine.execClrrx name s
  | .line pin v => Sys2Proof.Machine.execLine pin v s

end Sys2Proof.Machine
end

