-- ==== Sys2Proof/Machine/Fetch.lean ====
section
/-! DEFINITION. Which event happens next. The block fetches no instructions (spec/10_state.md R21, spec/20_memory.md
R72): the events its three agents present stand in `State.events` in their total order (R69), and while a RECVB holds
the host presents nothing else (spec/42_host_commands.md R170, R176; spec/70_reset_and_hazards.md R257). -/

namespace Sys2Proof.Machine

/-- What the next step does. -/
inductive Fetched where
  /-- Nothing happens: no event is there to happen. -/
  | rest (s : State)
  /-- The event `i` happens in the state `s`. -/
  | issue (i : Instr) (s : State)
  /-- The input describes nothing this block can receive. -/
  | refuse (r : Refusal)
  deriving DecidableEq, Repr

/-- Whether a word is a host command (spec/60_exceptions.md R233). -/
def isHostWord (w : Word) : Bool :=
  match decode w with
  | .ok i => decide (i.agent = .host)
  | .error _ => false

/-- The first word that is not a host command, and the other words in their order. The host's later commands wait
while its RECVB holds; TICK and LINE events go on (spec/42_host_commands.md R176; notes/assumptions/3.md). A word that
is no event is not passed over (notes/assumptions/14.md). -/
def takeEnvironment : List Word → Option (Word × List Word)
  | [] => none
  | w :: ws =>
    if isHostWord w = true then
      match takeEnvironment ws with
      | none => none
      | some (x, rest) => some (x, w :: rest)
    else some (w, ws)

/-- Issue a word that `s` no longer holds, by the decoding procedure of spec/30_encoding.md R91. -/
def issueWord (w : Word) (s : State) : Fetched :=
  match decode w with
  | .ok i => .issue i s
  | .error e => .refuse (.illegalWord e)

/-- Whether the waiting host is scheduled now: the next entry of `hostTurns`, and at once when there is none
(spec/42_host_commands.md R176; notes/assumptions/4.md). -/
def State.hostScheduled (s : State) : Bool := s.hostTurns.headD true

/-- The step while no command is outstanding: the next event of the total order. -/
def fetchNext (s : State) : Fetched :=
  match s.events with
  | [] => .rest s
  | w :: ws => issueWord w { s with events := ws }

/-- The next TICK or LINE event while the host waits. -/
def fetchEnvironment (s : State) : Fetched :=
  match takeEnvironment s.events with
  | none => .rest s
  | some (w, ws) => issueWord w { s with events := ws }

/-- The step while RECVB `name` is outstanding (spec/42_host_commands.md R176): a ready command completes when the
host is scheduled; otherwise TICK and LINE events go on. -/
def fetchWaiting (name : Byte) (s : State) : Fetched :=
  if recvReady name s = true then
    let t := { s with hostTurns := s.hostTurns.tail }
    if s.hostScheduled = true then .issue (.recvb name) t else fetchEnvironment t
  else fetchEnvironment s

/-- What the next step does. An illegal configuration is refused: it describes no build of this block
(spec/00_scope.md R6). -/
def fetch (s : State) : Fetched :=
  if s.cfg.legal = false then .refuse .illegalConfig
  else
    match s.outstanding with
    | none => fetchNext s
    | some name => fetchWaiting name s

/-- Put a word where the next step takes its event from: at the head of `events`, with no command outstanding. -/
def State.presentWord (s : State) (w : Word) : State := { s with events := w :: s.events, outstanding := none }

/-- The event word whose low `nbits` bits are those of `w`, every higher bit 0 (spec/30_encoding.md R90). -/
def eventWord (nbits w : Nat) : Word := BitVec.ofNat 32 (w % 2 ^ nbits)

end Sys2Proof.Machine
end

