-- ==== Sys2Proof/Machine/Step.lean ====
section
/-! DEFINITION. One step of the block: one atomic event (spec/00_scope.md R5, spec/20_memory.md R63). -/

namespace Sys2Proof.Machine

/-- One step: the event that happens next, performed. Three outcomes: a next state, a fault, a refusal
(spec/60_exceptions.md R220). -/
def step (s : State) : Host.Outcome State Fault Refusal :=
  match fetch s with
  | .rest t => .next t
  | .issue i t => exec i t
  | .refuse r => .refused r

/-- `s` with the event word of the low `nbits` bits of `w` presented next (notes/assumptions/1.md). -/
def State.withFetchWord (s : State) (nbits w : Nat) : State := s.presentWord (eventWord nbits w)

end Sys2Proof.Machine
end

