-- ==== Sys2Proof/Machine/LinkedPool.lean ====
section
/-! DEFINITION. The linked representation of pools (spec/40_fifo_controller.md R110): a head index per pool and the
`next` and `prev` links of the nodes of one arena, and the primitives on it, from the pseudocode of R111 to R118. The
events work on the sequences (Ops), whose meaning is the normative one; the two are one design in two forms
(notes/assumptions/8.md), and statements relate them. NIL is `none`. -/

namespace Sys2Proof.Machine

/-- The links of the nodes of one arena (spec/40_fifo_controller.md R110). -/
structure Links where
  next : List (Option Nat)
  prev : List (Option Nat)
  deriving DecidableEq, Repr

/-- `next[i]`; a node outside the arena has no link. -/
def Links.nx (l : Links) (i : Nat) : Option Nat := (l.next[i]?).join

/-- `prev[i]`; a node outside the arena has no link. -/
def Links.pv (l : Links) (i : Nat) : Option Nat := (l.prev[i]?).join

/-- `next[i] <- v`. -/
def Links.setNext (l : Links) (i : Nat) (v : Option Nat) : Links := { l with next := l.next.set i v }

/-- `prev[i] <- v`. -/
def Links.setPrev (l : Links) (i : Nat) (v : Option Nat) : Links := { l with prev := l.prev.set i v }

/-- `next[a] <- b; prev[b] <- a`: node `b` follows node `a`. -/
def Links.join (l : Links) (a b : Nat) : Links := (l.setNext a (some b)).setPrev b (some a)

/-- `next[n] <- NIL; prev[n] <- NIL`: node `n` is unowned. -/
def Links.release (l : Links) (n : Nat) : Links := (l.setNext n none).setPrev n none

/-- A neighbour that the representation invariant (ii) of spec/40_fifo_controller.md R110 promises. -/
def neighbour : Option Nat → Except Fault Nat
  | some i => .ok i
  | none => .error .brokenLinks

/-- The nodes met from `i` along `next` up to, not including, the return to `head`; `fuel` bounds the walk. -/
def Links.walk (l : Links) (head : Nat) : Nat → Nat → List Nat
  | 0, _ => []
  | fuel + 1, i =>
    i :: (match l.nx i with
      | none => []
      | some j => if j = head then [] else Links.walk l head fuel j)

/-- seq(P) (spec/40_fifo_controller.md R110). -/
def Links.seq (l : Links) : Option Nat → List Nat
  | none => []
  | some head => l.walk head l.next.length head

/-- PoolInit (spec/40_fifo_controller.md R111). -/
def linkedInit (cap : Nat) : Links × Option Nat :=
  ({ next := (List.range cap).map fun i => some ((i + 1) % cap),
     prev := (List.range cap).map fun i => some ((i + (cap - 1)) % cap) },
    if cap = 0 then none else some 0)

/-- PushBack (spec/40_fifo_controller.md R112): the new links and the new head. -/
def linkedPushBack (l : Links) (head : Option Nat) (n : Nat) : Except Fault (Links × Option Nat) :=
  if l.nx n ≠ none ∨ l.pv n ≠ none then .error .pushOwnedNode
  else
    match head with
    | none => .ok (l.join n n, some n)
    | some h => do
      let t ← neighbour (l.pv h)
      return ((l.join t n).join n h, some h)

/-- PushFront (spec/40_fifo_controller.md R113): PushBack, then the head is `n`. -/
def linkedPushFront (l : Links) (head : Option Nat) (n : Nat) : Except Fault (Links × Option Nat) := do
  let pushed ← linkedPushBack l head n
  return (pushed.1, some n)

/-- Unlink node `n` of a pool whose head is `h` (the common part of spec/40_fifo_controller.md R114, R115, R116):
a single member leaves the empty pool, a head is followed by its successor. -/
def unlink (l : Links) (h n : Nat) : Except Fault (Links × Option Nat) := do
  let s ← neighbour (l.nx n)
  if s = n then return (l.release n, none)
  else
    let t ← neighbour (l.pv n)
    return ((l.join t s).release n, some (if h = n then s else h))

/-- PopFront (spec/40_fifo_controller.md R114): `none` is EMPTY. -/
def linkedPopFront (l : Links) (head : Option Nat) : Except Fault (Option Nat × Links × Option Nat) :=
  match head with
  | none => .ok (none, l, none)
  | some h => do
    let rest ← unlink l h h
    return (some h, rest.1, rest.2)

/-- PopBack (spec/40_fifo_controller.md R115): `none` is EMPTY. -/
def linkedPopBack (l : Links) (head : Option Nat) : Except Fault (Option Nat × Links × Option Nat) :=
  match head with
  | none => .ok (none, l, none)
  | some h => do
    let n ← neighbour (l.pv h)
    let rest ← unlink l h n
    return (some n, rest.1, rest.2)

/-- RemoveUnchecked (spec/40_fifo_controller.md R116): a non-member faults. -/
def linkedRemoveUnchecked (l : Links) (head : Option Nat) (n : Nat) : Except Fault (Links × Option Nat) :=
  match head with
  | none => .error .removeNonMember
  | some h => if n ∈ l.seq (some h) then unlink l h n else .error .removeNonMember

/-- RemoveChecked (spec/40_fifo_controller.md R117): scan the pool first; `none` is NOT_MEMBER, the pool unchanged. -/
def linkedRemoveChecked (l : Links) (head : Option Nat) (n : Nat) : Except Fault (Option (Links × Option Nat)) :=
  if n ∈ l.seq head then do
    let rest ← linkedRemoveUnchecked l head n
    return some rest
  else return none

/-- MergeAll(from, to) (spec/40_fifo_controller.md R118): the new links, the new head of `from` and of `to`. -/
def linkedMergeAll (l : Links) (src dst : Option Nat) : Except Fault (Links × Option Nat × Option Nat) :=
  match src, dst with
  | none, _ => .ok (l, none, dst)
  | some f, none => .ok (l, none, some f)
  | some f, some t => do
    let ft ← neighbour (l.pv f)
    let tt ← neighbour (l.pv t)
    return ((l.join tt f).join ft t, none, some t)

end Sys2Proof.Machine
end

