-- ==== Sys2Proof/Safety.lean ====
section
/-! DEFINITION. What claims about the block are stated in: the invariant that every step keeps (spec/10_state.md R24,
R27, R30, R31, R32, R36; spec/41_tick_dispatcher.md R140), runs of TICKs, the content of the queues, what the host can
observe (spec/10_state.md R34), and when links represent a pool (spec/40_fifo_controller.md R110). -/

namespace Sys2Proof.Machine

/-! ### Active channels -/

/-- The records of the active channels, in the order they were added. -/
def State.activeChannels (s : State) : List Channel := s.chActive.filterMap fun c => s.ch[c]?

/-- The messages waiting to be sent, head first. -/
def Channel.txQueue (r : Channel) : List Message := r.txPend.filterMap fun n => r.txPay[n]?

/-- The received messages waiting to be read, head first. -/
def Channel.rxQueue (r : Channel) : List Message := r.rxPend.filterMap fun n => r.rxPay[n]?

/-! ### The invariant -/

/-- A bit-machine between events (spec/10_state.md R31): `q` is 0..T-1, and 0 in Idle. -/
abbrev MachineOk (cfg : Config) (m : BitMachine) : Prop := m.q < cfg.T ∧ (m.pos = .idle → m.q = 0)

/-- The payload arenas have their configured sizes (spec/20_memory.md R61). -/
abbrev ArenaSizes (cfg : Config) (r : Channel) : Prop :=
  r.txPay.length = cfg.txd ∧ r.rxPay.length = cfg.rxd

/-- The partition invariant (spec/10_state.md R30). -/
abbrev PoolPartition (cfg : Config) (r : Channel) : Prop :=
  (r.txFree ++ r.txPend).Perm (List.range cfg.txd) ∧ (r.rxFree ++ r.rxPend).Perm (List.range cfg.rxd)

/-- The pools of a slot that INIT linked and no ADD has used (spec/70_reset_and_hazards.md R252). -/
abbrev FreshPools (cfg : Config) (r : Channel) : Prop :=
  r.txFree = List.range cfg.txd ∧ r.txPend = [] ∧ r.rxFree = List.range cfg.rxd ∧ r.rxPend = []

/-- A message to be sent carries the parity of its data and no stop violation (spec/42_host_commands.md R174). -/
abbrev SendableMessage (m : Message) : Prop := m.parity = parity8 m.data ∧ m.stopViolation = false

/-- A received message carries 0 in `isBlank` and `clearsRx` (spec/10_state.md R27). -/
abbrev ReceivedMessage (m : Message) : Prop := m.isBlank = false ∧ m.clearsRx = false

/-- An active channel between events: its pins are lines, both directions are enabled (spec/10_state.md R36), its
machines meet R31, a drop mark stands only beside an empty receive queue (spec/41_tick_dispatcher.md R140), and its
messages are as R27 says. -/
abbrev ActiveOk (cfg : Config) (r : Channel) : Prop :=
  (r.txPin.toNat < cfg.npins ∧ r.rxPin.toNat < cfg.npins) ∧
  (r.txEn = true ∧ r.rxEn = true) ∧
  (MachineOk cfg r.tx ∧ MachineOk cfg r.rx) ∧
  (r.rxDrop = true → r.rxPend = []) ∧
  (SendableMessage r.tx.scr ∧ ∀ m ∈ r.txQueue, SendableMessage m) ∧
  (ReceivedMessage r.rx.scr ∧ ∀ m ∈ r.rxQueue, ReceivedMessage m)

/-- The invariant of the block between events. -/
structure BlockInv (s : State) : Prop where
  /-- The configuration is legal (spec/00_scope.md R6). -/
  config : s.cfg.legal = true
  /-- There are NPINS lines and directions (spec/10_state.md R22). -/
  pins : s.line.length = s.cfg.npins ∧ s.dir.length = s.cfg.npins
  /-- There are NCH channel records (spec/10_state.md R22). -/
  slots : s.ch.length = s.cfg.nch
  arenas : ∀ r ∈ s.ch, ArenaSizes s.cfg r
  /-- Before INIT there is no channel (spec/70_reset_and_hazards.md R250). -/
  beforeInit : s.initialized = false → s.chFree = [] ∧ s.chActive = []
  /-- The Registry is a partition of the slots (spec/10_state.md R24). -/
  registry : s.initialized = true → (s.chFree ++ s.chActive).Perm (List.range s.cfg.nch)
  /-- Every slot's pools are partitions (spec/10_state.md R30). -/
  pools : s.initialized = true → ∀ r ∈ s.ch, PoolPartition s.cfg r
  /-- A slot that was never used is as INIT left it (spec/42_host_commands.md R173). -/
  fresh : ∀ c ∈ s.chFree, ∀ r ∈ s.ch[c]?, FreshPools s.cfg r
  active : ∀ r ∈ s.activeChannels, ActiveOk s.cfg r
  /-- Names are unique (spec/10_state.md R32). -/
  names : (s.activeChannels.map (·.name)).Nodup
  /-- TX pins are unique (spec/10_state.md R32). -/
  txPins : (s.activeChannels.map (·.txPin)).Nodup
  /-- Only a RECVB of an existing channel can be outstanding (spec/42_host_commands.md R176). -/
  waiting : ∀ name ∈ s.outstanding, s.initialized = true ∧ (s.find name).isSome = true

/-! ### Runs of TICKs -/

/-- `n` consecutive TICK events with no other event between them (spec/30_encoding.md R93). -/
def tickTimes : Nat → State → Host.Outcome State Fault Refusal
  | 0, s => .next s
  | n + 1, s =>
    match exec .tick s with
    | .next t => tickTimes n t
    | .fault f => .fault f
    | .refused r => .refused r

/-- The level of a line; a pin that names no line has none. -/
def State.level (s : State) (pin : Byte) : Option Bool := s.line[pin.toNat]?

/-- The state in which frame bit `f` stands on the line (spec/30_encoding.md R82): the frame bit index is the state
ordinal minus 1. -/
def framePos (f : Nat) : Option BitPos := BitPos.ofOrdinal (f + 1)

/-- A receive bit-machine alone, over a sequence of sampled levels, one for each tick. -/
def rxRun (cfg : Config) : List Bool → Channel → Except Fault Channel
  | [], r => .ok r
  | v :: vs, r => do
    let r' ← rxStepWith cfg r v
    rxRun cfg vs r'

/-- `n` quantum counter advances of one bit-machine (spec/41_tick_dispatcher.md R132). -/
def advanceTimes (T : Nat) : Nat → BitMachine → BitMachine
  | 0, m => m
  | n + 1, m => advanceTimes T n (advance T m).1

/-! ### What the host can observe -/

/-- A channel without node identities: queue contents and the number of free nodes (spec/10_state.md R34). The free
payload slots' contents are left out. -/
structure ChannelView where
  name : Byte
  txPin : Byte
  rxPin : Byte
  txEn : Bool
  rxEn : Bool
  last : Bool
  tx : BitMachine
  rx : BitMachine
  rxDrop : Bool
  txQueue : List Message
  txRoom : Nat
  rxQueue : List Message
  rxRoom : Nat
  deriving DecidableEq, Repr

/-- The view of one channel record. -/
def Channel.view (r : Channel) : ChannelView :=
  { name := r.name, txPin := r.txPin, rxPin := r.rxPin, txEn := r.txEn, rxEn := r.rxEn, last := r.last,
    tx := r.tx, rx := r.rx, rxDrop := r.rxDrop,
    txQueue := r.txQueue, txRoom := r.txFree.length, rxQueue := r.rxQueue, rxRoom := r.rxFree.length }

/-- The block without slot and node identities (spec/10_state.md R34): the active channels in order, the number of
unused slots, the lines and the host port. -/
structure StateView where
  cfg : Config
  initialized : Bool
  room : Nat
  channels : List ChannelView
  line : List Bool
  dir : List PinDir
  outstanding : Option Byte
  events : List Word
  hostTurns : List Bool
  responses : List Word
  deriving DecidableEq, Repr

/-- The view of a state. -/
def State.view (s : State) : StateView :=
  { cfg := s.cfg, initialized := s.initialized, room := s.chFree.length,
    channels := s.activeChannels.map Channel.view, line := s.line, dir := s.dir,
    outstanding := s.outstanding, events := s.events, hostTurns := s.hostTurns, responses := s.responses }

/-! ### Links that represent a pool -/

/-- Each node of the list is followed by the next one, in both directions. -/
def Links.Linked (l : Links) : List Nat → Prop
  | [] => True
  | [_] => True
  | a :: b :: rest => (l.nx a = some b ∧ l.pv b = some a) ∧ Links.Linked l (b :: rest)

/-- The links and the head represent the sequence `xs` (spec/40_fifo_controller.md R110 (i), (ii)): its nodes are
distinct nodes of the arena, the head is the first, and the chain is fully circular. -/
def Represents (l : Links) (head : Option Nat) (xs : List Nat) : Prop :=
  head = xs.head? ∧ xs.Nodup ∧ (∀ n ∈ xs, n < l.next.length ∧ n < l.prev.length) ∧
    l.Linked (xs ++ xs.head?.toList)

/-- A node of the arena that no pool holds (spec/40_fifo_controller.md R110 (iii)). -/
def Unowned (l : Links) (n : Nat) : Prop :=
  n < l.next.length ∧ n < l.prev.length ∧ l.nx n = none ∧ l.pv n = none

end Sys2Proof.Machine
end

