-- ==== Sys2Proof/Certificates/Slice0/Obligations.lean ====
section
/-! DEFINITION. The statements about the block, for the provers. Each docstring names the rule of spec/ it formalises,
the decisions D<n> of spec/92_eei_decisions.md (the spec's own choices) that the rule rests on, and where a clause is the
model's choice the entry notes/assumptions/<n>.md. -/

open Sys2Proof Sys2Proof.Machine

/-! ### Encoding -/

/-- No bit of an encoding is dropped (spec/30_encoding.md R85, R86, R88, R91): decoding the word of an event gives the
event, for every operand value. The event word is the spec's own choice (D2). -/
def Obligations.DecodeOfEncode : Prop := ∀ i : Instr, decode (encode i) = .ok i

/-- Each legal word has one spelling (spec/30_encoding.md R85, R90): the event a word decodes to has that word
(D2). -/
def Obligations.EncodeOfDecode : Prop := ∀ (w : Word) (i : Instr), decode w = .ok i → encode i = w

/-- spec/30_encoding.md R86 (D2): no two rows match the same word. -/
def Obligations.NoWordMatchesTwoRows : Prop :=
  ∀ (w : Word), ∀ row ∈ opcodeTable, ∀ row' ∈ opcodeTable,
    row.accepts w = true → row'.accepts w = true → row = row'

/-- spec/30_encoding.md R89 (D2, D21): a word with an unused op, a word that sets a bit each row of its op holds at zero, and a
word with a pin operand that is not below NPINS are refused when they are presented. -/
def Obligations.IllegalWordsAreRefused : Prop :=
  ∀ (s : State) (w : Word) (rest : List Word),
    s.cfg.legal = true → s.outstanding = none → s.events = w :: rest →
    (8 ≤ (opField w).toNat → step s = .refused (.illegalWord .unusedOp)) ∧
    ((opField w).toNat < 8 →
      (∀ row ∈ opcodeTable, opField row.value = opField w →
        ∃ k < 32, row.mask.getLsbD k = true ∧ row.value.getLsbD k = false ∧ w.getLsbD k = true) →
      step s = .refused (.illegalWord .reservedBits)) ∧
    (∀ i, decode w = .ok i → i.wellFormed s.cfg.npins = false → step s = .refused .pinOutOfRange)

/-- The worked encodings of spec/30_encoding.md R94 (D2, D3). -/
def Obligations.WorkedEncodingsDecode : Prop :=
  decode 0x00000000 = .ok .tick ∧
  decode 0x00000001 = .ok .init ∧
  decode 0x01004102 = .ok (.add 0x41 0 1) ∧
  decode 0x00014202 = .ok (.add 0x42 1 0) ∧
  decode 0x002D4103 = .ok (.send 0x41 0x2D false false) ∧
  decode 0x002D4133 = .ok (.send 0x41 0x2D true true) ∧
  decode 0x00004204 = .ok (.recv 0x42) ∧
  decode 0x00004205 = .ok (.recvb 0x42) ∧
  decode 0x00004106 = .ok (.clrtx 0x41) ∧
  decode 0x00004116 = .ok (.clrrx 0x41) ∧
  decode 0x00050007 = .ok (.line 5 false) ∧
  decode 0x00050017 = .ok (.line 5 true) ∧
  responseWord .ok 0x2D = 0x00002D00

/-- spec/30_encoding.md R81, on the twelve ordinals of R80, whose order after Idle the spec marks as its own inference: the
successor adds 1 from Start to Parity and returns from Stop to Idle; next(0) is not used. That an ordinal from 12 on names
no position is the model's choice (notes/assumptions/11.md). -/
def Obligations.SuccessorFollowsTheOrdinals : Prop :=
  (BitPos.idle.ordinal = 0 ∧ BitPos.start.ordinal = 1 ∧ (∀ k : Fin 8, (BitPos.data k).ordinal = 2 + k.val) ∧
    BitPos.parity.ordinal = 10 ∧ BitPos.stop.ordinal = 11) ∧
  (∀ p : BitPos, p.ordinal ≤ 11 ∧ BitPos.ofOrdinal p.ordinal = some p) ∧
  (∀ p : BitPos, 1 ≤ p.ordinal → p.ordinal ≤ 10 → p.succ.ordinal = p.ordinal + 1) ∧
  (∀ p : BitPos, p.ordinal = 11 → p.succ.ordinal = 0) ∧
  (∀ n : Nat, 12 ≤ n → BitPos.ofOrdinal n = none)

/-! ### The step -/

/-- A step runs the decoded event (spec/10_state.md R21, spec/20_memory.md R69): with no command outstanding, the next
word of the total order, taken out of `events`; with no word left, nothing happens. That the order is a list in the state
and that an empty list rests are the model's choices (notes/assumptions/1.md, 15.md). -/
def Obligations.StepRunsTheNextEvent : Prop :=
  ∀ s : State, s.cfg.legal = true → s.outstanding = none →
    (∀ w rest i, s.events = w :: rest → decode w = .ok i → step s = exec i { s with events := rest }) ∧
    (s.events = [] → step s = .next s)

/-- While RECVB holds (spec/42_host_commands.md R170, R176, D23), by what is pending on its channel: with nothing pending,
or with the host's turn not yet come, the first word of the order that is not a host command happens, the host's commands
before it stay, and with no such word nothing happens; with a message pending and the host scheduled, the command is
performed. The model's choices here: the marker of the hold and that a host that waits is passed over
(notes/assumptions/3.md), the schedule list (4.md), that an illegal word is refused and not passed over (14.md), and that
a step with no event rests (15.md). -/
def Obligations.WaitingHostLetsOtherEventsHappen : Prop :=
  ∀ (s : State) (name : Byte) (k : Nat) (r : Channel),
    BlockInv s → s.outstanding = some name → k ∈ s.chActive → s.ch[k]? = some r → r.name = name →
    (∀ u : State,
      (r.rxPend = [] ∧ u = s ∨
        r.rxPend ≠ [] ∧ ∃ turns, s.hostTurns = false :: turns ∧ u = { s with hostTurns := turns }) →
      (∀ pre w post, s.events = pre ++ w :: post → (∀ x ∈ pre, ∃ i, decode x = .ok i ∧ i.agent = .host) →
        (∀ i, decode w = .ok i → i.agent ≠ .host → step s = exec i { u with events := pre ++ post }) ∧
        (∀ e, decode w = .error e → step s = .refused (.illegalWord e))) ∧
      ((∀ x ∈ s.events, ∃ i, decode x = .ok i ∧ i.agent = .host) → step s = .next u)) ∧
    (r.rxPend ≠ [] → s.hostTurns.head? ≠ some false →
      step s = exec (.recvb name) { s with hostTurns := s.hostTurns.tail })

/-- spec/42_host_commands.md R176 (its derived sentence): while RECVB holds it gives no response, it stays outstanding,
and only a TICK can lift the hold. The marker of the hold is the model's (notes/assumptions/3.md). -/
def Obligations.OnlyTickLiftsTheHold : Prop :=
  ∀ (s t : State) (name : Byte),
    BlockInv s → s.outstanding = some name → recvReady name s = false → step s = .next t →
    t.outstanding = some name ∧ t.responses = s.responses ∧
    (recvReady name t = true → ∃ w rest, takeEnvironment s.events = some (w, rest) ∧ decode w = .ok .tick)

/-- spec/00_scope.md R6 (D16, D18, D21): a configuration is refused exactly when it breaks a legal-value constraint. -/
def Obligations.IllegalConfigurationIsRefused : Prop :=
  ∀ s : State,
    step s = .refused .illegalConfig ↔
      ¬ (1 ≤ s.cfg.txd ∧ 1 ≤ s.cfg.T ∧ s.cfg.S < s.cfg.T ∧ 1 ≤ s.cfg.npins ∧ s.cfg.npins ≤ 256 ∧
        s.cfg.line0.length = s.cfg.npins)

/-! ### Reset and the invariant -/

/-- spec/70_reset_and_hazards.md R250 (D18, D20): what reset leaves, for every configuration, and that TICKs have no
effect. That no command is outstanding is the model's reading (notes/assumptions/3.md). -/
def Obligations.ResetLeavesTheSpecValues : Prop :=
  ∀ cfg : Config,
    (State.resetOf cfg).cfg = cfg ∧ (State.resetOf cfg).initialized = false ∧
    (State.resetOf cfg).chFree = [] ∧ (State.resetOf cfg).chActive = [] ∧
    (State.resetOf cfg).line = cfg.line0 ∧ (State.resetOf cfg).dir = List.replicate cfg.npins .unconfigured ∧
    (State.resetOf cfg).outstanding = none ∧
    ∀ n, tickTimes n (State.resetOf cfg) = .next (State.resetOf cfg)

/-- Reset meets the invariant, for every legal configuration. The configuration of `State.reset`, its line levels and the
fields the spec calls unobservable are the model's choices (notes/assumptions/5.md, 6.md, 7.md). -/
def Obligations.ResetMeetsTheInvariant : Prop :=
  BlockInv State.reset ∧ ∀ cfg : Config, cfg.legal = true → BlockInv (State.resetOf cfg)

/-- Every step keeps the invariant: what spec/10_state.md R24, R27, R30, R31, R32 and R36 and spec/41_tick_dispatcher.md
R140 say holds between events, each marked by the spec as derived. -/
def Obligations.StepKeepsTheInvariant : Prop := ∀ s t : State, BlockInv s → step s = .next t → BlockInv t

/-- spec/60_exceptions.md R225, spec/40_fifo_controller.md R112 (D34): no event reaches a fault. The faults beside
PushOwnedNode and RemoveNonMember are the model's (notes/assumptions/9.md, 10.md). -/
def Obligations.EventsNeverFault : Prop :=
  ∀ s : State, BlockInv s → (∀ i f, exec i s ≠ .fault f) ∧ ∀ f, step s ≠ .fault f

/-- spec/60_exceptions.md R220, spec/20_memory.md R71: every event whose pins are legal completes with a next state,
which meets the invariant and has the same configuration. -/
def Obligations.WellFormedEventsComplete : Prop :=
  ∀ (s : State) (i : Instr), BlockInv s → i.wellFormed s.cfg.npins = true →
    ∃ t, exec i s = .next t ∧ BlockInv t ∧ t.cfg = s.cfg

/-- spec/70_reset_and_hazards.md R251: no event clears `initialized` or removes a channel, and INIT after the first
changes nothing but the responses. -/
def Obligations.NothingReturnsToReset : Prop :=
  ∀ (i : Instr) (s t : State), s.initialized = true → exec i s = .next t →
    t.initialized = true ∧ s.chActive <+: t.chActive ∧
    (i = .init → t = { s with responses := s.responses ++ [0x00000000] })

/-! ### Host commands

The response words and their numbers are the spec's own choice (D3, D22); that they are kept in the list `responses` is
the model's (notes/assumptions/2.md). -/

/-- spec/42_host_commands.md R172 (D14), with everything else unchanged; `responses` is the model's list
(notes/assumptions/2.md). -/
def Obligations.InitFollowsItsRule : Prop :=
  ∀ s : State,
    (s.initialized = false →
      exec .init s = .next { s with
        initialized := true
        chFree := List.range s.cfg.nch
        chActive := []
        ch := s.ch.map fun r => { r with
          txFree := List.range s.cfg.txd, txPend := [], rxFree := List.range s.cfg.rxd, rxPend := [] }
        responses := s.responses ++ [0x00000000] }) ∧
    (s.initialized = true → exec .init s = .next { s with responses := s.responses ++ [0x00000000] })

/-- spec/42_host_commands.md R173 (D12, D13, D26, D33): the refusal of a pin that is not below NPINS, the four rejections in their order,
and the channel that a successful ADD makes, with everything else unchanged. -/
def Obligations.AddFollowsItsRule : Prop :=
  ∀ (s : State) (name txPin rxPin : Byte), BlockInv s →
    (s.cfg.npins ≤ txPin.toNat ∨ s.cfg.npins ≤ rxPin.toNat →
      exec (.add name txPin rxPin) s = .refused .pinOutOfRange) ∧
    (txPin.toNat < s.cfg.npins → rxPin.toNat < s.cfg.npins →
      (s.initialized = false →
        exec (.add name txPin rxPin) s = .next { s with responses := s.responses ++ [0x00000001] }) ∧
      (s.initialized = true → s.chFree = [] →
        exec (.add name txPin rxPin) s = .next { s with responses := s.responses ++ [0x00000005] }) ∧
      (s.initialized = true → s.chFree ≠ [] → (∃ r ∈ s.activeChannels, r.name = name) →
        exec (.add name txPin rxPin) s = .next { s with responses := s.responses ++ [0x00000003] }) ∧
      (s.initialized = true → s.chFree ≠ [] → (∀ r ∈ s.activeChannels, r.name ≠ name) →
        (∃ r ∈ s.activeChannels, r.txPin = txPin) →
        exec (.add name txPin rxPin) s = .next { s with responses := s.responses ++ [0x00000004] }) ∧
      (∀ c free old, s.initialized = true → s.chFree = c :: free → s.ch[c]? = some old →
        (∀ r ∈ s.activeChannels, r.name ≠ name) → (∀ r ∈ s.activeChannels, r.txPin ≠ txPin) →
        exec (.add name txPin rxPin) s = .next { s with
          chFree := free
          chActive := s.chActive ++ [c]
          dir := (s.dir.set txPin.toNat .output).set rxPin.toNat .input
          line := s.line.set txPin.toNat true
          ch := s.ch.set c
            { name := name, txPin := txPin, rxPin := rxPin, txEn := true, rxEn := true
              last := (s.line.set txPin.toNat true).getD rxPin.toNat false
              tx := { pos := .idle, q := 0, scr := Message.zero }
              rx := { pos := .idle, q := 0, scr := Message.zero }
              rxDrop := false
              txFree := (List.range s.cfg.txd).tail, txPend := [0]
              rxFree := List.range s.cfg.rxd, rxPend := []
              txPay := old.txPay.set 0
                { data := 0x00, parity := false, isBlank := true, clearsRx := false, stopViolation := false }
              rxPay := old.rxPay }
          responses := s.responses ++ [0x00000000] }))

/-- spec/42_host_commands.md R174 (D11, D13, D36): the three rejections in their order and the stored message, with
everything else unchanged. -/
def Obligations.SendFollowsItsRule : Prop :=
  ∀ (s : State) (name data : Byte) (c b : Bool), BlockInv s →
    (s.initialized = false →
      exec (.send name data c b) s = .next { s with responses := s.responses ++ [0x00000001] }) ∧
    (s.initialized = true → (∀ r ∈ s.activeChannels, r.name ≠ name) →
      exec (.send name data c b) s = .next { s with responses := s.responses ++ [0x00000002] }) ∧
    (∀ k r, k ∈ s.chActive → s.ch[k]? = some r → r.name = name →
      (r.txFree = [] →
        exec (.send name data c b) s = .next { s with responses := s.responses ++ [0x00000005] }) ∧
      (∀ n free, r.txFree = n :: free →
        exec (.send name data c b) s = .next { s with
          ch := s.ch.set k { r with
            txFree := free
            txPend := r.txPend ++ [n]
            txPay := r.txPay.set n
              { data := data, parity := parity8 data, isBlank := b, clearsRx := c, stopViolation := false } }
          responses := s.responses ++ [0x00000000] }))

/-- spec/42_host_commands.md R179: between events the TX nodes are conserved, and a SEND to an added channel succeeds
if and only if its free pool is not empty. -/
def Obligations.SendSucceedsIffASlotIsFree : Prop :=
  ∀ (s : State) (k : Nat) (r : Channel) (data : Byte) (c b : Bool),
    BlockInv s → k ∈ s.chActive → s.ch[k]? = some r →
    r.txFree.length + r.txPend.length = s.cfg.txd ∧
    ((∃ t, exec (.send r.name data c b) s = .next t ∧ t.responses = s.responses ++ [0x00000000]) ↔ r.txFree ≠ [])

/-- spec/42_host_commands.md R175 (D11, D13, D25): the three rejections, and the dequeue with its code and data byte. -/
def Obligations.RecvFollowsItsRule : Prop :=
  ∀ (s : State) (name : Byte), BlockInv s →
    (s.initialized = false →
      exec (.recv name) s = .next { s with responses := s.responses ++ [0x00000001] }) ∧
    (s.initialized = true → (∀ r ∈ s.activeChannels, r.name ≠ name) →
      exec (.recv name) s = .next { s with responses := s.responses ++ [0x00000002] }) ∧
    (∀ k r, k ∈ s.chActive → s.ch[k]? = some r → r.name = name →
      (r.rxPend = [] →
        exec (.recv name) s = .next { s with responses := s.responses ++ [0x00000006] }) ∧
      (∀ n pend, r.rxPend = n :: pend → ∃ m, r.rxPay[n]? = some m ∧
        exec (.recv name) s = .next { s with
          ch := s.ch.set k { r with rxPend := pend, rxFree := r.rxFree ++ [n] }
          responses := s.responses ++
            [(0#16) ++ m.data ++ (if m.stopViolation = true then 0x08#8
              else if parity8 m.data ≠ m.parity then 0x07#8 else 0x00#8)] }))

/-- spec/42_host_commands.md R176 (D23, D38): RECVB holds, with nothing else changed, exactly where RECV would answer
BufferEmpty; otherwise it is RECV, and is not outstanding any more (the marker is the model's, notes/assumptions/3.md). -/
def Obligations.RecvbFollowsItsRule : Prop :=
  ∀ (s : State) (name : Byte), BlockInv s →
    (s.initialized = false →
      exec (.recvb name) s = .next { s with outstanding := none, responses := s.responses ++ [0x00000001] }) ∧
    (s.initialized = true → (∀ r ∈ s.activeChannels, r.name ≠ name) →
      exec (.recvb name) s = .next { s with outstanding := none, responses := s.responses ++ [0x00000002] }) ∧
    (∀ k r, k ∈ s.chActive → s.ch[k]? = some r → r.name = name →
      (r.rxPend = [] → exec (.recvb name) s = .next { s with outstanding := some name }) ∧
      (∀ n pend, r.rxPend = n :: pend → ∃ m, r.rxPay[n]? = some m ∧
        exec (.recvb name) s = .next { s with
          ch := s.ch.set k { r with rxPend := pend, rxFree := r.rxFree ++ [n] }
          outstanding := none
          responses := s.responses ++
            [(0#16) ++ m.data ++ (if m.stopViolation = true then 0x08#8
              else if parity8 m.data ≠ m.parity then 0x07#8 else 0x00#8)] }))

/-- spec/42_host_commands.md R177 (D11, D15): in every state, before INIT too, with everything else unchanged. -/
def Obligations.ClrtxFollowsItsRule : Prop :=
  ∀ (s : State) (name : Byte), BlockInv s →
    ((∀ r ∈ s.activeChannels, r.name ≠ name) →
      exec (.clrtx name) s = .next { s with responses := s.responses ++ [0x00000002] }) ∧
    (∀ k r, k ∈ s.chActive → s.ch[k]? = some r → r.name = name →
      exec (.clrtx name) s = .next { s with
        ch := s.ch.set k { r with txPend := [], txFree := r.txFree ++ r.txPend }
        responses := s.responses ++ [0x00000000] })

/-- spec/42_host_commands.md R178 (D11, D15): in every state, before INIT too, with everything else unchanged. -/
def Obligations.ClrrxFollowsItsRule : Prop :=
  ∀ (s : State) (name : Byte), BlockInv s →
    ((∀ r ∈ s.activeChannels, r.name ≠ name) →
      exec (.clrrx name) s = .next { s with responses := s.responses ++ [0x00000002] }) ∧
    (∀ k r, k ∈ s.chActive → s.ch[k]? = some r → r.name = name →
      exec (.clrrx name) s = .next { s with
        ch := s.ch.set k { r with rxPend := [], rxFree := r.rxFree ++ r.rxPend, rxDrop := true }
        responses := s.responses ++ [0x00000000] })

/-- spec/70_reset_and_hazards.md R254 (D15, D20): what each event does before INIT. -/
def Obligations.BeforeInitOnlyLineActs : Prop :=
  ∀ (s : State) (name data txPin rxPin pin : Byte) (c b v : Bool), BlockInv s → s.initialized = false →
    txPin.toNat < s.cfg.npins → rxPin.toNat < s.cfg.npins → pin.toNat < s.cfg.npins →
    exec (.add name txPin rxPin) s = .next { s with responses := s.responses ++ [0x00000001] } ∧
    exec (.send name data c b) s = .next { s with responses := s.responses ++ [0x00000001] } ∧
    exec (.recv name) s = .next { s with responses := s.responses ++ [0x00000001] } ∧
    exec (.recvb name) s = .next { s with outstanding := none, responses := s.responses ++ [0x00000001] } ∧
    exec (.clrtx name) s = .next { s with responses := s.responses ++ [0x00000002] } ∧
    exec (.clrrx name) s = .next { s with responses := s.responses ++ [0x00000002] } ∧
    exec .tick s = .next s ∧
    exec (.line pin v) s = .next { s with line := s.line.set pin.toNat v }

/-- spec/30_encoding.md R87 (D3, D22): a host command that completes returns exactly one response word of that layout, with data
only for RECV and RECVB and the codes that deliver a message; a RECVB that holds, TICK and LINE return none. -/
def Obligations.HostCommandsReturnOneResponse : Prop :=
  ∀ (i : Instr) (s t : State), exec i s = .next t →
    (i.agent ≠ .host → t.responses = s.responses) ∧
    (i.agent = .host →
      (∃ name, i = .recvb name ∧ t = { s with outstanding := some name }) ∨
      (∃ (code : ResultCode) (data : Byte) (w : Word), t.responses = s.responses ++ [w] ∧
        w.extractLsb' 0 4 = code.bits ∧ w.extractLsb' 4 4 = 0#4 ∧ w.extractLsb' 8 8 = data ∧
        w.extractLsb' 16 16 = 0#16 ∧
        (data ≠ 0 → (∃ name, i = .recv name ∨ i = .recvb name) ∧
          (code = .ok ∨ code = .parityError ∨ code = .stopViolation))))

/-- spec/42_host_commands.md R170 (D13), spec/60_exceptions.md R223: a command that answers a code other than Ok,
ParityError and StopViolation has changed nothing but the responses (and, for RECVB, that it is outstanding). -/
def Obligations.FailedCommandsChangeNothing : Prop :=
  ∀ (i : Instr) (s t : State) (code : ResultCode), exec i s = .next t →
    t.responses = s.responses ++ [responseWord code 0] →
    code ≠ .ok → code ≠ .parityError → code ≠ .stopViolation →
    t = { s with responses := t.responses, outstanding := t.outstanding } ∧
    ((∀ name, i ≠ .recvb name) → t.outstanding = s.outstanding)

/-! ### Lines and pools -/

/-- spec/43_line_environment.md R211 (D37): LINE sets its line and nothing else, before INIT too; a pin that is not below
NPINS is refused. -/
def Obligations.LineFollowsItsRule : Prop :=
  ∀ (s : State) (pin : Byte) (v : Bool), BlockInv s →
    (pin.toNat < s.cfg.npins → exec (.line pin v) s = .next { s with line := s.line.set pin.toNat v }) ∧
    (s.cfg.npins ≤ pin.toNat → exec (.line pin v) s = .refused .pinOutOfRange)

/-- spec/43_line_environment.md R210 (D17): a line changes only by LINE on it, by ADD of a channel that transmits on it, or by
the TX pass of the channel that does. -/
def Obligations.LineWritersAreKnown : Prop :=
  ∀ (i : Instr) (s t : State) (p : Nat), BlockInv s → exec i s = .next t → t.line[p]? ≠ s.line[p]? →
    (∃ pin v, i = .line pin v ∧ pin.toNat = p) ∨
    (∃ name txPin rxPin, i = .add name txPin rxPin ∧ txPin.toNat = p) ∨
    (i = .tick ∧ ∃ r ∈ s.activeChannels, r.txPin.toNat = p)

/-- spec/20_memory.md R74 (marked derived): once INIT has linked the pools, each pool is changed only by its owners. -/
def Obligations.PoolsChangeOnlyByTheirOwners : Prop :=
  ∀ (i : Instr) (s t : State), BlockInv s → s.initialized = true → exec i s = .next t →
    (t.chFree ≠ s.chFree ∨ t.chActive ≠ s.chActive → i.op = .add) ∧
    (∀ (c : Nat) (r r' : Channel), s.ch[c]? = some r → t.ch[c]? = some r' →
      (r'.txFree ≠ r.txFree ∨ r'.txPend ≠ r.txPend →
        i.op = .send ∨ i.op = .add ∨ i.op = .clrtx ∨ i.op = .tick) ∧
      (r'.rxFree ≠ r.rxFree ∨ r'.rxPend ≠ r.rxPend →
        i.op = .recv ∨ i.op = .recvb ∨ i.op = .clrrx ∨ i.op = .tick))

/-- spec/40_fifo_controller.md R121 (marked derived): messages leave a pending pool in the order they entered it. Whatever the event, a
queue of an added channel loses messages at its head only and gains at most one at its tail. -/
def Obligations.QueuesAreFirstInFirstOut : Prop :=
  ∀ (i : Instr) (s t : State) (c : Nat) (r : Channel), BlockInv s → exec i s = .next t → c ∈ s.chActive →
    s.ch[c]? = some r →
    ∃ r', t.ch[c]? = some r' ∧
      (∃ k new, new.length ≤ 1 ∧ r'.txQueue = r.txQueue.drop k ++ new) ∧
      (∃ k new, new.length ≤ 1 ∧ r'.rxQueue = r.rxQueue.drop k ++ new)

/-- The abstract effects of spec/40_fifo_controller.md R111 to R118 (faults: D34), on the sequences the events use. -/
def Obligations.PoolPrimitivesFollowTheirRules : Prop :=
  (∀ cap, poolInit cap = List.range cap) ∧
  (∀ owned pool n, n ∉ owned →
    pushBack owned pool n = .ok (pool ++ [n]) ∧ pushFront owned pool n = .ok ([n] ++ pool)) ∧
  (∀ owned pool n, n ∈ owned →
    pushBack owned pool n = .error .pushOwnedNode ∧ pushFront owned pool n = .error .pushOwnedNode) ∧
  (∀ n rest, popFront ([n] ++ rest) = some (n, rest) ∧ popBack (rest ++ [n]) = some (n, rest)) ∧
  (popFront [] = none ∧ popBack [] = none) ∧
  (∀ a b n, n ∉ a →
    removeUnchecked (a ++ [n] ++ b) n = .ok (a ++ b) ∧ removeChecked (a ++ [n] ++ b) n = some (a ++ b)) ∧
  (∀ pool n, n ∉ pool → removeUnchecked pool n = .error .removeNonMember ∧ removeChecked pool n = none) ∧
  (∀ src dst, mergeAll src dst = ([], dst ++ src))

/-! ### TICK and the bit-machines -/

/-- spec/41_tick_dispatcher.md R130 (D4, D5, D20): before INIT, and with no channel, a TICK changes nothing; after it, every active
channel's record is what its TX pass makes of what its RX pass (reading the lines of the start) makes of it; a TX pin
has the level its channel drives, or keeps its level; every other line, record and field is unchanged. -/
def Obligations.TickFollowsItsRule : Prop :=
  ∀ s : State, BlockInv s →
    (s.initialized = false → exec .tick s = .next s) ∧
    (s.chActive = [] → exec .tick s = .next s) ∧
    (s.initialized = true →
      ∃ t, exec .tick s = .next t ∧ t = { s with ch := t.ch, line := t.line } ∧
        (∀ c ∈ s.chActive, ∃ r r1 r2 drive, s.ch[c]? = some r ∧ rxStep s.cfg s.line r = .ok r1 ∧
          txStep s.cfg r1 = .ok (r2, drive) ∧ t.ch[c]? = some r2 ∧
          t.level r.txPin = drive.or (s.level r.txPin)) ∧
        (∀ c, c ∉ s.chActive → t.ch[c]? = s.ch[c]?) ∧
        (∀ p : Nat, (∀ r ∈ s.activeChannels, r.txPin.toNat ≠ p) → t.line[p]? = s.line[p]?))

/-- spec/10_state.md R36 (the spec's decision D19): a channel whose enable bit is 0 is not processed in that pass. -/
def Obligations.DisabledDirectionsAreSkipped : Prop :=
  ∀ (s : State) (c : Nat) (r : Channel), s.ch[c]? = some r →
    (r.rxEn = false → rxAt s c = .ok s) ∧ (r.txEn = false → txAt s c = .ok s)

/-- spec/41_tick_dispatcher.md R131 (marked derived): the order in which the active channels are visited is not
observable. -/
def Obligations.ChannelOrderIsUnobservable : Prop :=
  ∀ (s : State) (order : List Nat), BlockInv s → order.Perm s.chActive → tickOver order s = tickOver s.chActive s

/-- spec/41_tick_dispatcher.md R132: the counter advance, and that a state that is not Idle lasts exactly T ticks: the
tick of entry, with q = 0, and T - 1 more. -/
def Obligations.AdvanceHoldsAStateForTTicks : Prop :=
  ∀ (T : Nat) (m : BitMachine), 1 ≤ T →
    (m.q + 1 = T → advance T m = ({ m with q := 0, pos := m.pos.succ }, true)) ∧
    (m.q + 1 ≠ T → advance T m = ({ m with q := m.q + 1 }, false)) ∧
    (m.q = 0 → (∀ j < T, advanceTimes T j m = { m with q := j }) ∧
      advanceTimes T T m = { m with q := 0, pos := m.pos.succ })

/-- spec/41_tick_dispatcher.md R134 (D9, D24): the RX machine leaves Idle only on a falling edge, and what it clears then. -/
def Obligations.RxLeavesIdleOnlyOnAFallingEdge : Prop :=
  ∀ (cfg : Config) (r : Channel) (v : Bool), r.rx.pos = .idle →
    (r.last = true → v = false →
      rxStepWith cfg r v = .ok { r with
        rx := { pos := .start, q := 0
                scr := { r.rx.scr with isBlank := false, clearsRx := false, stopViolation := false } }
        rxDrop := false
        last := v }) ∧
    (r.last = false ∨ v = true → rxStepWith cfg r v = .ok { r with last := v })

/-- spec/41_tick_dispatcher.md R141 (D7): every RX pass ends with `last <- v`. -/
def Obligations.LastSampleIsRecorded : Prop :=
  ∀ (cfg : Config) (r r' : Channel) (levels : List Bool), rxStep cfg levels r = .ok r' →
    levels[r.rxPin.toNat]? = some r'.last

/-- spec/41_tick_dispatcher.md R133, R135, R136: a tick of a busy RX machine that does not end the frame. Off the sample
instant nothing but the advance happens; at it the level is used once. A Start sample that is not 0 returns the machine
to Idle; that `q` is 0 then, and that the test comes after the advance, are the spec's own decisions (D9, D6). -/
def Obligations.RxSampleUsesTheLevel : Prop :=
  ∀ (cfg : Config) (r : Channel) (v : Bool) (m : BitMachine),
    r.rx.pos ≠ .idle → (advance cfg.T r.rx).1 = m → m.pos ≠ .idle →
    (m.q ≠ cfg.S → rxStepWith cfg r v = .ok { r with rx := m, last := v }) ∧
    (m.q = cfg.S →
      (m.pos = .start → v = true →
        rxStepWith cfg r v = .ok { r with rx := { m with pos := .idle, q := 0 }, last := v }) ∧
      (m.pos = .start → v = false → rxStepWith cfg r v = .ok { r with rx := m, last := v }) ∧
      (m.pos ≠ .start → rxStepWith cfg r v = .ok { r with rx := rxSample m v, last := v }))

/-- spec/41_tick_dispatcher.md R137, R138, R139: what a Data, a Parity and a Stop sample do to the machine. -/
def Obligations.RxBitSamplesAreRecorded : Prop :=
  ∀ (m : BitMachine) (v : Bool),
    (∀ k, m.pos = .data k → ∃ d : Byte,
      d.getLsbD k.val = v ∧ (∀ j : Nat, j ≠ k.val → d.getLsbD j = m.scr.data.getLsbD j) ∧
      rxSample m v = { m with scr := { m.scr with data := d } }) ∧
    (m.pos = .parity → rxSample m v = { m with scr := { m.scr with parity := v } }) ∧
    (m.pos = .stop → v = false → rxSample m v = { m with scr := { m.scr with stopViolation := true } }) ∧
    (m.pos = .stop → v = true → rxSample m v = m)

/-- spec/41_tick_dispatcher.md R150: of the T levels read in one bit period, exactly the one at tick S of the period is
used (R135, D6); the others update `last` only. First the Start period, which begins at the detected edge, where the
scratch flags and the drop mark are cleared and the data kept (R134, D24, D9), with a Start sample of 0; then the Start
period that a sample of 1 ends at tick S, back in Idle with q = 0 (R136, D9); then every later period. -/
def Obligations.RxSamplesOncePerPeriod : Prop :=
  ∀ (cfg : Config) (r : Channel) (vs : List Bool), cfg.S < cfg.T → vs.length = cfg.T →
    (r.rx.pos = .idle → r.last = true → vs[0]? = some false → vs[cfg.S]? = some false →
      rxRun cfg vs r = .ok { r with
        rx := { pos := .start, q := cfg.T - 1
                scr := { r.rx.scr with isBlank := false, clearsRx := false, stopViolation := false } }
        rxDrop := false
        last := vs.getLastD false }) ∧
    (r.rx.pos = .idle → r.last = true → vs[0]? = some false → vs[cfg.S]? = some true →
      rxRun cfg (vs.take (cfg.S + 1)) r = .ok { r with
        rx := { pos := .idle, q := 0
                scr := { r.rx.scr with isBlank := false, clearsRx := false, stopViolation := false } }
        rxDrop := false
        last := true }) ∧
    (∀ v, r.rx.pos ≠ .idle → r.rx.pos.succ ≠ .idle → r.rx.q + 1 = cfg.T → vs[cfg.S]? = some v →
      rxRun cfg vs r = .ok { r with
        rx := { pos := r.rx.pos.succ, q := cfg.T - 1
                scr := (rxSample { pos := r.rx.pos.succ, q := cfg.S, scr := r.rx.scr } v).scr }
        last := vs.getLastD false })

/-- spec/41_tick_dispatcher.md R140 (D8, D11): the tick that ends Stop. The machine is Idle with q = 0 and takes no sample; the
message is queued, lost for want of a free slot, or dropped by the mark. -/
def Obligations.RxCompletesWhenStopEnds : Prop :=
  ∀ (cfg : Config) (r : Channel) (v : Bool),
    ArenaSizes cfg r → PoolPartition cfg r → r.rx.pos = .stop → r.rx.q + 1 = cfg.T →
    (∀ n free, r.rxDrop = false → r.rxFree = n :: free →
      rxStepWith cfg r v = .ok { r with
        rx := { pos := .idle, q := 0, scr := r.rx.scr }
        rxFree := free, rxPend := r.rxPend ++ [n], rxPay := r.rxPay.set n r.rx.scr
        last := v }) ∧
    (r.rxDrop = false → r.rxFree = [] →
      rxStepWith cfg r v = .ok { r with rx := { pos := .idle, q := 0, scr := r.rx.scr }, last := v }) ∧
    (r.rxDrop = true →
      rxStepWith cfg r v = .ok { r with
        rx := { pos := .idle, q := 0, scr := r.rx.scr }
        rxFree := r.rxFree ++ r.rxPend, rxPend := []
        last := v })

/-- spec/41_tick_dispatcher.md R135 to R140, R151: an idle receiver that sees a falling edge, and 0 at its Start sample,
assembles the frame the line carries: whatever the levels are, it takes bit f of the frame from tick f*T + S after the
edge, completes at tick 11*T, and queues the message if a slot is free. -/
def Obligations.RxAssemblesAnyFrame : Prop :=
  ∀ (cfg : Config) (r : Channel) (vs : List Bool),
    cfg.S < cfg.T → ArenaSizes cfg r → PoolPartition cfg r → r.rx.pos = .idle → r.last = true →
    vs.length = 11 * cfg.T + 1 → vs[0]? = some false → vs[cfg.S]? = some false →
    ∃ m : Message,
      (∀ k < 8, vs[(k + 1) * cfg.T + cfg.S]? = some (m.data.getLsbD k)) ∧
      vs[9 * cfg.T + cfg.S]? = some m.parity ∧
      vs[10 * cfg.T + cfg.S]? = some (!m.stopViolation) ∧
      m.isBlank = false ∧ m.clearsRx = false ∧
      (∀ n free, r.rxFree = n :: free →
        rxRun cfg vs r = .ok { r with
          rx := { pos := .idle, q := 0, scr := m }, rxDrop := false, last := vs.getLastD false
          rxFree := free, rxPend := r.rxPend ++ [n], rxPay := r.rxPay.set n m }) ∧
      (r.rxFree = [] →
        rxRun cfg vs r = .ok { r with
          rx := { pos := .idle, q := 0, scr := m }, rxDrop := false, last := vs.getLastD false })

/-- spec/70_reset_and_hazards.md R260, spec/41_tick_dispatcher.md R152: with S > 0 a low pulse of fewer than S + 1 ticks
is rejected at the Start sample, and no queue changes. -/
def Obligations.RxRejectsAShortPulse : Prop :=
  ∀ (cfg : Config) (r : Channel) (w : Nat),
    cfg.S < cfg.T → r.rx.pos = .idle → r.last = true → 1 ≤ w → w ≤ cfg.S →
    rxRun cfg (List.replicate w false ++ List.replicate (cfg.S + 1 - w) true) r = .ok { r with
      rx := { pos := .idle, q := 0
              scr := { r.rx.scr with isBlank := false, clearsRx := false, stopViolation := false } }
      rxDrop := false
      last := true }

/-- spec/41_tick_dispatcher.md R143, R144, R148: an idle TX machine drives 1 while nothing is queued; else it takes the
head message, gives its slot back, enters Start, drives 0 unless the message is blank, and flushes the receive side if
the message clears it. -/
def Obligations.TxIdleStartsOrDrivesHigh : Prop :=
  ∀ (cfg : Config) (r : Channel), ArenaSizes cfg r → PoolPartition cfg r → r.tx.pos = .idle →
    (r.txPend = [] → txStep cfg r = .ok (r, some true)) ∧
    (∀ n pend, r.txPend = n :: pend → ∃ m, r.txPay[n]? = some m ∧
      (m.clearsRx = false →
        txStep cfg r = .ok ({ r with
          txPend := pend, txFree := r.txFree ++ [n], tx := { pos := .start, q := 0, scr := m } },
          if m.isBlank = true then none else some false)) ∧
      (m.clearsRx = true →
        txStep cfg r = .ok ({ r with
          txPend := pend, txFree := r.txFree ++ [n], tx := { pos := .start, q := 0, scr := m }
          rxDrop := true, rxFree := r.rxFree ++ r.rxPend, rxPend := [] },
          if m.isBlank = true then none else some false)))

/-- spec/41_tick_dispatcher.md R145, R146: a busy TX machine writes its pin only on entry to a state, never for a blank
message (R147), and writes nothing when it returns to Idle. -/
def Obligations.TxWritesOnlyOnEntry : Prop :=
  ∀ (cfg : Config) (r : Channel), r.tx.pos ≠ .idle →
    (r.tx.q + 1 ≠ cfg.T → txStep cfg r = .ok ({ r with tx := { r.tx with q := r.tx.q + 1 } }, none)) ∧
    (r.tx.q + 1 = cfg.T →
      (r.tx.pos = .stop → txStep cfg r = .ok ({ r with tx := { r.tx with q := 0, pos := .idle } }, none)) ∧
      (r.tx.scr.isBlank = true →
        txStep cfg r = .ok ({ r with tx := { r.tx with q := 0, pos := r.tx.pos.succ } }, none)) ∧
      (r.tx.scr.isBlank = false →
        (∀ k, r.tx.pos.succ = .data k →
          txStep cfg r = .ok ({ r with tx := { r.tx with q := 0, pos := .data k } },
            some (r.tx.scr.data.getLsbD k.val))) ∧
        (r.tx.pos.succ = .parity →
          txStep cfg r = .ok ({ r with tx := { r.tx with q := 0, pos := .parity } }, some r.tx.scr.parity)) ∧
        (r.tx.pos.succ = .stop →
          txStep cfg r = .ok ({ r with tx := { r.tx with q := 0, pos := .stop } }, some true))))

/-- spec/41_tick_dispatcher.md R149: the TX machine does not use S; its level for a bit period is fixed at entry. -/
def Obligations.TxIgnoresTheSampleTick : Prop :=
  ∀ (cfg : Config) (offset : Nat) (r : Channel), txStep { cfg with S := offset } r = txStep cfg r

/-- spec/41_tick_dispatcher.md R151, R267: if a channel's TX pass pops a message at a TICK, its pin holds frame bit f
after the TX passes of ticks f*T to (f+1)*T - 1 counted from it, for f = 0..10, and TX is Idle at tick 11*T, with the
stop level still on the pin. -/
def Obligations.TxFrameHoldsEachBitForTTicks : Prop :=
  ∀ (s : State) (c n : Nat) (r : Channel) (pend : List Nat) (m : Message),
    BlockInv s → c ∈ s.chActive → s.ch[c]? = some r → r.tx.pos = .idle → r.txPend = n :: pend →
    r.txPay[n]? = some m → m.isBlank = false →
    (∀ j < 11 * s.cfg.T, ∃ t p, tickTimes (j + 1) s = .next t ∧ framePos (j / s.cfg.T) = some p ∧
      t.level r.txPin = some (frameLevel m p)) ∧
    (∃ t r', tickTimes (11 * s.cfg.T + 1) s = .next t ∧ t.ch[c]? = some r' ∧ r'.tx.pos = .idle ∧
      t.level r.txPin = some true)

/-- spec/41_tick_dispatcher.md R147: a blank message occupies the time of one whole frame and writes its pin on no tick. -/
def Obligations.BlankFrameWritesNothing : Prop :=
  ∀ (s : State) (c n : Nat) (r : Channel) (pend : List Nat) (m : Message),
    BlockInv s → c ∈ s.chActive → s.ch[c]? = some r → r.tx.pos = .idle → r.txPend = n :: pend →
    r.txPay[n]? = some m → m.isBlank = true →
    ∀ j ≤ 11 * s.cfg.T, ∃ t r', tickTimes (j + 1) s = .next t ∧ t.ch[c]? = some r' ∧
      t.level r.txPin = s.level r.txPin ∧ (r'.tx.pos = .idle ↔ j = 11 * s.cfg.T)

/-- spec/42_host_commands.md R181, spec/41_tick_dispatcher.md R151: a byte sent on an idle channel X with an empty queue
is received by an idle channel Y of the block that listens on X's pin (Y may be X), with no LINE event meanwhile: it is
in Y's queue after 11*T + 2 TICKs, and if nothing was queued before it RECV returns Ok with the byte. -/
def Obligations.SentByteIsReceived : Prop :=
  ∀ (s : State) (cx cy : Nat) (x y : Channel) (data : Byte),
    BlockInv s → cx ∈ s.chActive → s.ch[cx]? = some x → cy ∈ s.chActive → s.ch[cy]? = some y →
    x.tx.pos = .idle → x.txPend = [] → y.rxPin = x.txPin → s.level x.txPin = some true →
    y.rx.pos = .idle → y.rxFree ≠ [] → (∀ m ∈ y.txQueue, m.clearsRx = false) →
    ∃ s1 t y', exec (.send x.name data false false) s = .next s1 ∧
      s1.responses = s.responses ++ [0x00000000] ∧
      tickTimes (11 * s.cfg.T + 2) s1 = .next t ∧ t.ch[cy]? = some y' ∧
      y'.rxQueue = y.rxQueue ++
        [{ data := data, parity := parity8 data, isBlank := false, clearsRx := false, stopViolation := false }] ∧
      (y.rxQueue = [] →
        ∃ t', exec (.recv y.name) t = .next t' ∧ t'.responses = t.responses ++ [(0#16) ++ data ++ (0x00#8)])

/-! ### Parity and classification -/

/-- spec/30_encoding.md R83: parity8 is the low bit of the number of set bits, so data and parity together have an even
number of ones. -/
def Obligations.ParityIsTheLowBitOfTheCount : Prop :=
  ∀ b : Byte, (parity8 b).toNat = ((List.range 8).countP fun k => b.getLsbD k) % 2

/-- spec/42_host_commands.md R175: of the nine bits Data0..Data7 and Parity, an odd number of corrupted ones gives
ParityError, an even number Ok. -/
def Obligations.ParityCatchesOddCorruption : Prop :=
  ∀ (sent : Byte) (m : Message), m.stopViolation = false →
    (classify m = .parityError ↔
      ((List.range 8).countP (fun k => sent.getLsbD k != m.data.getLsbD k) +
        (if m.parity = parity8 sent then 0 else 1)) % 2 = 1) ∧
    (classify m = .ok ↔
      ((List.range 8).countP (fun k => sent.getLsbD k != m.data.getLsbD k) +
        (if m.parity = parity8 sent then 0 else 1)) % 2 = 0)

/-- spec/60_exceptions.md R227 (D25): how a dequeued message is classified. -/
def Obligations.StopViolationWinsOverParityError : Prop :=
  ∀ m : Message,
    (m.stopViolation = true → classify m = .stopViolation) ∧
    (m.stopViolation = false → parity8 m.data ≠ m.parity → classify m = .parityError) ∧
    (m.stopViolation = false → parity8 m.data = m.parity → classify m = .ok)

/-! ### What the host cannot observe -/

/-- spec/10_state.md R34, R37: which slot a channel has, which node and payload slot holds a message, and what unused
slots hold is never observable. Two states that meet the invariant and agree on queue contents, machines, lines and the
host port answer every event alike and go on agreeing. -/
def Obligations.SlotsAndNodesAreUnobservable : Prop :=
  ∀ (i : Instr) (s s' t : State), BlockInv s → BlockInv s' → s.view = s'.view → exec i s = .next t →
    ∃ t', exec i s' = .next t' ∧ t.view = t'.view

/-! ### The linked form of pools -/

/-- spec/40_fifo_controller.md R110, R111: PoolInit links the whole arena into one pool, in ascending order (D11), and seq
reads a represented pool back. -/
def Obligations.LinkedPoolIsReadBack : Prop :=
  (∀ cap, Represents (linkedInit cap).1 (linkedInit cap).2 (List.range cap)) ∧
  (∀ l head xs, Represents l head xs → l.seq head = xs)

/-- spec/40_fifo_controller.md R112, R113: on links, PushBack and PushFront of an unowned node put it at the tail and at
the head, and any other pool of the arena stays; a node of this pool or of any other pool of the arena faults (D34). -/
def Obligations.LinkedPushRefinesSequencePush : Prop :=
  ∀ (l : Links) (head : Option Nat) (xs : List Nat) (n : Nat), Represents l head xs →
    (Unowned l n →
      (∃ l', linkedPushBack l head n = .ok (l', (xs ++ [n]).head?) ∧ Represents l' (xs ++ [n]).head? (xs ++ [n]) ∧
        ∀ other ys, Represents l other ys → (∀ y ∈ ys, y ∉ xs) → Represents l' other ys) ∧
      (∃ l', linkedPushFront l head n = .ok (l', some n) ∧ Represents l' (some n) (n :: xs) ∧
        ∀ other ys, Represents l other ys → (∀ y ∈ ys, y ∉ xs) → Represents l' other ys)) ∧
    (∀ owner ys, Represents l owner ys → n ∈ ys →
      linkedPushBack l head n = .error .pushOwnedNode ∧ linkedPushFront l head n = .error .pushOwnedNode)

/-- spec/40_fifo_controller.md R114, R115: on links, the pops take the head and the tail, leave the node unowned, answer
EMPTY on the empty pool, and any other pool of the arena stays. -/
def Obligations.LinkedPopRefinesSequencePop : Prop :=
  ∀ (l : Links),
    (linkedPopFront l none = .ok (none, l, none) ∧ linkedPopBack l none = .ok (none, l, none)) ∧
    (∀ head n rest, Represents l head (n :: rest) →
      ∃ l', linkedPopFront l head = .ok (some n, l', rest.head?) ∧ Represents l' rest.head? rest ∧ Unowned l' n ∧
        ∀ other ys, Represents l other ys → (∀ y ∈ ys, y ∉ n :: rest) → Represents l' other ys) ∧
    (∀ head n rest, Represents l head (rest ++ [n]) →
      ∃ l', linkedPopBack l head = .ok (some n, l', rest.head?) ∧ Represents l' rest.head? rest ∧ Unowned l' n ∧
        ∀ other ys, Represents l other ys → (∀ y ∈ ys, y ∉ rest ++ [n]) → Represents l' other ys)

/-- spec/40_fifo_controller.md R116, R117: on links, removing a member deletes it, keeps the others' order, leaves it
unowned, and any other pool of the arena stays; a non-member faults unchecked (D34: the source leaves it undefined) and is
reported checked. -/
def Obligations.LinkedRemoveRefinesSequenceRemove : Prop :=
  ∀ (l : Links) (head : Option Nat),
    (∀ a n b, Represents l head (a ++ n :: b) →
      ∃ l', linkedRemoveUnchecked l head n = .ok (l', (a ++ b).head?) ∧
        linkedRemoveChecked l head n = .ok (some (l', (a ++ b).head?)) ∧
        Represents l' (a ++ b).head? (a ++ b) ∧ Unowned l' n ∧
        ∀ other ys, Represents l other ys → (∀ y ∈ ys, y ∉ a ++ n :: b) → Represents l' other ys) ∧
    (∀ xs n, Represents l head xs → n ∉ xs →
      linkedRemoveUnchecked l head n = .error .removeNonMember ∧ linkedRemoveChecked l head n = .ok none)

/-- spec/40_fifo_controller.md R118: on links, MergeAll puts every node of `from` at the tail of `to`. -/
def Obligations.LinkedMergeRefinesSequenceMerge : Prop :=
  ∀ (l : Links) (src dst : Option Nat) (xs ys : List Nat),
    Represents l src xs → Represents l dst ys → (∀ x ∈ xs, x ∉ ys) →
    ∃ l', linkedMergeAll l src dst = .ok (l', none, (ys ++ xs).head?) ∧
      Represents l' (ys ++ xs).head? (ys ++ xs) ∧
      ∀ other zs, Represents l other zs → (∀ z ∈ zs, z ∉ xs ∧ z ∉ ys) → Represents l' other zs
end

