-- ==== Sys2Proof/Laws/State.lean ====
section
/-! SUPPORT. One lemma per field per update of State, so that no later proof unfolds a record update, and the simp
lemmas of the outcome and of `Except`. -/

namespace Sys2Proof.Machine

/-! ### Except and outcomes -/

@[simp] theorem ok_bind {α β : Type} (a : α) (f : α → Except Fault β) : ((Except.ok a : Except Fault α) >>= f) = f a :=
  rfl

@[simp] theorem error_bind {α β : Type} (e : Fault) (f : α → Except Fault β) :
    ((Except.error e : Except Fault α) >>= f) = Except.error e := rfl

@[simp] theorem pure_eq_ok {α : Type} (a : α) : (pure a : Except Fault α) = .ok a := rfl

@[simp] theorem map_ok {α β : Type} (f : α → β) (a : α) : (Except.ok a : Except Fault α).map f = .ok (f a) := rfl

@[simp] theorem map_error {α β : Type} (f : α → β) (e : Fault) :
    (Except.error e : Except Fault α).map f = .error e := rfl

@[simp] theorem finish_ok (s : State) : finish (.ok s) = .next s := rfl

@[simp] theorem finish_error (f : Fault) : finish (.error f) = .fault f := rfl

theorem finish_eq_next {x : Except Fault State} {t : State} : finish x = .next t ↔ x = .ok t := by
  cases x <;> simp [finish]

/-! ### `State.setSlot` -/

@[simp] theorem setSlot_cfg (s : State) (c : Nat) (r : Channel) : (s.setSlot c r).cfg = s.cfg := rfl
@[simp] theorem setSlot_initialized (s : State) (c : Nat) (r : Channel) :
    (s.setSlot c r).initialized = s.initialized := rfl
@[simp] theorem setSlot_chFree (s : State) (c : Nat) (r : Channel) : (s.setSlot c r).chFree = s.chFree := rfl
@[simp] theorem setSlot_chActive (s : State) (c : Nat) (r : Channel) : (s.setSlot c r).chActive = s.chActive := rfl
@[simp] theorem setSlot_ch (s : State) (c : Nat) (r : Channel) : (s.setSlot c r).ch = s.ch.set c r := rfl
@[simp] theorem setSlot_line (s : State) (c : Nat) (r : Channel) : (s.setSlot c r).line = s.line := rfl
@[simp] theorem setSlot_dir (s : State) (c : Nat) (r : Channel) : (s.setSlot c r).dir = s.dir := rfl
@[simp] theorem setSlot_outstanding (s : State) (c : Nat) (r : Channel) :
    (s.setSlot c r).outstanding = s.outstanding := rfl
@[simp] theorem setSlot_events (s : State) (c : Nat) (r : Channel) : (s.setSlot c r).events = s.events := rfl
@[simp] theorem setSlot_hostTurns (s : State) (c : Nat) (r : Channel) :
    (s.setSlot c r).hostTurns = s.hostTurns := rfl
@[simp] theorem setSlot_responses (s : State) (c : Nat) (r : Channel) :
    (s.setSlot c r).responses = s.responses := rfl

/-! ### `State.respond` -/

@[simp] theorem respond_cfg (s : State) (k : ResultCode) (d : Byte) : (s.respond k d).cfg = s.cfg := rfl
@[simp] theorem respond_initialized (s : State) (k : ResultCode) (d : Byte) :
    (s.respond k d).initialized = s.initialized := rfl
@[simp] theorem respond_chFree (s : State) (k : ResultCode) (d : Byte) : (s.respond k d).chFree = s.chFree := rfl
@[simp] theorem respond_chActive (s : State) (k : ResultCode) (d : Byte) :
    (s.respond k d).chActive = s.chActive := rfl
@[simp] theorem respond_ch (s : State) (k : ResultCode) (d : Byte) : (s.respond k d).ch = s.ch := rfl
@[simp] theorem respond_line (s : State) (k : ResultCode) (d : Byte) : (s.respond k d).line = s.line := rfl
@[simp] theorem respond_dir (s : State) (k : ResultCode) (d : Byte) : (s.respond k d).dir = s.dir := rfl
@[simp] theorem respond_outstanding (s : State) (k : ResultCode) (d : Byte) :
    (s.respond k d).outstanding = s.outstanding := rfl
@[simp] theorem respond_events (s : State) (k : ResultCode) (d : Byte) : (s.respond k d).events = s.events := rfl
@[simp] theorem respond_hostTurns (s : State) (k : ResultCode) (d : Byte) :
    (s.respond k d).hostTurns = s.hostTurns := rfl
@[simp] theorem respond_responses (s : State) (k : ResultCode) (d : Byte) :
    (s.respond k d).responses = s.responses ++ [responseWord k d] := rfl

/-! ### `State.initAll` -/

@[simp] theorem initAll_cfg (s : State) : s.initAll.cfg = s.cfg := rfl
@[simp] theorem initAll_initialized (s : State) : s.initAll.initialized = true := rfl
@[simp] theorem initAll_chFree (s : State) : s.initAll.chFree = List.range s.cfg.nch := rfl
@[simp] theorem initAll_chActive (s : State) : s.initAll.chActive = [] := rfl
@[simp] theorem initAll_ch (s : State) : s.initAll.ch = s.ch.map (Channel.initPools s.cfg) := rfl
@[simp] theorem initAll_line (s : State) : s.initAll.line = s.line := rfl
@[simp] theorem initAll_dir (s : State) : s.initAll.dir = s.dir := rfl
@[simp] theorem initAll_outstanding (s : State) : s.initAll.outstanding = s.outstanding := rfl
@[simp] theorem initAll_events (s : State) : s.initAll.events = s.events := rfl
@[simp] theorem initAll_hostTurns (s : State) : s.initAll.hostTurns = s.hostTurns := rfl
@[simp] theorem initAll_responses (s : State) : s.initAll.responses = s.responses := rfl

/-! ### `Channel.configured` -/

theorem configured_pools (r : Channel) (name txPin rxPin : Byte) (seed : Bool) :
    (r.configured name txPin rxPin seed).txFree = r.txFree ∧ (r.configured name txPin rxPin seed).txPend = r.txPend ∧
      (r.configured name txPin rxPin seed).rxFree = r.rxFree ∧ (r.configured name txPin rxPin seed).rxPend = r.rxPend ∧
      (r.configured name txPin rxPin seed).txPay = r.txPay ∧ (r.configured name txPin rxPin seed).rxPay = r.rxPay :=
  ⟨rfl, rfl, rfl, rfl, rfl, rfl⟩

end Sys2Proof.Machine
end

