-- ==== Sys2Proof/Laws/Pools.lean ====
section
/-! SUPPORT. What the pool primitives, the arenas and the lines do (spec/40_fifo_controller.md R111 to R118,
spec/20_memory.md R62, spec/43_line_environment.md R212): one lemma per function, and the conservation of nodes. -/

namespace Sys2Proof.Machine

/-! ### Pool primitives -/

@[simp] theorem popFront_nil : popFront [] = none := rfl

@[simp] theorem popFront_cons (n : Nat) (rest : List Nat) : popFront (n :: rest) = some (n, rest) := rfl

theorem pushBack_of_unowned {owned pool : List Nat} {n : Nat} (h : n ∉ owned) :
    pushBack owned pool n = .ok (pool ++ [n]) := by simp [pushBack, h]

theorem pushBack_of_owned {owned pool : List Nat} {n : Nat} (h : n ∈ owned) :
    pushBack owned pool n = .error .pushOwnedNode := by simp [pushBack, h]

@[simp] theorem mergeAll_eq (src dst : List Nat) : mergeAll src dst = ([], dst ++ src) := rfl

@[simp] theorem poolInit_eq (cap : Nat) : poolInit cap = List.range cap := rfl

theorem popBack_append (xs : List Nat) (n : Nat) : popBack (xs ++ [n]) = some (n, xs) := by simp [popBack]

theorem removeUnchecked_of_mem {pool : List Nat} {n : Nat} (h : n ∈ pool) :
    removeUnchecked pool n = .ok (pool.erase n) := by simp [removeUnchecked, h]

theorem removeUnchecked_of_not_mem {pool : List Nat} {n : Nat} (h : n ∉ pool) :
    removeUnchecked pool n = .error .removeNonMember := by simp [removeUnchecked, h]

/-! ### Arenas and lines -/

theorem memRead_of_lt {arena : List Message} {i : Nat} (h : i < arena.length) : memRead arena i = .ok arena[i] := by
  simp [memRead, List.getElem?_eq_getElem h]

theorem memRead_of_get {arena : List Message} {i : Nat} {m : Message} (h : arena[i]? = some m) :
    memRead arena i = .ok m := by simp [memRead, h]

theorem memWrite_of_lt {arena : List Message} {i : Nat} (h : i < arena.length) (m : Message) :
    memWrite arena i m = .ok (arena.set i m) := by simp [memWrite, h]

theorem lineRead_of_get {levels : List Bool} {pin : Byte} {v : Bool} (h : levels[pin.toNat]? = some v) :
    lineRead levels pin = .ok v := by simp [lineRead, h]

theorem lineRead_of_lt {levels : List Bool} {pin : Byte} (h : pin.toNat < levels.length) :
    lineRead levels pin = .ok levels[pin.toNat] := lineRead_of_get (List.getElem?_eq_getElem h)

theorem lineWrite_of_lt {levels : List Bool} {pin : Byte} (h : pin.toNat < levels.length) (v : Bool) :
    lineWrite levels pin v = .ok (levels.set pin.toNat v) := by simp [lineWrite, List.getElem?_eq_getElem h]

theorem configurePin_of_lt {dir : List PinDir} {pin : Byte} (h : pin.toNat < dir.length) (mode : PinDir) :
    configurePin dir pin mode = .ok (dir.set pin.toNat mode) := by
  simp [configurePin, List.getElem?_eq_getElem h]

theorem slot_of_get {s : State} {c : Nat} {r : Channel} (h : s.ch[c]? = some r) : s.slot c = .ok r := by
  simp [State.slot, h]

/-! ### Conservation: moving one node between the two pools of a partition -/

theorem mem_partition {free pend : List Nat} {cap n : Nat} (h : (free ++ pend).Perm (List.range cap)) :
    n ∈ free ++ pend ↔ n < cap := by rw [h.mem_iff, List.mem_range]

theorem partition_nodup {free pend : List Nat} {cap : Nat} (h : (free ++ pend).Perm (List.range cap)) :
    (free ++ pend).Nodup := h.nodup_iff.mpr List.nodup_range

/-- The head of the free pool goes to the tail of the pending pool. -/
theorem partition_push {n : Nat} {free pend : List Nat} {cap : Nat}
    (h : ((n :: free) ++ pend).Perm (List.range cap)) :
    n < cap ∧ n ∉ free ++ pend ∧ (free ++ (pend ++ [n])).Perm (List.range cap) := by
  refine ⟨(mem_partition h).mp (by simp), ?_, ?_⟩
  · have := partition_nodup h
    simp only [List.cons_append, List.nodup_cons] at this
    exact this.1
  · refine List.Perm.trans ?_ h
    rw [← List.append_assoc]
    exact (List.perm_append_singleton n (free ++ pend))

/-- The head of the pending pool goes to the tail of the free pool. -/
theorem partition_pop {n : Nat} {free pend : List Nat} {cap : Nat}
    (h : (free ++ (n :: pend)).Perm (List.range cap)) :
    n < cap ∧ n ∉ free ++ pend ∧ ((free ++ [n]) ++ pend).Perm (List.range cap) := by
  have hp : (free ++ n :: pend).Perm (n :: (free ++ pend)) := List.perm_middle
  refine ⟨(mem_partition h).mp (by simp), ?_, by simpa using h⟩
  have := hp.nodup_iff.mp (partition_nodup h)
  exact (List.nodup_cons.mp this).1

/-- The whole pending pool goes to the tail of the free pool. -/
theorem partition_merge {free pend : List Nat} {cap : Nat} (h : (free ++ pend).Perm (List.range cap)) :
    ((free ++ pend) ++ []).Perm (List.range cap) := by simpa using h

/-- |free| + |pending| = capacity (spec/10_state.md R30). -/
theorem partition_length {free pend : List Nat} {cap : Nat} (h : (free ++ pend).Perm (List.range cap)) :
    free.length + pend.length = cap := by simpa using h.length_eq

/-! ### Reading a queue through its arena -/

theorem filterMap_set_of_not_mem {α : Type} (arena : List α) (nodes : List Nat) {n : Nat} (m : α) (h : n ∉ nodes) :
    nodes.filterMap (fun i => (arena.set n m)[i]?) = nodes.filterMap fun i => arena[i]? := by
  apply List.filterMap_congr
  intro i hi
  have : n ≠ i := fun e => h (e ▸ hi)
  simp [this]

theorem filterMap_push {α : Type} (arena : List α) (nodes : List Nat) {n : Nat} (m : α) (h : n ∉ nodes)
    (hn : n < arena.length) :
    (nodes ++ [n]).filterMap (fun i => (arena.set n m)[i]?) = (nodes.filterMap fun i => arena[i]?) ++ [m] := by
  rw [List.filterMap_append, filterMap_set_of_not_mem arena nodes m h]
  simp [hn]

end Sys2Proof.Machine
end

