-- ==== Sys2Proof/Laws/Channel.lean ====
section
/-! SUPPORT. What the queue operations of one channel do (spec/40_fifo_controller.md R122): the record they answer, the
partition they keep (spec/10_state.md R30), and the queue contents (R121). -/

namespace Sys2Proof.Machine

/-! ### The TX queue -/

theorem enqueueTx_full {r : Channel} (h : r.txFree = []) (m : Message) : r.enqueueTx m = .ok none := by
  simp [Channel.enqueueTx, h]

theorem enqueueTx_room {cfg : Config} {r : Channel} {n : Nat} {free : List Nat} (hf : r.txFree = n :: free)
    (ha : ArenaSizes cfg r) (hp : PoolPartition cfg r) (m : Message) :
    r.enqueueTx m =
      .ok (some { r with txFree := free, txPend := r.txPend ++ [n], txPay := r.txPay.set n m }) := by
  have hp' := hp.1
  rw [hf] at hp'
  obtain ⟨hlt, hnot, -⟩ := partition_push hp'
  simp [Channel.enqueueTx, hf, memWrite_of_lt (ha.1 ▸ hlt), pushBack_of_unowned hnot]

theorem enqueueTx_partition {cfg : Config} {r : Channel} {n : Nat} {free : List Nat} (hf : r.txFree = n :: free)
    (hp : PoolPartition cfg r) (pay : List Message) :
    PoolPartition cfg { r with txFree := free, txPend := r.txPend ++ [n], txPay := pay } := by
  have hp' := hp.1
  rw [hf] at hp'
  exact ⟨(partition_push hp').2.2, hp.2⟩

theorem enqueueTx_queue {cfg : Config} {r : Channel} {n : Nat} {free : List Nat} (hf : r.txFree = n :: free)
    (ha : ArenaSizes cfg r) (hp : PoolPartition cfg r) (m : Message) :
    ({ r with txFree := free, txPend := r.txPend ++ [n], txPay := r.txPay.set n m } : Channel).txQueue =
      r.txQueue ++ [m] := by
  have hp' := hp.1
  rw [hf] at hp'
  obtain ⟨hlt, hnot, -⟩ := partition_push hp'
  simp only [List.mem_append, not_or] at hnot
  exact filterMap_push r.txPay r.txPend m hnot.2 (ha.1 ▸ hlt)

theorem dequeueTx_empty {r : Channel} (h : r.txPend = []) : r.dequeueTx = .ok none := by
  simp [Channel.dequeueTx, h]

theorem dequeueTx_head {cfg : Config} {r : Channel} {n : Nat} {pend : List Nat} (hq : r.txPend = n :: pend)
    (ha : ArenaSizes cfg r) (hp : PoolPartition cfg r) :
    ∃ m, r.txPay[n]? = some m ∧ r.txQueue = m :: ({ r with txPend := pend } : Channel).txQueue ∧
      r.dequeueTx = .ok (some (m, { r with txPend := pend, txFree := r.txFree ++ [n] })) := by
  have hp' := hp.1
  rw [hq] at hp'
  obtain ⟨hlt, hnot, -⟩ := partition_pop hp'
  have hlt' : n < r.txPay.length := ha.1 ▸ hlt
  refine ⟨r.txPay[n], List.getElem?_eq_getElem hlt', ?_, ?_⟩
  · simp [Channel.txQueue, hq, List.getElem?_eq_getElem hlt']
  · simp [Channel.dequeueTx, hq, memRead_of_lt hlt', pushBack_of_unowned hnot]

theorem dequeueTx_partition {cfg : Config} {r : Channel} {n : Nat} {pend : List Nat} (hq : r.txPend = n :: pend)
    (hp : PoolPartition cfg r) : PoolPartition cfg { r with txPend := pend, txFree := r.txFree ++ [n] } := by
  have hp' := hp.1
  rw [hq] at hp'
  exact ⟨(partition_pop hp').2.2, hp.2⟩

/-! ### The RX queue -/

theorem enqueueRx_full {r : Channel} (h : r.rxFree = []) (m : Message) : r.enqueueRx m = .ok r := by
  simp [Channel.enqueueRx, h]

theorem enqueueRx_room {cfg : Config} {r : Channel} {n : Nat} {free : List Nat} (hf : r.rxFree = n :: free)
    (ha : ArenaSizes cfg r) (hp : PoolPartition cfg r) (m : Message) :
    r.enqueueRx m = .ok { r with rxFree := free, rxPend := r.rxPend ++ [n], rxPay := r.rxPay.set n m } := by
  have hp' := hp.2
  rw [hf] at hp'
  obtain ⟨hlt, hnot, -⟩ := partition_push hp'
  simp [Channel.enqueueRx, hf, memWrite_of_lt (ha.2 ▸ hlt), pushBack_of_unowned hnot]

theorem enqueueRx_partition {cfg : Config} {r : Channel} {n : Nat} {free : List Nat} (hf : r.rxFree = n :: free)
    (hp : PoolPartition cfg r) (pay : List Message) :
    PoolPartition cfg { r with rxFree := free, rxPend := r.rxPend ++ [n], rxPay := pay } := by
  have hp' := hp.2
  rw [hf] at hp'
  exact ⟨hp.1, (partition_push hp').2.2⟩

theorem enqueueRx_queue {cfg : Config} {r : Channel} {n : Nat} {free : List Nat} (hf : r.rxFree = n :: free)
    (ha : ArenaSizes cfg r) (hp : PoolPartition cfg r) (m : Message) :
    ({ r with rxFree := free, rxPend := r.rxPend ++ [n], rxPay := r.rxPay.set n m } : Channel).rxQueue =
      r.rxQueue ++ [m] := by
  have hp' := hp.2
  rw [hf] at hp'
  obtain ⟨hlt, hnot, -⟩ := partition_push hp'
  simp only [List.mem_append, not_or] at hnot
  exact filterMap_push r.rxPay r.rxPend m hnot.2 (ha.2 ▸ hlt)

theorem dequeueRx_empty {r : Channel} (h : r.rxPend = []) : r.dequeueRx = .ok none := by
  simp [Channel.dequeueRx, h]

theorem dequeueRx_head {cfg : Config} {r : Channel} {n : Nat} {pend : List Nat} (hq : r.rxPend = n :: pend)
    (ha : ArenaSizes cfg r) (hp : PoolPartition cfg r) :
    ∃ m, r.rxPay[n]? = some m ∧ r.rxQueue = m :: ({ r with rxPend := pend } : Channel).rxQueue ∧
      r.dequeueRx = .ok (some (m, { r with rxPend := pend, rxFree := r.rxFree ++ [n] })) := by
  have hp' := hp.2
  rw [hq] at hp'
  obtain ⟨hlt, hnot, -⟩ := partition_pop hp'
  have hlt' : n < r.rxPay.length := ha.2 ▸ hlt
  refine ⟨r.rxPay[n], List.getElem?_eq_getElem hlt', ?_, ?_⟩
  · simp [Channel.rxQueue, hq, List.getElem?_eq_getElem hlt']
  · simp [Channel.dequeueRx, hq, memRead_of_lt hlt', pushBack_of_unowned hnot]

theorem dequeueRx_partition {cfg : Config} {r : Channel} {n : Nat} {pend : List Nat} (hq : r.rxPend = n :: pend)
    (hp : PoolPartition cfg r) : PoolPartition cfg { r with rxPend := pend, rxFree := r.rxFree ++ [n] } := by
  have hp' := hp.2
  rw [hq] at hp'
  exact ⟨hp.1, (partition_pop hp').2.2⟩

/-! ### Merges -/

@[simp] theorem mergeRx_eq (r : Channel) :
    r.mergeRx = { r with rxPend := [], rxFree := r.rxFree ++ r.rxPend } := rfl

@[simp] theorem mergeTx_eq (r : Channel) :
    r.mergeTx = { r with txPend := [], txFree := r.txFree ++ r.txPend } := rfl

@[simp] theorem flushRx_eq (r : Channel) :
    r.flushRx = { r with rxPend := [], rxFree := r.rxFree ++ r.rxPend, rxDrop := true } := rfl

theorem mergeRx_partition {cfg : Config} {r : Channel} (hp : PoolPartition cfg r) : PoolPartition cfg r.mergeRx :=
  ⟨hp.1, partition_merge hp.2⟩

theorem mergeTx_partition {cfg : Config} {r : Channel} (hp : PoolPartition cfg r) : PoolPartition cfg r.mergeTx :=
  ⟨partition_merge hp.1, hp.2⟩

theorem flushRx_partition {cfg : Config} {r : Channel} (hp : PoolPartition cfg r) : PoolPartition cfg r.flushRx :=
  ⟨hp.1, partition_merge hp.2⟩

end Sys2Proof.Machine
end

