-- ==== Sys2Proof/Laws/Tick.lean ====
section
/-! SUPPORT. What the bit-machines do on one channel (spec/41_tick_dispatcher.md R132 to R148): neither RxStep nor
TxStep faults on a channel that meets the invariant, each keeps it, and each leaves the other direction alone. -/

namespace Sys2Proof.Machine

/-! ### Configurations -/

theorem oneLevelEach_iff (n : Nat) (levels : List Bool) : oneLevelEach n levels = true ↔ levels.length = n := by
  induction levels generalizing n with
  | nil => cases n <;> simp [oneLevelEach]
  | cons v rest ih => cases n <;> simp [oneLevelEach, ih]

theorem legal_iff (cfg : Config) :
    cfg.legal = true ↔
      1 ≤ cfg.txd ∧ 1 ≤ cfg.T ∧ cfg.S < cfg.T ∧ 1 ≤ cfg.npins ∧ cfg.npins ≤ 256 ∧ cfg.line0.length = cfg.npins := by
  simp only [Config.legal, Bool.and_eq_true, decide_eq_true_eq, oneLevelEach_iff, and_assoc]

/-! ### The invariant of one channel -/

/-- Everything the invariant says of the record of an active channel. -/
structure ChannelOk (cfg : Config) (r : Channel) : Prop where
  arenas : ArenaSizes cfg r
  pools : PoolPartition cfg r
  active : ActiveOk cfg r

theorem ChannelOk.enqueueTx {cfg : Config} {r : Channel} (h : ChannelOk cfg r) {n : Nat} {free : List Nat}
    (hf : r.txFree = n :: free) {m : Message} (hm : SendableMessage m) :
    ChannelOk cfg { r with txFree := free, txPend := r.txPend ++ [n], txPay := r.txPay.set n m } := by
  obtain ⟨hpins, hen, hmach, hdrop, htx, hrx⟩ := h.active
  refine ⟨⟨by simpa using h.arenas.1, h.arenas.2⟩, enqueueTx_partition hf h.pools _, hpins, hen, hmach, hdrop,
    ⟨htx.1, ?_⟩, hrx⟩
  rw [enqueueTx_queue hf h.arenas h.pools]
  intro x hx
  rcases List.mem_append.mp hx with hx | hx
  · exact htx.2 x hx
  · rw [List.mem_singleton.mp hx]; exact hm

theorem ChannelOk.dequeueRx {cfg : Config} {r : Channel} (h : ChannelOk cfg r) {n : Nat} {pend : List Nat}
    (hq : r.rxPend = n :: pend) : ChannelOk cfg { r with rxPend := pend, rxFree := r.rxFree ++ [n] } := by
  obtain ⟨hpins, hen, hmach, hdrop, htx, hrx⟩ := h.active
  obtain ⟨x, -, hqq, -⟩ := dequeueRx_head hq h.arenas h.pools
  refine ⟨h.arenas, dequeueRx_partition hq h.pools, hpins, hen, hmach, ?_, htx, hrx.1, ?_⟩
  · intro hd
    have := hdrop hd
    rw [hq] at this
    cases this
  · exact fun y hy => hrx.2 y (by rw [hqq]; exact List.mem_cons_of_mem _ hy)

theorem ChannelOk.mergeTx {cfg : Config} {r : Channel} (h : ChannelOk cfg r) :
    ChannelOk cfg { r with txPend := [], txFree := r.txFree ++ r.txPend } := by
  obtain ⟨hpins, hen, hmach, hdrop, htx, hrx⟩ := h.active
  exact ⟨h.arenas, mergeTx_partition h.pools, hpins, hen, hmach, hdrop, ⟨htx.1, fun _ hx => by cases hx⟩, hrx⟩

theorem ChannelOk.flushRx {cfg : Config} {r : Channel} (h : ChannelOk cfg r) :
    ChannelOk cfg { r with rxPend := [], rxFree := r.rxFree ++ r.rxPend, rxDrop := true } := by
  obtain ⟨hpins, hen, hmach, -, htx, hrx⟩ := h.active
  exact ⟨h.arenas, flushRx_partition h.pools, hpins, hen, hmach, fun _ => rfl, htx, hrx.1, fun _ hx => by cases hx⟩

/-! ### The quantum counter (spec/41_tick_dispatcher.md R132) -/

theorem advance_enter {T : Nat} {m : BitMachine} (h : m.q + 1 = T) :
    advance T m = ({ m with q := 0, pos := m.pos.succ }, true) := by simp [advance, h]

theorem advance_same {T : Nat} {m : BitMachine} (h : m.q + 1 ≠ T) :
    advance T m = ({ m with q := m.q + 1 }, false) := by simp [advance, h]

@[simp] theorem advance_scr (T : Nat) (m : BitMachine) : (advance T m).1.scr = m.scr := by
  unfold advance; split <;> rfl

theorem advance_ok {cfg : Config} (hT : 1 ≤ cfg.T) {m : BitMachine} (h : MachineOk cfg m) (hp : m.pos ≠ .idle) :
    MachineOk cfg (advance cfg.T m).1 := by
  by_cases hq : m.q + 1 = cfg.T
  · rw [advance_enter hq]; exact ⟨hT, fun _ => rfl⟩
  · rw [advance_same hq]
    refine ⟨?_, fun hi => absurd hi hp⟩
    have := h.1
    show m.q + 1 < cfg.T
    omega

/-! ### The receive side -/

/-- What RxStep leaves alone: everything but `last`, the RX machine, the drop mark and the RX pools and payloads. -/
structure RxFrame (r r' : Channel) : Prop where
  name : r'.name = r.name
  txPin : r'.txPin = r.txPin
  rxPin : r'.rxPin = r.rxPin
  txEn : r'.txEn = r.txEn
  rxEn : r'.rxEn = r.rxEn
  tx : r'.tx = r.tx
  txFree : r'.txFree = r.txFree
  txPend : r'.txPend = r.txPend
  txPay : r'.txPay = r.txPay

theorem RxFrame.refl (r : Channel) : RxFrame r r := ⟨rfl, rfl, rfl, rfl, rfl, rfl, rfl, rfl, rfl⟩

theorem RxFrame.trans {a b c : Channel} (h : RxFrame a b) (k : RxFrame b c) : RxFrame a c :=
  ⟨k.name.trans h.name, k.txPin.trans h.txPin, k.rxPin.trans h.rxPin, k.txEn.trans h.txEn, k.rxEn.trans h.rxEn,
    k.tx.trans h.tx, k.txFree.trans h.txFree, k.txPend.trans h.txPend, k.txPay.trans h.txPay⟩

theorem rxSample_ok {cfg : Config} {m : BitMachine} (v : Bool) (h : MachineOk cfg m) (hT : 1 ≤ cfg.T) :
    MachineOk cfg (rxSample m v) := by
  unfold rxSample
  split
  · exact h
  · split
    · exact ⟨hT, fun _ => rfl⟩
    · exact h
  · exact h
  · exact h
  · split <;> exact h

theorem rxSample_flags (m : BitMachine) (v : Bool) :
    (rxSample m v).scr.isBlank = m.scr.isBlank ∧ (rxSample m v).scr.clearsRx = m.scr.clearsRx := by
  unfold rxSample
  split
  · exact ⟨rfl, rfl⟩
  · split <;> exact ⟨rfl, rfl⟩
  · exact ⟨rfl, rfl⟩
  · exact ⟨rfl, rfl⟩
  · split <;> exact ⟨rfl, rfl⟩

theorem rxIdle_ok {cfg : Config} (hT : 1 ≤ cfg.T) {r : Channel} (v : Bool) (h : ChannelOk cfg r) :
    ChannelOk cfg (rxIdle r v) ∧ RxFrame r (rxIdle r v) := by
  unfold rxIdle
  split
  · obtain ⟨hpins, hen, hm, -, htx, hrx⟩ := h.active
    exact ⟨⟨h.arenas, h.pools, hpins, hen, ⟨hm.1, hT, by simp⟩, by simp, htx, ⟨rfl, rfl⟩, hrx.2⟩,
      rfl, rfl, rfl, rfl, rfl, rfl, rfl, rfl, rfl⟩
  · exact ⟨h, RxFrame.refl r⟩

theorem rxComplete_ok {cfg : Config} {r : Channel} (h : ChannelOk cfg r) :
    ∃ r', rxComplete r = .ok r' ∧ ChannelOk cfg r' ∧ RxFrame r r' ∧ r'.rx = r.rx := by
  obtain ⟨hpins, hen, hm, hdrop, htx, hrx⟩ := h.active
  unfold rxComplete
  split
  · rename_i hd
    cases hf : r.rxFree with
    | nil => exact ⟨r, enqueueRx_full hf _, h, RxFrame.refl r, rfl⟩
    | cons n free =>
      refine ⟨_, enqueueRx_room hf h.arenas h.pools r.rx.scr, ⟨?_, enqueueRx_partition hf h.pools _, ?_⟩,
        ⟨rfl, rfl, rfl, rfl, rfl, rfl, rfl, rfl, rfl⟩, rfl⟩
      · exact ⟨h.arenas.1, by simpa using h.arenas.2⟩
      · refine ⟨hpins, hen, hm, fun hd' => absurd hd' (by simp [hd]), htx, hrx.1, ?_⟩
        rw [enqueueRx_queue hf h.arenas h.pools]
        intro m hmem
        rcases List.mem_append.mp hmem with hmem | hmem
        · exact hrx.2 m hmem
        · rw [List.mem_singleton.mp hmem]; exact hrx.1
  · refine ⟨_, rfl, ⟨h.arenas, mergeRx_partition h.pools, hpins, hen, hm, fun _ => rfl, htx, hrx.1, ?_⟩,
      ⟨rfl, rfl, rfl, rfl, rfl, rfl, rfl, rfl, rfl⟩, rfl⟩
    simp [Channel.rxQueue]

theorem rxBusy_ok {cfg : Config} (hT : 1 ≤ cfg.T) {r : Channel} (h : ChannelOk cfg r) (hp : r.rx.pos ≠ .idle) :
    ∃ r', rxBusy cfg.T r = .ok r' ∧ ChannelOk cfg r' ∧ RxFrame r r' ∧ r'.rx = (advance cfg.T r.rx).1 := by
  obtain ⟨hpins, hen, hm, hdrop, htx, hrx⟩ := h.active
  have h' : ChannelOk cfg { r with rx := (advance cfg.T r.rx).1 } :=
    ⟨h.arenas, h.pools, hpins, hen, ⟨hm.1, advance_ok hT hm.2 hp⟩, hdrop, htx, by
      rw [advance_scr]; exact hrx⟩
  have hf : RxFrame r { r with rx := (advance cfg.T r.rx).1 } := ⟨rfl, rfl, rfl, rfl, rfl, rfl, rfl, rfl, rfl⟩
  unfold rxBusy
  simp only
  split
  · obtain ⟨r', he, hok, hfr, hrx'⟩ := rxComplete_ok h'
    exact ⟨r', he, hok, hf.trans hfr, hrx'⟩
  · exact ⟨_, rfl, h', hf, rfl⟩

theorem rxSettle_ok {cfg : Config} (hT : 1 ≤ cfg.T) (S : Nat) {r : Channel} (v : Bool) (h : ChannelOk cfg r) :
    ChannelOk cfg (rxSettle S r v) ∧ RxFrame r (rxSettle S r v) := by
  obtain ⟨hpins, hen, hm, hdrop, htx, hrx⟩ := h.active
  refine ⟨⟨h.arenas, h.pools, hpins, hen, ⟨hm.1, ?_⟩, hdrop, htx, ?_, hrx.2⟩,
    rfl, rfl, rfl, rfl, rfl, rfl, rfl, rfl, rfl⟩
  · show MachineOk cfg (if r.rx.pos ≠ .idle ∧ r.rx.q = S then rxSample r.rx v else r.rx)
    split
    · exact rxSample_ok v hm.2 hT
    · exact hm.2
  · show ReceivedMessage (if r.rx.pos ≠ .idle ∧ r.rx.q = S then rxSample r.rx v else r.rx).scr
    split
    · have := rxSample_flags r.rx v
      exact ⟨this.1.trans hrx.1.1, this.2.trans hrx.1.2⟩
    · exact hrx.1

theorem rxStepWith_ok {cfg : Config} (hT : 1 ≤ cfg.T) {r : Channel} (v : Bool) (h : ChannelOk cfg r) :
    ∃ r', rxStepWith cfg r v = .ok r' ∧ ChannelOk cfg r' ∧ RxFrame r r' := by
  unfold rxStepWith
  by_cases hp : r.rx.pos = .idle
  · obtain ⟨h1, f1⟩ := rxIdle_ok hT v h
    obtain ⟨h2, f2⟩ := rxSettle_ok hT cfg.S v h1
    exact ⟨_, by simp [hp], h2, f1.trans f2⟩
  · obtain ⟨r1, he, h1, f1, -⟩ := rxBusy_ok hT h hp
    obtain ⟨h2, f2⟩ := rxSettle_ok hT cfg.S v h1
    exact ⟨_, by simp [hp, he], h2, f1.trans f2⟩

theorem rxStep_ok {cfg : Config} (hT : 1 ≤ cfg.T) {levels : List Bool} (hl : levels.length = cfg.npins)
    {r : Channel} (h : ChannelOk cfg r) :
    ∃ v r', levels[r.rxPin.toNat]? = some v ∧ rxStepWith cfg r v = .ok r' ∧ rxStep cfg levels r = .ok r' ∧
      ChannelOk cfg r' ∧ RxFrame r r' := by
  have hlt : r.rxPin.toNat < levels.length := hl ▸ h.active.1.2
  obtain ⟨r', he, hok, hf⟩ := rxStepWith_ok hT levels[r.rxPin.toNat] h
  exact ⟨_, r', List.getElem?_eq_getElem hlt, he, by simp [rxStep, lineRead_of_lt hlt, he], hok, hf⟩

/-! ### The transmit side -/

/-- What TxStep leaves alone: everything but the TX machine, the TX pools, and the flush of the RX pools and drop mark
(spec/41_tick_dispatcher.md R148). -/
structure TxFrame (r r' : Channel) : Prop where
  name : r'.name = r.name
  txPin : r'.txPin = r.txPin
  rxPin : r'.rxPin = r.rxPin
  txEn : r'.txEn = r.txEn
  rxEn : r'.rxEn = r.rxEn
  last : r'.last = r.last
  rx : r'.rx = r.rx
  txPay : r'.txPay = r.txPay
  rxPay : r'.rxPay = r.rxPay
  flush : (r'.rxDrop = r.rxDrop ∧ r'.rxFree = r.rxFree ∧ r'.rxPend = r.rxPend) ∨
    (r'.rxDrop = true ∧ r'.rxFree = r.rxFree ++ r.rxPend ∧ r'.rxPend = [])

/-- TxStep on an idle channel with nothing queued (spec/41_tick_dispatcher.md R143). -/
theorem txStep_idle {cfg : Config} {r : Channel} (hp : r.tx.pos = .idle) (hq : r.txPend = []) :
    txStep cfg r = .ok (r, some true) := by
  simp [txStep, hp, dequeueTx_empty hq]

/-- TxStep on an idle channel with a message queued (spec/41_tick_dispatcher.md R144). -/
theorem txStep_pop {cfg : Config} {r : Channel} {n : Nat} {pend : List Nat} (hp : r.tx.pos = .idle)
    (hq : r.txPend = n :: pend) (ha : ArenaSizes cfg r) (hpp : PoolPartition cfg r) :
    ∃ m, r.txPay[n]? = some m ∧ r.txQueue = m :: ({ r with txPend := pend } : Channel).txQueue ∧
      txStep cfg r = .ok (txStart { r with txPend := pend, txFree := r.txFree ++ [n] } m) := by
  obtain ⟨m, hm, hqq, he⟩ := dequeueTx_head hq ha hpp
  exact ⟨m, hm, hqq, by simp [txStep, hp, he]⟩

theorem txStep_busy {cfg : Config} {r : Channel} (hp : r.tx.pos ≠ .idle) : txStep cfg r = .ok (txBusy cfg.T r) := by
  simp [txStep, hp]

theorem txStep_ok {cfg : Config} (hT : 1 ≤ cfg.T) {r : Channel} (h : ChannelOk cfg r) :
    ∃ r' drive, txStep cfg r = .ok (r', drive) ∧ ChannelOk cfg r' ∧ TxFrame r r' := by
  obtain ⟨hpins, hen, hm, hdrop, htx, hrx⟩ := h.active
  by_cases hp : r.tx.pos = .idle
  · cases hq : r.txPend with
    | nil =>
      exact ⟨_, _, txStep_idle hp hq, h, rfl, rfl, rfl, rfl, rfl, rfl, rfl, rfl, rfl, .inl ⟨rfl, rfl, rfl⟩⟩
    | cons n pend =>
      obtain ⟨m, -, hqq, he⟩ := txStep_pop hp hq h.arenas h.pools
      have hpart := dequeueTx_partition hq h.pools
      have hsend : SendableMessage m ∧ ∀ x ∈ ({ r with txPend := pend } : Channel).txQueue, SendableMessage x := by
        have := htx.2
        rw [hqq] at this
        exact ⟨this m (by simp), fun x hx => this x (by simp [hx])⟩
      have hmach : MachineOk cfg { pos := .start, q := 0, scr := m } := ⟨hT, by simp⟩
      unfold txStart at he
      simp only at he
      by_cases hc : m.clearsRx = true
      · rw [if_pos hc] at he
        exact ⟨_, _, he, ⟨h.arenas, flushRx_partition hpart, hpins, hen, ⟨hmach, hm.2⟩, fun _ => rfl, hsend, hrx.1,
          by simp [Channel.rxQueue]⟩, rfl, rfl, rfl, rfl, rfl, rfl, rfl, rfl, rfl, .inr ⟨rfl, rfl, rfl⟩⟩
      · rw [if_neg hc] at he
        exact ⟨_, _, he, ⟨h.arenas, hpart, hpins, hen, ⟨hmach, hm.2⟩, hdrop, hsend, hrx⟩,
          rfl, rfl, rfl, rfl, rfl, rfl, rfl, rfl, rfl, .inl ⟨rfl, rfl, rfl⟩⟩
  · exact ⟨_, _, txStep_busy hp,
      ⟨h.arenas, h.pools, hpins, hen, ⟨advance_ok hT hm.1 hp, hm.2⟩, hdrop, ⟨by
        show SendableMessage (advance cfg.T r.tx).1.scr
        rw [advance_scr]; exact htx.1, htx.2⟩, hrx⟩,
      rfl, rfl, rfl, rfl, rfl, rfl, rfl, rfl, rfl, .inl ⟨rfl, rfl, rfl⟩⟩

end Sys2Proof.Machine
end

