-- ==== Sys2Proof/Laws/Invariant.lean ====
section
/-! SUPPORT. What the invariant gives (every active slot has a record that meets `ChannelOk`), what keeps it (writing
back one active record; the host port), and the two passes of a TICK: neither faults, each keeps the invariant. -/

namespace Sys2Proof.Machine

/-! ### What the invariant gives -/

theorem BlockInv.tickPos {s : State} (h : BlockInv s) : 1 ≤ s.cfg.T := ((legal_iff _).mp h.config).2.1

theorem BlockInv.initialized_of_active {s : State} (h : BlockInv s) {c : Nat} (hc : c ∈ s.chActive) : s.initialized = true := by
  cases hi : s.initialized with
  | true => rfl
  | false => rw [(h.beforeInit hi).2] at hc; cases hc

theorem BlockInv.active_lt {s : State} (h : BlockInv s) {c : Nat} (hc : c ∈ s.chActive) : c < s.ch.length := by
  rw [h.slots]
  exact (mem_partition (h.registry (h.initialized_of_active hc))).mp (List.mem_append_right _ hc)

theorem mem_activeChannels {s : State} {c : Nat} {r : Channel} (hc : c ∈ s.chActive) (hr : s.ch[c]? = some r) :
    r ∈ s.activeChannels := List.mem_filterMap.mpr ⟨c, hc, hr⟩

theorem BlockInv.channelOk {s : State} (h : BlockInv s) {c : Nat} {r : Channel} (hc : c ∈ s.chActive)
    (hr : s.ch[c]? = some r) : ChannelOk s.cfg r :=
  ⟨h.arenas r (List.mem_of_getElem? hr), h.pools (h.initialized_of_active hc) r (List.mem_of_getElem? hr),
    h.active r (mem_activeChannels hc hr)⟩

theorem BlockInv.record {s : State} (h : BlockInv s) {c : Nat} (hc : c ∈ s.chActive) :
    ∃ r, s.ch[c]? = some r ∧ ChannelOk s.cfg r :=
  ⟨_, List.getElem?_eq_getElem (h.active_lt hc), h.channelOk hc (List.getElem?_eq_getElem (h.active_lt hc))⟩

theorem BlockInv.active_nodup {s : State} (h : BlockInv s) : s.chActive.Nodup := by
  cases hi : s.initialized with
  | true => exact (List.nodup_append.mp (partition_nodup (h.registry hi))).2.1
  | false => rw [(h.beforeInit hi).2]; exact List.nodup_nil

theorem BlockInv.free_not_active {s : State} (h : BlockInv s) {c : Nat} (hc : c ∈ s.chFree) : c ∉ s.chActive := by
  cases hi : s.initialized with
  | true => exact fun ha => (List.nodup_append.mp (partition_nodup (h.registry hi))).2.2 c hc c ha rfl
  | false => rw [(h.beforeInit hi).1] at hc; cases hc

/-! ### Lookup by name (spec/42_host_commands.md R171) -/

theorem hasName_iff {s : State} {name : Byte} {c : Nat} :
    s.hasName name c = true ↔ ∃ r, s.ch[c]? = some r ∧ r.name = name := by
  unfold State.hasName
  cases s.ch[c]? <;> simp

theorem lookup_some {s : State} {name : Byte} {c : Nat} {r : Channel} (h : s.lookup name = some (c, r)) :
    c ∈ s.chActive ∧ s.ch[c]? = some r ∧ r.name = name ∧ s.find name = some c := by
  unfold State.lookup at h
  split at h
  · cases h
  · rename_i k hk
    split at h
    · cases h
    · rename_i r' hr'
      simp only [Option.some.injEq, Prod.mk.injEq] at h
      obtain ⟨rfl, rfl⟩ := h
      have hn := List.find?_some hk
      obtain ⟨r'', hr'', hname⟩ := hasName_iff.mp hn
      rw [hr'] at hr''
      cases hr''
      exact ⟨List.mem_of_find?_eq_some hk, hr', hname, hk⟩

/-- Distinct members of a list have distinct images when the list of images has no repeats. -/
theorem filterMap_inj {α β : Type} {f : α → Option β} {l : List α} (hnd : (l.filterMap f).Nodup) {c d : α}
    (hc : c ∈ l) (hd : d ∈ l) {a : β} (hfc : f c = some a) (hfd : f d = some a) : c = d := by
  induction l with
  | nil => cases hc
  | cons e l ih =>
    have hsub : (l.filterMap f).Nodup := hnd.sublist ((List.sublist_cons_self e l).filterMap f)
    rcases List.mem_cons.mp hc with rfl | hc' <;> rcases List.mem_cons.mp hd with rfl | hd'
    · rfl
    · rw [List.filterMap_cons_some hfc] at hnd
      exact absurd (List.mem_filterMap.mpr ⟨d, hd', hfd⟩) (List.nodup_cons.mp hnd).1
    · rw [List.filterMap_cons_some hfd] at hnd
      exact absurd (List.mem_filterMap.mpr ⟨c, hc', hfc⟩) (List.nodup_cons.mp hnd).1
    · exact ih hsub hc' hd'

theorem lookup_none_iff {s : State} (h : BlockInv s) {name : Byte} : s.lookup name = none ↔ s.find name = none := by
  unfold State.lookup
  cases hf : s.find name with
  | none => simp
  | some c =>
    obtain ⟨r, hr, -⟩ := h.record (List.mem_of_find?_eq_some hf)
    simp [hr]

/-- Between events a name finds exactly the active channel that has it (spec/42_host_commands.md R171). -/
theorem find_none_iff {s : State} {name : Byte} :
    s.find name = none ↔ ∀ r ∈ s.activeChannels, r.name ≠ name := by
  unfold State.find State.activeChannels
  rw [List.find?_eq_none]
  constructor
  · intro h r hr
    obtain ⟨c, hc, hcr⟩ := List.mem_filterMap.mp hr
    exact fun hn => h c hc (hasName_iff.mpr ⟨r, hcr, hn⟩)
  · intro h c hc hn
    obtain ⟨r, hr, hname⟩ := hasName_iff.mp hn
    exact h r (List.mem_filterMap.mpr ⟨c, hc, hr⟩) hname

theorem lookup_unknown {s : State} (h : BlockInv s) {name : Byte} (hn : ∀ r ∈ s.activeChannels, r.name ≠ name) :
    s.lookup name = none := (lookup_none_iff h).mpr (find_none_iff.mpr hn)

/-- Names of distinct active slots differ, so a channel's name finds it (spec/10_state.md R32). -/
theorem lookup_known {s : State} (h : BlockInv s) {k : Nat} {r : Channel} (hk : k ∈ s.chActive) (hr : s.ch[k]? = some r) :
    s.lookup r.name = some (k, r) := by
  cases hl : s.lookup r.name with
  | none => exact absurd rfl (find_none_iff.mp ((lookup_none_iff h).mp hl) r (mem_activeChannels hk hr))
  | some p =>
    obtain ⟨k', r'⟩ := p
    obtain ⟨hk', hr', hn, -⟩ := lookup_some hl
    have key := h.names
    rw [State.activeChannels, List.map_filterMap] at key
    have : k' = k := filterMap_inj key hk' hk (a := r.name) (by simp [hr', hn]) (by simp [hr])
    subst this
    rw [hr] at hr'
    cases hr'
    rfl

theorem hasTxPin_iff {s : State} {pin : Byte} {c : Nat} :
    s.hasTxPin pin c = true ↔ ∃ r, s.ch[c]? = some r ∧ r.txPin = pin := by
  unfold State.hasTxPin
  cases s.ch[c]? <;> simp

theorem txPinUsed_iff {s : State} {pin : Byte} :
    s.txPinUsed pin = true ↔ ∃ r ∈ s.activeChannels, r.txPin = pin := by
  unfold State.txPinUsed State.activeChannels
  rw [List.any_eq_true]
  constructor
  · rintro ⟨c, hc, hp⟩
    obtain ⟨r, hr, hpin⟩ := hasTxPin_iff.mp hp
    exact ⟨r, List.mem_filterMap.mpr ⟨c, hc, hr⟩, hpin⟩
  · rintro ⟨r, hr, hpin⟩
    obtain ⟨c, hc, hcr⟩ := List.mem_filterMap.mp hr
    exact ⟨c, hc, hasTxPin_iff.mpr ⟨r, hcr, hpin⟩⟩

/-! ### Writing back one record -/

theorem getElem?_setSlot_self {s : State} {c : Nat} {r r' : Channel} (hr : s.ch[c]? = some r) :
    (s.setSlot c r').ch[c]? = some r' := by
  have : c < s.ch.length := (List.getElem?_eq_some_iff.mp hr).1
  simp [this]

theorem getElem?_setSlot_other {s : State} {c d : Nat} (r' : Channel) (hne : d ≠ c) :
    (s.setSlot c r').ch[d]? = s.ch[d]? := by
  simp [Ne.symm hne]

theorem setSlot_same {s : State} {c : Nat} {r : Channel} (hr : s.ch[c]? = some r) : s.setSlot c r = s := by
  have hlt : c < s.ch.length := (List.getElem?_eq_some_iff.mp hr).1
  have hg : s.ch[c] = r := (List.getElem?_eq_some_iff.mp hr).2
  have : s.ch.set c r = s.ch := by subst hg; simp
  show ({ s with ch := s.ch.set c r } : State) = s
  rw [this]

/-- A field that the new record shares with the old one is the same along all active channels. -/
theorem activeChannels_setSlot_map {α : Type} {s : State} {c : Nat} {r r' : Channel} (hr : s.ch[c]? = some r)
    (f : Channel → α) (hf : f r' = f r) :
    (s.setSlot c r').activeChannels.map f = s.activeChannels.map f := by
  unfold State.activeChannels
  rw [setSlot_chActive, List.map_filterMap, List.map_filterMap]
  apply List.filterMap_congr
  intro d _
  by_cases hd : d = c
  · subst hd
    rw [getElem?_setSlot_self hr, hr]
    simp [hf]
  · rw [getElem?_setSlot_other r' hd]

theorem mem_activeChannels_setSlot {s : State} {c : Nat} {r r' x : Channel} (hr : s.ch[c]? = some r)
    (hx : x ∈ (s.setSlot c r').activeChannels) : x = r' ∨ x ∈ s.activeChannels := by
  obtain ⟨d, hd, hdx⟩ := List.mem_filterMap.mp hx
  by_cases hdc : d = c
  · subst hdc
    rw [getElem?_setSlot_self hr] at hdx
    exact .inl (Option.some.inj hdx).symm
  · rw [getElem?_setSlot_other r' hdc] at hdx
    exact .inr (List.mem_filterMap.mpr ⟨d, hd, hdx⟩)

theorem hasName_setSlot {s : State} {c : Nat} {r r' : Channel} (hr : s.ch[c]? = some r) (hn : r'.name = r.name)
    (name : Byte) (d : Nat) : (s.setSlot c r').hasName name d = s.hasName name d := by
  unfold State.hasName
  by_cases hd : d = c
  · subst hd
    rw [getElem?_setSlot_self hr, hr]
    simp [hn]
  · rw [getElem?_setSlot_other r' hd]

theorem find_setSlot {s : State} {c : Nat} {r r' : Channel} (hr : s.ch[c]? = some r) (hn : r'.name = r.name)
    (name : Byte) : (s.setSlot c r').find name = s.find name := by
  unfold State.find
  rw [setSlot_chActive]
  congr 1
  funext d
  exact hasName_setSlot hr hn name d

/-- Writing back a record of an active channel with the same name and TX pin keeps the invariant. -/
theorem inv_setSlot {s : State} (h : BlockInv s) {c : Nat} {r r' : Channel} (hc : c ∈ s.chActive) (hr : s.ch[c]? = some r)
    (hok : ChannelOk s.cfg r') (hname : r'.name = r.name) (hpin : r'.txPin = r.txPin) : BlockInv (s.setSlot c r') where
  config := h.config
  pins := h.pins
  slots := by simpa using h.slots
  arenas := by
    intro x hx
    rcases List.mem_or_eq_of_mem_set hx with hx | rfl
    · exact h.arenas x hx
    · exact hok.arenas
  beforeInit := h.beforeInit
  registry := h.registry
  pools := by
    intro hi x hx
    rcases List.mem_or_eq_of_mem_set hx with hx | rfl
    · exact h.pools hi x hx
    · exact hok.pools
  fresh := by
    intro d hd x hx
    have hne : d ≠ c := fun e => h.free_not_active hd (e ▸ hc)
    rw [getElem?_setSlot_other r' hne] at hx
    exact h.fresh d hd x hx
  active := by
    intro x hx
    rcases mem_activeChannels_setSlot hr hx with rfl | hx
    · exact hok.active
    · exact h.active x hx
  names := by rw [activeChannels_setSlot_map hr (·.name) hname]; exact h.names
  txPins := by rw [activeChannels_setSlot_map hr (·.txPin) hpin]; exact h.txPins
  waiting := by
    intro name hname'
    obtain ⟨hi, hf⟩ := h.waiting name hname'
    exact ⟨hi, by rw [find_setSlot hr hname]; exact hf⟩

/-! ### The host port -/

theorem inv_respond {s : State} (h : BlockInv s) (k : ResultCode) (d : Byte) : BlockInv (s.respond k d) :=
  ⟨h.config, h.pins, h.slots, h.arenas, h.beforeInit, h.registry, h.pools, h.fresh, h.active, h.names, h.txPins,
    h.waiting⟩

theorem inv_port {s : State} (h : BlockInv s) (ev : List Word) (turns : List Bool) :
    BlockInv { s with events := ev, hostTurns := turns } :=
  ⟨h.config, h.pins, h.slots, h.arenas, h.beforeInit, h.registry, h.pools, h.fresh, h.active, h.names, h.txPins,
    h.waiting⟩

theorem inv_release {s : State} (h : BlockInv s) : BlockInv { s with outstanding := none } :=
  ⟨h.config, h.pins, h.slots, h.arenas, h.beforeInit, h.registry, h.pools, h.fresh, h.active, h.names, h.txPins,
    by simp⟩

/-- A RECVB that holds names a channel (spec/42_host_commands.md R176). -/
theorem inv_hold {s : State} (h : BlockInv s) (hi : s.initialized = true) {name : Byte}
    (hf : (s.find name).isSome = true) : BlockInv { s with outstanding := some name } :=
  ⟨h.config, h.pins, h.slots, h.arenas, h.beforeInit, h.registry, h.pools, h.fresh, h.active, h.names, h.txPins, by
    intro n hn
    cases Option.some.inj hn
    exact ⟨hi, hf⟩⟩

theorem inv_line {s : State} (h : BlockInv s) {levels : List Bool} (hl : levels.length = s.line.length) :
    BlockInv { s with line := levels } :=
  ⟨h.config, ⟨hl.trans h.pins.1, h.pins.2⟩, h.slots, h.arenas, h.beforeInit, h.registry, h.pools, h.fresh, h.active,
    h.names, h.txPins, h.waiting⟩

/-! ### The two passes -/

/-- The RX pass at an active slot: the record becomes what RxStep makes of it with the level on its RX pin. -/
theorem rxAt_ok {s : State} (h : BlockInv s) {c : Nat} (hc : c ∈ s.chActive) :
    ∃ r r', s.ch[c]? = some r ∧ rxStep s.cfg s.line r = .ok r' ∧ ChannelOk s.cfg r' ∧ RxFrame r r' ∧
      rxAt s c = .ok (s.setSlot c r') ∧ BlockInv (s.setSlot c r') := by
  obtain ⟨r, hr, hok⟩ := h.record hc
  obtain ⟨v, r', -, -, he, hok', hf⟩ := rxStep_ok h.tickPos h.pins.1 hok
  refine ⟨r, r', hr, he, hok', hf, ?_, inv_setSlot h hc hr hok' hf.name hf.txPin⟩
  simp [rxAt, slot_of_get hr, hok.active.2.1.2, he]

/-- The lines after a level is driven, or is not. -/
def driven (levels : List Bool) (pin : Byte) : Option Bool → List Bool
  | none => levels
  | some v => levels.set pin.toNat v

@[simp] theorem driven_length (levels : List Bool) (pin : Byte) (d : Option Bool) :
    (driven levels pin d).length = levels.length := by cases d <;> simp [driven]

theorem driven_other {levels : List Bool} {pin : Byte} (d : Option Bool) {p : Nat} (hp : p ≠ pin.toNat) :
    (driven levels pin d)[p]? = levels[p]? := by
  cases d <;> simp [driven, Ne.symm hp]

theorem driven_self {levels : List Bool} {pin : Byte} (d : Option Bool) (hp : pin.toNat < levels.length) :
    (driven levels pin d)[pin.toNat]? = d.or levels[pin.toNat]? := by
  cases d <;> simp [driven, hp]

/-- The TX pass at an active slot: the record becomes what TxStep makes of it, and its TX pin the level it drives. -/
theorem txAt_ok {s : State} (h : BlockInv s) {c : Nat} (hc : c ∈ s.chActive) :
    ∃ r r' d, s.ch[c]? = some r ∧ txStep s.cfg r = .ok (r', d) ∧ ChannelOk s.cfg r' ∧ TxFrame r r' ∧
      txAt s c = .ok { s.setSlot c r' with line := driven s.line r.txPin d } ∧
      BlockInv { s.setSlot c r' with line := driven s.line r.txPin d } := by
  obtain ⟨r, hr, hok⟩ := h.record hc
  obtain ⟨r', d, he, hok', hf⟩ := txStep_ok h.tickPos hok
  have hlt : r.txPin.toNat < s.line.length := h.pins.1 ▸ hok.active.1.1
  refine ⟨r, r', d, hr, he, hok', hf, ?_,
    inv_line (s := s.setSlot c r') (inv_setSlot h hc hr hok' hf.name hf.txPin) (driven_length _ _ d)⟩
  cases d with
  | none =>
    simp [txAt, slot_of_get hr, hok.active.2.1.1, he, driven]
    rfl
  | some v => simp [txAt, slot_of_get hr, hok.active.2.1.1, he, driven, lineWrite_of_lt hlt]

@[simp] theorem pass_nil (f : State → Nat → Except Fault State) (s : State) : pass f [] s = .ok s := rfl

theorem pass_cons {f : State → Nat → Except Fault State} {c : Nat} {rest : List Nat} {s t : State}
    (h : f s c = .ok t) : pass f (c :: rest) s = pass f rest t := by simp [pass, h]

/-- What the RX pass over distinct active slots does: each visited record is what RxStep makes of it with the lines of
the start, every other field and record stays (spec/41_tick_dispatcher.md R131). -/
theorem rxPass_ok {order : List Nat} : ∀ {s : State}, BlockInv s → order.Nodup → (∀ c ∈ order, c ∈ s.chActive) →
    ∃ t, pass rxAt order s = .ok t ∧ BlockInv t ∧ t = { s with ch := t.ch } ∧
      (∀ c ∈ order, ∃ r r', s.ch[c]? = some r ∧ rxStep s.cfg s.line r = .ok r' ∧ ChannelOk s.cfg r' ∧ RxFrame r r' ∧
        t.ch[c]? = some r') ∧
      (∀ c, c ∉ order → t.ch[c]? = s.ch[c]?) := by
  induction order with
  | nil => exact fun {s} h _ _ => ⟨s, rfl, h, rfl, by simp, fun _ _ => rfl⟩
  | cons c rest ih =>
    intro s h hnd hact
    obtain ⟨hc, hnd'⟩ := List.nodup_cons.mp hnd
    obtain ⟨r, r', hr, he, hok, hf, hstep, hinv⟩ := rxAt_ok h (hact c (by simp))
    obtain ⟨t, hpass, ht, hframe, hvis, hother⟩ :=
      ih hinv hnd' (fun d hd => hact d (List.mem_cons_of_mem _ hd))
    refine ⟨t, (pass_cons hstep).trans hpass, ht, hframe, ?_, ?_⟩
    · intro d hd
      rcases List.mem_cons.mp hd with rfl | hd
      · exact ⟨r, r', hr, he, hok, hf, (hother d hc).trans (getElem?_setSlot_self hr)⟩
      · have hne : d ≠ c := fun e => hc (e ▸ hd)
        obtain ⟨x, x', hx, hxe, hxok, hxf, hxt⟩ := hvis d hd
        exact ⟨x, x', (getElem?_setSlot_other r' hne).symm.trans hx, hxe, hxok, hxf, hxt⟩
    · intro d hd
      rw [List.mem_cons, not_or] at hd
      exact (hother d hd.2).trans (getElem?_setSlot_other r' hd.1)

/-- TX pins of distinct active slots differ (spec/10_state.md R32). -/
theorem BlockInv.txPin_inj {s : State} (h : BlockInv s) {c d : Nat} {r x : Channel} (hc : c ∈ s.chActive)
    (hd : d ∈ s.chActive) (hr : s.ch[c]? = some r) (hx : s.ch[d]? = some x) (hp : r.txPin = x.txPin) : c = d := by
  have key := h.txPins
  rw [State.activeChannels, List.map_filterMap] at key
  exact filterMap_inj key hc hd (a := r.txPin) (by simp [hr]) (by simp [hx, hp])

/-- What the TX pass over distinct active slots does (spec/41_tick_dispatcher.md R131): each visited record is what
TxStep makes of it, its TX pin has the level it drives, every other line, field and record stays. -/
theorem txPass_ok {order : List Nat} : ∀ {s : State}, BlockInv s → order.Nodup → (∀ c ∈ order, c ∈ s.chActive) →
    ∃ t, pass txAt order s = .ok t ∧ BlockInv t ∧ t = { s with ch := t.ch, line := t.line } ∧
      (∀ c ∈ order, ∃ r r' d, s.ch[c]? = some r ∧ txStep s.cfg r = .ok (r', d) ∧ ChannelOk s.cfg r' ∧ TxFrame r r' ∧
        t.ch[c]? = some r' ∧ t.line[r.txPin.toNat]? = d.or s.line[r.txPin.toNat]?) ∧
      (∀ c, c ∉ order → t.ch[c]? = s.ch[c]?) ∧
      (∀ p : Nat, (∀ c ∈ order, ∀ r, s.ch[c]? = some r → r.txPin.toNat ≠ p) → t.line[p]? = s.line[p]?) := by
  induction order with
  | nil => exact fun {s} h _ _ => ⟨s, rfl, h, rfl, by simp, fun _ _ => rfl, fun _ _ => rfl⟩
  | cons c rest ih =>
    intro s h hnd hact
    obtain ⟨hc, hnd'⟩ := List.nodup_cons.mp hnd
    obtain ⟨r, r', d, hr, he, hok, hf, hstep, hinv⟩ := txAt_ok h (hact c (by simp))
    obtain ⟨t, hpass, ht, hframe, hvis, hother, hlines⟩ :=
      ih hinv hnd' (fun e he' => hact e (List.mem_cons_of_mem _ he'))
    have hlt : r.txPin.toNat < s.line.length :=
      h.pins.1 ▸ (h.channelOk (hact c (by simp)) hr).active.1.1
    have hpinne : ∀ e ∈ rest, ∀ x, s.ch[e]? = some x → x.txPin.toNat ≠ r.txPin.toNat := by
      intro e he' x hx hp
      have : e = c := h.txPin_inj (hact e (List.mem_cons_of_mem _ he')) (hact c (by simp)) hx hr
        (BitVec.eq_of_toNat_eq hp)
      exact hc (this ▸ he')
    have hrest : ∀ e ∈ rest, e ≠ c := fun e he' heq => hc (heq ▸ he')
    refine ⟨t, (pass_cons hstep).trans hpass, ht, hframe, ?_, ?_, ?_⟩
    · intro e he'
      rcases List.mem_cons.mp he' with rfl | he'
      · refine ⟨r, r', d, hr, he, hok, hf, (hother e hc).trans (getElem?_setSlot_self hr), ?_⟩
        rw [hlines r.txPin.toNat ?_]
        · exact driven_self d hlt
        · intro x hx y hy
          have hxne := hrest x hx
          exact hpinne x hx y ((getElem?_setSlot_other r' hxne).symm.trans hy)
      · obtain ⟨x, x', dx, hx, hxe, hxok, hxf, hxt, hxl⟩ := hvis e he'
        have hx' : s.ch[e]? = some x := (getElem?_setSlot_other r' (hrest e he')).symm.trans hx
        refine ⟨x, x', dx, hx', hxe, hxok, hxf, hxt, ?_⟩
        rw [hxl]
        exact congrArg _ (driven_other d (hpinne e he' x hx'))
    · intro e he'
      rw [List.mem_cons, not_or] at he'
      exact (hother e he'.2).trans (getElem?_setSlot_other r' he'.1)
    · intro p hp
      rw [hlines p ?_]
      · exact driven_other d (Ne.symm (hp c (by simp) r hr))
      · intro e he' x hx
        have hx' : s.ch[e]? = some x := (getElem?_setSlot_other r' (hrest e he')).symm.trans hx
        exact hp e (List.mem_cons_of_mem _ he') x hx'

/-- The whole TICK (spec/41_tick_dispatcher.md R130): the two passes over the active channels. -/
theorem tickOver_ok {s : State} (h : BlockInv s) {order : List Nat} (hnd : order.Nodup)
    (hact : ∀ c ∈ order, c ∈ s.chActive) :
    ∃ t, tickOver order s = .ok t ∧ BlockInv t ∧ t = { s with ch := t.ch, line := t.line } ∧
      (∀ c ∈ order, ∃ r r1 r2 d, s.ch[c]? = some r ∧ rxStep s.cfg s.line r = .ok r1 ∧
        txStep s.cfg r1 = .ok (r2, d) ∧ RxFrame r r1 ∧ TxFrame r1 r2 ∧ ChannelOk s.cfg r1 ∧ ChannelOk s.cfg r2 ∧
        t.ch[c]? = some r2 ∧ t.line[r.txPin.toNat]? = d.or s.line[r.txPin.toNat]?) ∧
      (∀ c, c ∉ order → t.ch[c]? = s.ch[c]?) ∧
      (∀ p : Nat, (∀ c ∈ order, ∀ r, s.ch[c]? = some r → r.txPin.toNat ≠ p) → t.line[p]? = s.line[p]?) := by
  obtain ⟨u, hrx, hu, hufr, huvis, huother⟩ := rxPass_ok h hnd hact
  have hcfg : u.cfg = s.cfg := by rw [hufr]
  have hline : u.line = s.line := by rw [hufr]
  have hactive : u.chActive = s.chActive := by rw [hufr]
  obtain ⟨t, htx, ht, htfr, htvis, htother, htlines⟩ := txPass_ok hu hnd (fun c hc => hactive ▸ hact c hc)
  refine ⟨t, by simp [tickOver, hrx, htx], ht, ?_, ?_, ?_, ?_⟩
  · rw [htfr, hufr]
  · intro c hc
    obtain ⟨r, r1, hr, hre, hrok, hrf, hr1⟩ := huvis c hc
    obtain ⟨x, r2, d, hx, hte, htok, htf, hr2, hl⟩ := htvis c hc
    rw [hr1] at hx
    cases hx
    rw [hcfg] at hte htok
    rw [hline, hrf.txPin] at hl
    exact ⟨r, r1, r2, d, hr, hre, hte, hrf, htf, hrok, htok, hr2, hl⟩
  · exact fun c hc => (htother c hc).trans (huother c hc)
  · intro p hp
    rw [htlines p ?_, hline]
    intro c hc x hx
    obtain ⟨r, r1, hr, -, -, hrf, hr1⟩ := huvis c hc
    rw [hr1] at hx
    cases hx
    rw [hrf.txPin]
    exact hp c hc r hr

end Sys2Proof.Machine
end

