-- ==== Sys2Proof/Laws/Commands.lean ====
section
/-! SUPPORT. One lemma per case of each host command and of LINE (spec/42_host_commands.md R172 to R178,
spec/43_line_environment.md R211), in terms of `State.respond` and `State.setSlot`; the response words of R84 and R87;
and what the effects of INIT and ADD keep. -/

namespace Sys2Proof.Machine

/-! ### Response words without data (spec/30_encoding.md R84, R87) -/

theorem responseWord_ok : responseWord .ok 0 = 0x00000000 := by decide
theorem responseWord_notInitialized : responseWord .notInitialized 0 = 0x00000001 := by decide
theorem responseWord_unknownName : responseWord .unknownName 0 = 0x00000002 := by decide
theorem responseWord_nameAlreadyUsed : responseWord .nameAlreadyUsed 0 = 0x00000003 := by decide
theorem responseWord_txPinAlreadyUsed : responseWord .txPinAlreadyUsed 0 = 0x00000004 := by decide
theorem responseWord_bufferFull : responseWord .bufferFull 0 = 0x00000005 := by decide
theorem responseWord_bufferEmpty : responseWord .bufferEmpty 0 = 0x00000006 := by decide

/-! ### INIT -/

theorem execInit_first {s : State} (hi : s.initialized = false) : execInit s = .next (s.initAll.respond .ok 0) := by
  rw [execInit, if_pos hi]

theorem execInit_again {s : State} (hi : s.initialized = true) : execInit s = .next (s.respond .ok 0) := by
  rw [execInit, if_neg (by simp [hi])]

/-- The first INIT keeps the invariant (spec/42_host_commands.md R172). -/
theorem inv_initAll {s : State} (h : BlockInv s) (hi : s.initialized = false) : BlockInv s.initAll := by
  have hno : s.outstanding = none := by
    cases ho : s.outstanding with
    | none => rfl
    | some name => exact absurd (h.waiting name ho).1 (by simp [hi])
  have hmem : ∀ r ∈ s.initAll.ch, ∃ old ∈ s.ch, r = old.initPools s.cfg := by
    intro r hr
    obtain ⟨old, hold, rfl⟩ := List.mem_map.mp hr
    exact ⟨old, hold, rfl⟩
  have hact : s.initAll.activeChannels = [] := rfl
  constructor
  · exact h.config
  · exact h.pins
  · simpa using h.slots
  · intro r hr
    obtain ⟨old, hold, rfl⟩ := hmem r hr
    exact h.arenas old hold
  · intro hf; cases hf
  · intro _
    simp
  · intro _ r hr
    obtain ⟨old, -, rfl⟩ := hmem r hr
    constructor <;> simp [Channel.initPools]
  · intro c _ r hr
    obtain ⟨old, -, rfl⟩ := hmem r (List.mem_of_getElem? hr)
    exact ⟨rfl, rfl, rfl, rfl⟩
  · rw [hact]; simp
  · rw [hact]; simp
  · rw [hact]; simp
  · intro name hn
    rw [initAll_outstanding, hno] at hn
    cases hn

/-! ### SEND -/

theorem execSend_uninit {s : State} (hi : s.initialized = false) (name data : Byte) (c b : Bool) :
    execSend name data c b s = .next (s.respond .notInitialized 0) := by rw [execSend, if_pos hi]

theorem execSend_unknown {s : State} (hi : s.initialized = true) {name : Byte} (hl : s.lookup name = none)
    (data : Byte) (c b : Bool) : execSend name data c b s = .next (s.respond .unknownName 0) := by
  rw [execSend, if_neg (by simp [hi]), hl]

theorem execSend_full {s : State} (hi : s.initialized = true) {name : Byte} {k : Nat} {r : Channel}
    (hl : s.lookup name = some (k, r)) (hf : r.txFree = []) (data : Byte) (c b : Bool) :
    execSend name data c b s = .next (s.respond .bufferFull 0) := by
  rw [execSend, if_neg (by simp [hi]), hl]
  simp only [enqueueTx_full hf, map_ok, finish_ok]

theorem execSend_room {s : State} (hi : s.initialized = true) {name : Byte} {k n : Nat} {r : Channel}
    {free : List Nat} (hl : s.lookup name = some (k, r)) (hf : r.txFree = n :: free) (ha : ArenaSizes s.cfg r)
    (hp : PoolPartition s.cfg r) (data : Byte) (c b : Bool) :
    execSend name data c b s = .next ((s.setSlot k { r with
      txFree := free, txPend := r.txPend ++ [n], txPay := r.txPay.set n (sentMessage data c b) }).respond .ok 0) := by
  rw [execSend, if_neg (by simp [hi]), hl]
  simp only [enqueueTx_room hf ha hp, map_ok, finish_ok]

/-! ### RECV and RECVB -/

theorem receive_uninit {s : State} (hi : s.initialized = false) (name : Byte) :
    receive name s = .ok (.notInitialized, 0, s) := by rw [receive, if_pos hi]

theorem receive_unknown {s : State} (hi : s.initialized = true) {name : Byte} (hl : s.lookup name = none) :
    receive name s = .ok (.unknownName, 0, s) := by rw [receive, if_neg (by simp [hi]), hl]

theorem receive_empty {s : State} (hi : s.initialized = true) {name : Byte} {k : Nat} {r : Channel}
    (hl : s.lookup name = some (k, r)) (hq : r.rxPend = []) : receive name s = .ok (.bufferEmpty, 0, s) := by
  rw [receive, if_neg (by simp [hi]), hl]
  simp only [dequeueRx_empty hq, map_ok]

theorem receive_head {s : State} (hi : s.initialized = true) {name : Byte} {k n : Nat} {r : Channel}
    {pend : List Nat} (hl : s.lookup name = some (k, r)) (hq : r.rxPend = n :: pend) (ha : ArenaSizes s.cfg r)
    (hp : PoolPartition s.cfg r) :
    ∃ m, r.rxPay[n]? = some m ∧ r.rxQueue = m :: ({ r with rxPend := pend } : Channel).rxQueue ∧
      receive name s = .ok (classify m, m.data,
        s.setSlot k { r with rxPend := pend, rxFree := r.rxFree ++ [n] }) := by
  obtain ⟨m, hm, hqq, he⟩ := dequeueRx_head hq ha hp
  refine ⟨m, hm, hqq, ?_⟩
  rw [receive, if_neg (by simp [hi]), hl]
  simp only [he, map_ok]

theorem classify_ne_bufferEmpty (m : Message) : classify m ≠ .bufferEmpty := by
  unfold classify
  split_ifs <;> simp

/-- What RECV does, whatever the state (spec/42_host_commands.md R175): one of the three rejections, with nothing
changed, or the head message is taken. -/
theorem receive_cases {s : State} (h : BlockInv s) (name : Byte) :
    (s.initialized = false ∧ receive name s = .ok (.notInitialized, 0, s)) ∨
    (s.initialized = true ∧ s.lookup name = none ∧ receive name s = .ok (.unknownName, 0, s)) ∨
    (∃ k r, s.initialized = true ∧ s.lookup name = some (k, r) ∧ r.rxPend = [] ∧
      receive name s = .ok (.bufferEmpty, 0, s)) ∨
    (∃ k r n pend m, s.initialized = true ∧ s.lookup name = some (k, r) ∧ r.rxPend = n :: pend ∧
      r.rxPay[n]? = some m ∧
      receive name s = .ok (classify m, m.data,
        s.setSlot k { r with rxPend := pend, rxFree := r.rxFree ++ [n] })) := by
  cases hi : s.initialized with
  | false => exact .inl ⟨rfl, receive_uninit hi name⟩
  | true =>
    refine .inr ?_
    cases hl : s.lookup name with
    | none => exact .inl ⟨rfl, rfl, receive_unknown hi hl⟩
    | some p =>
      obtain ⟨k, r⟩ := p
      obtain ⟨hk, hr, -, -⟩ := lookup_some hl
      have hok := h.channelOk hk hr
      refine .inr ?_
      cases hq : r.rxPend with
      | nil => exact .inl ⟨k, r, rfl, rfl, hq, receive_empty hi hl hq⟩
      | cons n pend =>
        obtain ⟨m, hm, -, he⟩ := receive_head hi hl hq hok.arenas hok.pools
        exact .inr ⟨k, r, n, pend, m, rfl, rfl, hq, hm, he⟩

theorem execRecv_of {s t : State} {name data : Byte} {code : ResultCode} (he : receive name s = .ok (code, data, t)) :
    execRecv name s = .next (t.respond code data) := by
  simp only [execRecv, he, map_ok, finish_ok]

theorem execRecvb_hold {s t : State} {name data : Byte} (he : receive name s = .ok (.bufferEmpty, data, t)) :
    execRecvb name s = .next { s with outstanding := some name } := by
  simp only [execRecvb, he, map_ok, finish_ok, if_true]

theorem execRecvb_complete {s t : State} {name data : Byte} {code : ResultCode}
    (he : receive name s = .ok (code, data, t)) (hc : code ≠ .bufferEmpty) :
    execRecvb name s = .next ({ t with outstanding := none }.respond code data) := by
  simp only [execRecvb, he, map_ok, finish_ok, if_neg hc]

theorem recvReady_of {s t : State} {name data : Byte} {code : ResultCode} (he : receive name s = .ok (code, data, t)) :
    recvReady name s = decide (code ≠ .bufferEmpty) := by
  simp only [recvReady, he]

/-! ### CLRTX and CLRRX -/

theorem execClrtx_unknown {s : State} {name : Byte} (hl : s.lookup name = none) :
    execClrtx name s = .next (s.respond .unknownName 0) := by rw [execClrtx, hl]

theorem execClrtx_known {s : State} {name : Byte} {k : Nat} {r : Channel} (hl : s.lookup name = some (k, r)) :
    execClrtx name s =
      .next ((s.setSlot k { r with txPend := [], txFree := r.txFree ++ r.txPend }).respond .ok 0) := by
  rw [execClrtx, hl]
  rfl

theorem execClrrx_unknown {s : State} {name : Byte} (hl : s.lookup name = none) :
    execClrrx name s = .next (s.respond .unknownName 0) := by rw [execClrrx, hl]

theorem execClrrx_known {s : State} {name : Byte} {k : Nat} {r : Channel} (hl : s.lookup name = some (k, r)) :
    execClrrx name s = .next ((s.setSlot k
      { r with rxPend := [], rxFree := r.rxFree ++ r.rxPend, rxDrop := true }).respond .ok 0) := by
  rw [execClrrx, hl]
  rfl

/-! ### LINE -/

theorem execLine_legal {s : State} (h : BlockInv s) {pin : Byte} (hp : pin.toNat < s.cfg.npins) (v : Bool) :
    execLine pin v s = .next { s with line := s.line.set pin.toNat v } := by
  simp [execLine, Instr.wellFormed, pinLegal, hp, lineWrite_of_lt (h.pins.1 ▸ hp)]

theorem execLine_illegal {s : State} {pin : Byte} (hp : s.cfg.npins ≤ pin.toNat) (v : Bool) :
    execLine pin v s = .refused .pinOutOfRange := by
  simp [execLine, Instr.wellFormed, pinLegal, hp]

/-! ### ADD -/

/-- The record of a channel right after its ADD (spec/70_reset_and_hazards.md R253). -/
def addedChannel (cfg : Config) (old : Channel) (name txPin rxPin : Byte) (seed : Bool) : Channel :=
  { old.configured name txPin rxPin seed with
    txFree := (List.range cfg.txd).tail, txPend := [0], rxFree := List.range cfg.rxd, rxPend := [],
    txPay := old.txPay.set 0 blankMessage }

/-- A channel right after its ADD is a channel as the invariant says. -/
theorem addedChannel_ok {cfg : Config} (hl : cfg.legal = true) {old : Channel} (ha : ArenaSizes cfg old)
    {txPin rxPin : Byte} (ht : txPin.toNat < cfg.npins) (hx : rxPin.toNat < cfg.npins) (name : Byte) (seed : Bool) :
    ChannelOk cfg (addedChannel cfg old name txPin rxPin seed) := by
  obtain ⟨htxd, hT, -⟩ := (legal_iff _).mp hl
  obtain ⟨m, hm⟩ := Nat.exists_eq_add_of_le' htxd
  have hrange : List.range cfg.txd = 0 :: (List.range cfg.txd).tail := by rw [hm, List.range_succ_eq_map]; rfl
  have hm : MachineOk cfg BitMachine.zero := ⟨hT, fun _ => rfl⟩
  refine ⟨⟨by simpa [addedChannel, Channel.configured] using ha.1, ha.2⟩, ⟨?_, ?_⟩,
    ⟨⟨ht, hx⟩, ⟨rfl, rfl⟩, ⟨hm, hm⟩, fun _ => rfl, ⟨⟨show Message.zero.parity = parity8 Message.zero.data by decide, rfl⟩, ?_⟩, ⟨rfl, rfl⟩,
      fun _ hx => by cases hx⟩⟩
  · show ((List.range cfg.txd).tail ++ [0]).Perm (List.range cfg.txd)
    conv_rhs => rw [hrange]
    exact List.perm_append_singleton 0 _
  · show (List.range cfg.rxd ++ []).Perm (List.range cfg.rxd)
    simp
  · intro x hx
    have h0 : 0 < old.txPay.length := ha.1 ▸ htxd
    simp [Channel.txQueue, addedChannel, h0] at hx
    rw [hx]
    exact ⟨by decide, rfl⟩

/-- The state after an ADD that puts the record `r` into slot `c` (spec/42_host_commands.md R173). -/
def State.joined (s : State) (c : Nat) (free : List Nat) (r : Channel) : State :=
  { s.setSlot c r with
    chFree := free
    chActive := s.chActive ++ [c]
    dir := (s.dir.set r.txPin.toNat .output).set r.rxPin.toNat .input
    line := s.line.set r.txPin.toNat true }

theorem activeChannels_joined {s : State} {c : Nat} (hc : c ∉ s.chActive) (hlt : c < s.ch.length) (free : List Nat)
    (r : Channel) : (s.joined c free r).activeChannels = s.activeChannels ++ [r] := by
  show (s.chActive ++ [c]).filterMap (fun d => (s.ch.set c r)[d]?) = _
  rw [List.filterMap_append, filterMap_set_of_not_mem s.ch s.chActive r hc]
  simp [hlt, State.activeChannels]

theorem find_joined {s : State} {c : Nat} (hc : c ∉ s.chActive) (free : List Nat) (r : Channel) {name : Byte} {k : Nat}
    (hk : s.find name = some k) : (s.joined c free r).find name = some k := by
  have hsame : s.chActive.find? ((s.joined c free r).hasName name) = s.chActive.find? (s.hasName name) := by
    apply List.find?_congr
    intro d hd
    have hne : c ≠ d := fun e => hc (e ▸ hd)
    simp [State.hasName, State.joined, hne]
  show (s.chActive ++ [c]).find? ((s.joined c free r).hasName name) = some k
  rw [List.find?_append, hsame, show s.chActive.find? (s.hasName name) = some k from hk]
  rfl

/-- ADD keeps the invariant when the name and the TX pin are new (spec/42_host_commands.md R173). -/
theorem inv_joined {s : State} (h : BlockInv s) {c : Nat} {free : List Nat} (hf : s.chFree = c :: free) {r : Channel}
    (hok : ChannelOk s.cfg r) (hname : ∀ x ∈ s.activeChannels, x.name ≠ r.name)
    (hpin : ∀ x ∈ s.activeChannels, x.txPin ≠ r.txPin) : BlockInv (s.joined c free r) := by
  have hi : s.initialized = true := by
    cases hi : s.initialized with
    | true => rfl
    | false => rw [(h.beforeInit hi).1] at hf; cases hf
  have hreg := h.registry hi
  rw [hf] at hreg
  obtain ⟨hlt, hnot, hperm⟩ := partition_push hreg
  rw [List.mem_append, not_or] at hnot
  have hactive := activeChannels_joined hnot.2 (h.slots ▸ hlt) free r
  constructor
  · exact h.config
  · simpa [State.joined] using h.pins
  · simpa [State.joined] using h.slots
  · intro x hx
    rcases List.mem_or_eq_of_mem_set hx with hx | rfl
    · exact h.arenas x hx
    · exact hok.arenas
  · exact fun hf' => absurd (hi.symm.trans hf') (by simp)
  · exact fun _ => hperm
  · intro _ x hx
    rcases List.mem_or_eq_of_mem_set hx with hx | rfl
    · exact h.pools hi x hx
    · exact hok.pools
  · intro d hd x hx
    have hne : d ≠ c := fun e => hnot.1 (e ▸ hd)
    have hx' : s.ch[d]? = some x := (getElem?_setSlot_other (s := s) r hne).symm.trans hx
    exact h.fresh d (by rw [hf]; exact List.mem_cons_of_mem _ hd) x hx'
  · rw [hactive]
    intro x hx
    rcases List.mem_append.mp hx with hx | hx
    · exact h.active x hx
    · rw [List.mem_singleton.mp hx]; exact hok.active
  · rw [hactive, List.map_append]
    refine List.nodup_append.mpr ⟨h.names, by simp, ?_⟩
    intro a ha b hb
    obtain ⟨x, hx, rfl⟩ := List.mem_map.mp ha
    rw [List.mem_singleton.mp hb]
    exact hname x hx
  · rw [hactive, List.map_append]
    refine List.nodup_append.mpr ⟨h.txPins, by simp, ?_⟩
    intro a ha b hb
    obtain ⟨x, hx, rfl⟩ := List.mem_map.mp ha
    rw [List.mem_singleton.mp hb]
    exact hpin x hx
  · intro n hn
    obtain ⟨-, hfind⟩ := h.waiting n hn
    obtain ⟨k, hk⟩ := Option.isSome_iff_exists.mp hfind
    exact ⟨hi, by rw [find_joined hnot.2 free r hk]; rfl⟩

/-- ADD that succeeds (spec/42_host_commands.md R173). -/
theorem addChannel_ok {s : State} (h : BlockInv s) {c : Nat} {free : List Nat} (hf : s.chFree = c :: free)
    {txPin rxPin : Byte} (ht : txPin.toNat < s.cfg.npins) (hx : rxPin.toNat < s.cfg.npins) (name : Byte) :
    ∃ old, s.ch[c]? = some old ∧
      s.addChannel c free name txPin rxPin = .ok (s.joined c free (addedChannel s.cfg old name txPin rxPin
        ((s.line.set txPin.toNat true).getD rxPin.toNat false))) := by
  have hi : s.initialized = true := by
    cases hi : s.initialized with
    | true => rfl
    | false => rw [(h.beforeInit hi).1] at hf; cases hf
  have hreg := h.registry hi
  rw [hf] at hreg
  obtain ⟨hlt, hnot, -⟩ := partition_push hreg
  have hlt' : c < s.ch.length := h.slots ▸ hlt
  have hold := List.getElem?_eq_getElem hlt'
  have hfresh := h.fresh c (by simp [hf]) _ (Option.mem_def.mpr hold)
  have harena := h.arenas _ (List.mem_of_getElem? hold)
  have hpool := h.pools hi _ (List.mem_of_getElem? hold)
  have htxd := ((legal_iff _).mp h.config).1
  obtain ⟨rest, hrest⟩ : ∃ rest, List.range s.cfg.txd = 0 :: rest := by
    obtain ⟨m, hm⟩ := Nat.exists_eq_add_of_le' htxd
    exact ⟨_, hm ▸ List.range_succ_eq_map⟩
  have htx : txPin.toNat < s.line.length := h.pins.1 ▸ ht
  have hrx : rxPin.toNat < (s.line.set txPin.toNat true).length := by simpa [h.pins.1] using hx
  have henq := enqueueTx_room (cfg := s.cfg)
    (r := (s.ch[c]).configured name txPin rxPin (s.line.set txPin.toNat true)[rxPin.toNat]) (n := 0) (free := rest)
    (hfresh.1.trans hrest) harena hpool blankMessage
  refine ⟨s.ch[c], hold, ?_⟩
  simp only [State.addChannel, pushBack_of_unowned hnot, ok_bind, slot_of_get hold,
    configurePin_of_lt (dir := s.dir) (pin := txPin) (h.pins.2 ▸ ht),
    configurePin_of_lt (dir := s.dir.set txPin.toNat .output) (pin := rxPin) (by simpa [h.pins.2] using hx),
    lineWrite_of_lt htx, lineRead_of_lt hrx, henq, pure_eq_ok]
  have hseed : (s.line.set txPin.toNat true).getD rxPin.toNat false =
      (s.line.set txPin.toNat true)[rxPin.toNat] := by
    simp only [List.getD_eq_getElem?_getD, List.getElem?_eq_getElem hrx, Option.getD_some]
  rw [hseed]
  have hrec : ∀ old : Channel, FreshPools s.cfg old → ∀ seed,
      ({ old.configured name txPin rxPin seed with
          txFree := rest
          txPend := (old.configured name txPin rxPin seed).txPend ++ [0]
          txPay := (old.configured name txPin rxPin seed).txPay.set 0 blankMessage } : Channel) =
        addedChannel s.cfg old name txPin rxPin seed := by
    intro old hfr seed
    obtain ⟨h1, h2, h3, h4⟩ := hfr
    simp [addedChannel, Channel.configured, hrest, h2, h3, h4]
  rw [hrec _ hfresh]
  rfl

/-! ### ADD, case by case -/

theorem execAdd_illegal {s : State} {txPin rxPin : Byte} (hp : s.cfg.npins ≤ txPin.toNat ∨ s.cfg.npins ≤ rxPin.toNat)
    (name : Byte) : execAdd name txPin rxPin s = .refused .pinOutOfRange := by
  rw [execAdd, if_pos]
  simp only [Instr.wellFormed, pinLegal, Bool.and_eq_false_iff, decide_eq_false_iff_not]
  omega

theorem execAdd_legal {s : State} {txPin rxPin : Byte} (ht : txPin.toNat < s.cfg.npins)
    (hx : rxPin.toNat < s.cfg.npins) (name : Byte) :
    execAdd name txPin rxPin s =
      if s.initialized = false then .next (s.respond .notInitialized 0)
      else
        match popFront s.chFree with
        | none => .next (s.respond .bufferFull 0)
        | some (c, free) =>
          if (s.find name).isSome = true then .next (s.respond .nameAlreadyUsed 0)
          else if s.txPinUsed txPin = true then .next (s.respond .txPinAlreadyUsed 0)
          else finish ((s.addChannel c free name txPin rxPin).map (fun t => t.respond .ok 0)) :=
  if_neg (by simp [Instr.wellFormed, pinLegal, ht, hx])

theorem find_isSome_iff {s : State} {name : Byte} :
    (s.find name).isSome = true ↔ ∃ r ∈ s.activeChannels, r.name = name := by
  rw [← not_iff_not, Bool.not_eq_true, Option.isSome_eq_false_iff, Option.isNone_iff_eq_none, find_none_iff]
  simp

/-- ADD that succeeds, as one step. -/
theorem execAdd_ok {s : State} (h : BlockInv s) {c : Nat} {free : List Nat} (hf : s.chFree = c :: free)
    {name txPin rxPin : Byte} (ht : txPin.toNat < s.cfg.npins) (hx : rxPin.toNat < s.cfg.npins)
    (hname : ∀ r ∈ s.activeChannels, r.name ≠ name) (hpin : ∀ r ∈ s.activeChannels, r.txPin ≠ txPin) :
    ∃ old, s.ch[c]? = some old ∧
      execAdd name txPin rxPin s = .next ((s.joined c free (addedChannel s.cfg old name txPin rxPin
        ((s.line.set txPin.toNat true).getD rxPin.toNat false))).respond .ok 0) := by
  have hi : s.initialized = true := by
    cases hi : s.initialized with
    | true => rfl
    | false => rw [(h.beforeInit hi).1] at hf; cases hf
  obtain ⟨old, hold, he⟩ := addChannel_ok h hf ht hx name
  have h1 : (s.find name).isSome ≠ true := by rw [Ne, find_isSome_iff]; simpa using hname
  have h2 : s.txPinUsed txPin ≠ true := by rw [Ne, txPinUsed_iff]; simpa using hpin
  exact ⟨old, hold, by simp [execAdd_legal ht hx, hi, hf, h1, h2, he]⟩

end Sys2Proof.Machine
end

