-- ==== Sys2Proof/Laws/Decode.lean ====
section
/-! SUPPORT. Lemmas about the encoding (spec/30_encoding.md R85 to R91): the bits of a packed word, its fields, and
when a row accepts a word. -/

namespace Sys2Proof

/-- Every bit of a packed word (spec/30_encoding.md R85). -/
theorem packWord_bit (rxPin data name : Byte) (b c : Bool) (op : BitVec 4) (k : Nat) :
    (packWord rxPin data name b c op).getLsbD k =
      if k < 4 then op.getLsbD k
      else if k = 4 then c
      else if k = 5 then b
      else if k < 8 then false
      else if k < 16 then name.getLsbD (k - 8)
      else if k < 24 then data.getLsbD (k - 16)
      else rxPin.getLsbD (k - 24) := by
  unfold packWord
  simp only [BitVec.getLsbD_append, BitVec.getLsbD_ofBool]
  split_ifs <;> first | omega | rfl | simp_all

@[simp] theorem nameField_packWord (rxPin data name : Byte) (b c : Bool) (op : BitVec 4) :
    nameField (packWord rxPin data name b c op) = name := by
  apply BitVec.eq_of_getLsbD_eq
  intro i hi
  simp only [nameField, BitVec.getLsbD_extractLsb', packWord_bit]
  split_ifs <;> first | omega | simp [hi]

@[simp] theorem dataField_packWord (rxPin data name : Byte) (b c : Bool) (op : BitVec 4) :
    dataField (packWord rxPin data name b c op) = data := by
  apply BitVec.eq_of_getLsbD_eq
  intro i hi
  simp only [dataField, BitVec.getLsbD_extractLsb', packWord_bit]
  split_ifs <;> first | omega | simp [hi]

@[simp] theorem rxPinField_packWord (rxPin data name : Byte) (b c : Bool) (op : BitVec 4) :
    rxPinField (packWord rxPin data name b c op) = rxPin := by
  apply BitVec.eq_of_getLsbD_eq
  intro i hi
  simp only [rxPinField, BitVec.getLsbD_extractLsb', packWord_bit]
  split_ifs <;> first | omega | simp [hi]

@[simp] theorem bitFour_packWord (rxPin data name : Byte) (b c : Bool) (op : BitVec 4) :
    bitFour (packWord rxPin data name b c op) = c := by
  simp only [bitFour, packWord_bit]
  simp

@[simp] theorem bitFive_packWord (rxPin data name : Byte) (b c : Bool) (op : BitVec 4) :
    bitFive (packWord rxPin data name b c op) = b := by
  simp only [bitFive, packWord_bit]
  simp

/-- A row accepts a word when every bit under its mask is the row's (spec/30_encoding.md R86). -/
theorem accepts_iff (r : OpRow) (w : Word) :
    r.accepts w = true ↔ ∀ k < 32, (w.getLsbD k && r.mask.getLsbD k) = r.value.getLsbD k := by
  simp only [OpRow.accepts, beq_iff_eq]
  constructor
  · intro h k _
    rw [← h]
    simp
  · intro h
    apply BitVec.eq_of_getLsbD_eq
    intro k hk
    simpa using h k hk

/-- A word that no row accepts is rejected (spec/30_encoding.md R91 step 1). -/
theorem decode_error_of_none {w : Word} (h : ∀ r ∈ opcodeTable, r.accepts w = false) :
    ∃ e, decode w = .error e := by
  have : opcodeTable.find? (fun r => r.accepts w) = none := by
    rw [List.find?_eq_none]
    intro r hr
    simp [h r hr]
  exact ⟨_, by rw [decode, this]⟩

end Sys2Proof
end

