-- ==== Sys2Proof/Laws/Fetch.lean ====
section
/-! SUPPORT. Which event happens next (spec/42_host_commands.md R176): the first word that is not a host command, when a
waiting RECVB is ready, and the step while it is outstanding. -/

namespace Sys2Proof.Machine

/-! ### Host words -/

theorem isHostWord_ok {w : Word} {i : Instr} (h : decode w = .ok i) : isHostWord w = decide (i.agent = .host) := by
  simp [isHostWord, h]

theorem isHostWord_error {w : Word} {e : DecodeError} (h : decode w = .error e) : isHostWord w = false := by
  simp [isHostWord, h]

theorem isHostWord_iff {w : Word} : isHostWord w = true ↔ ∃ i, decode w = .ok i ∧ i.agent = .host := by
  cases h : decode w with
  | ok i => simp [isHostWord, h]
  | error e => simp [isHostWord, h]

/-! ### The first word that is not a host command -/

theorem takeEnvironment_append {pre post : List Word} {w : Word} (hp : ∀ x ∈ pre, isHostWord x = true)
    (hw : isHostWord w = false) : takeEnvironment (pre ++ w :: post) = some (w, pre ++ post) := by
  induction pre with
  | nil => simp [takeEnvironment, hw]
  | cons x pre ih =>
    obtain ⟨hx, hp⟩ := List.forall_mem_cons.mp hp
    simp [takeEnvironment, hx, ih hp]

theorem takeEnvironment_none {ws : List Word} (h : ∀ x ∈ ws, isHostWord x = true) : takeEnvironment ws = none := by
  induction ws with
  | nil => rfl
  | cons x ws ih =>
    obtain ⟨hx, h⟩ := List.forall_mem_cons.mp h
    simp [takeEnvironment, hx, ih h]

/-- What was taken is not a host command, and the words before it are. -/
theorem takeEnvironment_some {ws rest : List Word} {w : Word} (h : takeEnvironment ws = some (w, rest)) :
    isHostWord w = false ∧
      ∃ pre post, ws = pre ++ w :: post ∧ rest = pre ++ post ∧ ∀ x ∈ pre, isHostWord x = true := by
  induction ws generalizing rest with
  | nil => cases h
  | cons x ws ih =>
    rw [takeEnvironment] at h
    cases hx : isHostWord x with
    | false =>
      simp only [hx, Bool.false_eq_true, if_false, Option.some.injEq, Prod.mk.injEq] at h
      obtain ⟨rfl, rfl⟩ := h
      exact ⟨hx, [], ws, rfl, rfl, by simp⟩
    | true =>
      cases ht : takeEnvironment ws with
      | none => simp [hx, ht] at h
      | some p =>
        simp only [hx, ht, if_true, Option.some.injEq, Prod.mk.injEq] at h
        obtain ⟨rfl, rfl⟩ := h
        obtain ⟨hw, pre, post, rfl, he, hp⟩ := ih ht
        exact ⟨hw, x :: pre, post, rfl, by rw [he]; rfl, List.forall_mem_cons.mpr ⟨hx, hp⟩⟩

/-! ### When a waiting RECVB is ready -/

/-- A RECVB of an active channel is ready exactly when a message is pending on it (spec/42_host_commands.md R176). -/
theorem recvReady_iff {s : State} (h : BlockInv s) {name : Byte} {k : Nat} {r : Channel}
    (hl : s.lookup name = some (k, r)) : recvReady name s = true ↔ r.rxPend ≠ [] := by
  obtain ⟨hk, hr, -, -⟩ := lookup_some hl
  have hi := h.initialized_of_active hk
  have hok := h.channelOk hk hr
  cases hq : r.rxPend with
  | nil => simp [recvReady_of (receive_empty hi hl hq)]
  | cons n pend =>
    obtain ⟨m, -, -, he⟩ := receive_head hi hl hq hok.arenas hok.pools
    simp [recvReady_of he, classify_ne_bufferEmpty]

/-! ### The step while a RECVB is outstanding -/

/-- The waiting command is performed: it is ready and the host is scheduled. -/
theorem step_waiting_performs {s : State} (hc : s.cfg.legal = true) {name : Byte} (ho : s.outstanding = some name)
    (hr : recvReady name s = true) (ht : s.hostScheduled = true) :
    step s = exec (.recvb name) { s with hostTurns := s.hostTurns.tail } := by
  simp [step, fetch, hc, ho, fetchWaiting, hr, ht]

/-- The waiting command is not ready: the environment goes on. -/
theorem fetch_waiting_holds {s : State} (hc : s.cfg.legal = true) {name : Byte} (ho : s.outstanding = some name)
    (hr : recvReady name s = false) : fetch s = fetchEnvironment s := by
  simp [fetch, hc, ho, fetchWaiting, hr]

/-- The waiting command is ready and the host is not scheduled: the turn is spent and the environment goes on. -/
theorem fetch_waiting_spends {s : State} (hc : s.cfg.legal = true) {name : Byte} (ho : s.outstanding = some name)
    (hr : recvReady name s = true) (ht : s.hostScheduled = false) :
    fetch s = fetchEnvironment { s with hostTurns := s.hostTurns.tail } := by
  simp [fetch, hc, ho, fetchWaiting, hr, ht]

end Sys2Proof.Machine
end

