-- ==== Sys2Proof/Laws/Inversion.lean ====
section
/-! SUPPORT. What each event can do when it answers a next state, in every state, the unreachable ones too. -/

namespace Sys2Proof.Machine

/-! ### TICK and LINE -/

/-- A pass writes nothing but channel records and lines when its step does. -/
theorem pass_frame {f : State → Nat → Except Fault State}
    (hf : ∀ s c t, f s c = .ok t → t = { s with ch := t.ch, line := t.line }) {order : List Nat} :
    ∀ {s t : State}, pass f order s = .ok t → t = { s with ch := t.ch, line := t.line } := by
  induction order with
  | nil =>
    intro s t h
    cases h
    rfl
  | cons c rest ih =>
    intro s t h
    change (f s c >>= fun s' => pass f rest s') = .ok t at h
    cases hc : f s c with
    | error e => rw [hc] at h; cases h
    | ok u =>
      rw [hc] at h
      rw [ih h, hf s c u hc]

theorem rxAt_frame (s : State) (c : Nat) (t : State) (h : rxAt s c = .ok t) :
    t = { s with ch := t.ch, line := t.line } := by
  unfold rxAt at h
  cases hs : s.slot c with
  | error e => rw [hs] at h; cases h
  | ok r =>
    simp only [hs, ok_bind] at h
    split at h
    · cases hr : rxStep s.cfg s.line r with
      | error e => rw [hr] at h; cases h
      | ok r' => rw [hr] at h; cases h; rfl
    · cases h
      rfl

theorem txAt_frame (s : State) (c : Nat) (t : State) (h : txAt s c = .ok t) :
    t = { s with ch := t.ch, line := t.line } := by
  unfold txAt at h
  cases hs : s.slot c with
  | error e => rw [hs] at h; cases h
  | ok r =>
    simp only [hs, ok_bind] at h
    split at h
    · cases hr : txStep s.cfg r with
      | error e => rw [hr] at h; cases h
      | ok p =>
        obtain ⟨r', d⟩ := p
        rw [hr] at h
        cases d with
        | none => cases h; rfl
        | some v =>
          simp only [ok_bind] at h
          cases hl : lineWrite s.line r.txPin v with
          | error e => rw [hl] at h; cases h
          | ok l => rw [hl] at h; cases h; rfl
    · cases h
      rfl

/-- A TICK writes nothing but channel records and lines (spec/41_tick_dispatcher.md R130). -/
theorem execTick_frame {s t : State} (h : execTick s = .next t) : t = { s with ch := t.ch, line := t.line } := by
  unfold execTick at h
  split at h
  · cases h
    rfl
  · rw [finish_eq_next] at h
    unfold tickOver at h
    cases hr : pass rxAt s.chActive s with
    | error e => rw [hr] at h; cases h
    | ok u =>
      rw [hr, ok_bind] at h
      rw [pass_frame txAt_frame h, pass_frame rxAt_frame hr]

/-- LINE writes nothing but the lines (spec/43_line_environment.md R211). -/
theorem execLine_frame {s t : State} {pin : Byte} {v : Bool} (h : execLine pin v s = .next t) :
    t = { s with line := t.line } := by
  unfold execLine at h
  split at h
  · cases h
  · rw [finish_eq_next] at h
    cases hl : lineWrite s.line pin v with
    | error e => rw [hl] at h; cases h
    | ok l => rw [hl] at h; cases h; rfl

/-! ### Host commands -/

/-- Every outcome of RECV (spec/42_host_commands.md R175): nothing changed and no data, or the head message taken. -/
theorem receive_inv {name : Byte} {s t : State} {code : ResultCode} {data : Byte}
    (h : receive name s = .ok (code, data, t)) :
    (t = s ∧ data = 0 ∧ (code = .notInitialized ∨ code = .unknownName ∨ code = .bufferEmpty)) ∨
    (∃ k r r' m, s.initialized = true ∧ code = classify m ∧ data = m.data ∧ s.lookup name = some (k, r) ∧
      r.dequeueRx = .ok (some (m, r')) ∧ t = s.setSlot k r') := by
  unfold receive at h
  split at h
  · cases h
    exact .inl ⟨rfl, rfl, .inl rfl⟩
  · split at h
    · cases h
      exact .inl ⟨rfl, rfl, .inr (.inl rfl)⟩
    · rename_i k r hl
      cases hd : r.dequeueRx with
      | error e => rw [hd] at h; cases h
      | ok o =>
        rw [hd] at h
        cases o with
        | none => cases h; exact .inl ⟨rfl, rfl, .inr (.inr rfl)⟩
        | some p =>
          obtain ⟨m, r'⟩ := p
          cases h
          exact .inr ⟨k, r, r', m, by simp_all, rfl, rfl, hl, hd, rfl⟩

theorem execRecv_inv {name : Byte} {s t : State} (h : execRecv name s = .next t) :
    ∃ code data u, receive name s = .ok (code, data, u) ∧ t = u.respond code data := by
  unfold execRecv at h
  rw [finish_eq_next] at h
  cases hr : receive name s with
  | error e => rw [hr] at h; cases h
  | ok p =>
    obtain ⟨code, data, u⟩ := p
    rw [hr] at h
    cases h
    exact ⟨_, _, _, rfl, rfl⟩

theorem execRecvb_inv {name : Byte} {s t : State} (h : execRecvb name s = .next t) :
    ∃ code data u, receive name s = .ok (code, data, u) ∧
      t = if code = .bufferEmpty then { s with outstanding := some name }
        else { u with outstanding := none }.respond code data := by
  unfold execRecvb at h
  rw [finish_eq_next] at h
  cases hr : receive name s with
  | error e => rw [hr] at h; cases h
  | ok p =>
    obtain ⟨code, data, u⟩ := p
    rw [hr] at h
    cases h
    exact ⟨_, _, _, rfl, rfl⟩

/-- Every outcome of SEND (spec/42_host_commands.md R174). -/
theorem execSend_inv {name data : Byte} {c b : Bool} {s t : State} (h : execSend name data c b s = .next t) :
    (∃ code, code ≠ .ok ∧ t = s.respond code 0) ∨
    (∃ k r r', s.initialized = true ∧ s.lookup name = some (k, r) ∧
      r.enqueueTx (sentMessage data c b) = .ok (some r') ∧ t = (s.setSlot k r').respond .ok 0) := by
  unfold execSend at h
  split at h
  · cases h
    exact .inl ⟨_, by simp, rfl⟩
  · split at h
    · cases h
      exact .inl ⟨_, by simp, rfl⟩
    · rename_i k r hl
      rw [finish_eq_next] at h
      cases hd : r.enqueueTx (sentMessage data c b) with
      | error e => rw [hd] at h; cases h
      | ok o =>
        rw [hd] at h
        cases o with
        | none => cases h; exact .inl ⟨_, by simp, rfl⟩
        | some r' => cases h; exact .inr ⟨k, r, r', by simp_all, hl, hd, rfl⟩

theorem pushBack_inv {owned pool pool' : List Nat} {n : Nat} (h : pushBack owned pool n = .ok pool') :
    n ∉ owned ∧ pool' = pool ++ [n] := by
  unfold pushBack at h
  split at h
  · cases h
  · rename_i hn
    cases h
    exact ⟨hn, rfl⟩

/-- What the effect of ADD does to the fields that no channel record holds. -/
theorem addChannel_frame {s t : State} {c : Nat} {free : List Nat} {name txPin rxPin : Byte}
    (h : s.addChannel c free name txPin rxPin = .ok t) :
    t.responses = s.responses ∧ t.outstanding = s.outstanding ∧ t.initialized = s.initialized ∧
      t.chActive = s.chActive ++ [c] := by
  unfold State.addChannel at h
  cases h1 : pushBack (free ++ s.chActive) s.chActive c with
  | error e => rw [h1] at h; cases h
  | ok active =>
  rw [h1, ok_bind] at h
  cases h2 : s.slot c with
  | error e => rw [h2] at h; cases h
  | ok r =>
  rw [h2, ok_bind] at h
  cases h3 : configurePin s.dir txPin .output with
  | error e => rw [h3] at h; cases h
  | ok dirOut =>
  rw [h3, ok_bind] at h
  cases h4 : configurePin dirOut rxPin .input with
  | error e => rw [h4] at h; cases h
  | ok dir =>
  rw [h4, ok_bind] at h
  cases h5 : lineWrite s.line txPin true with
  | error e => rw [h5] at h; cases h
  | ok levels =>
  rw [h5, ok_bind] at h
  cases h6 : lineRead levels rxPin with
  | error e => rw [h6] at h; cases h
  | ok seed =>
  rw [h6, ok_bind] at h
  cases h7 : (r.configured name txPin rxPin seed).enqueueTx blankMessage with
  | error e => rw [h7] at h; cases h
  | ok o =>
  rw [h7, ok_bind] at h
  cases o with
  | none => cases h
  | some r' =>
    cases h
    exact ⟨rfl, rfl, rfl, (pushBack_inv h1).2⟩

/-- Every outcome of ADD (spec/42_host_commands.md R173). -/
theorem execAdd_inv {name txPin rxPin : Byte} {s t : State} (h : execAdd name txPin rxPin s = .next t) :
    (∃ code, code ≠ .ok ∧ t = s.respond code 0) ∨
    (∃ c free u, s.initialized = true ∧ s.chFree = c :: free ∧ s.addChannel c free name txPin rxPin = .ok u ∧
      t = u.respond .ok 0) := by
  unfold execAdd at h
  split at h
  · cases h
  · split at h
    · cases h
      exact .inl ⟨_, by simp, rfl⟩
    · split at h
      · cases h
        exact .inl ⟨_, by simp, rfl⟩
      · rename_i c free hp
        split at h
        · cases h
          exact .inl ⟨_, by simp, rfl⟩
        · split at h
          · cases h
            exact .inl ⟨_, by simp, rfl⟩
          · rw [finish_eq_next] at h
            cases ha : s.addChannel c free name txPin rxPin with
            | error e => rw [ha] at h; cases h
            | ok u =>
              rw [ha] at h
              cases h
              refine .inr ⟨c, free, u, by simp_all, ?_, ha, rfl⟩
              cases hf : s.chFree with
              | nil => rw [hf] at hp; cases hp
              | cons a l => rw [hf] at hp; cases hp; rfl

end Sys2Proof.Machine
end

