-- ==== Sys2Proof/Laws/LinkedPool.lean ====
section
/-! SUPPORT. The links after each write of the linked pools (spec/40_fifo_controller.md R110): one lemma per field per
operation. -/

namespace Sys2Proof.Machine

theorem nx_setNext (l : Links) (i : Nat) (v : Option Nat) (j : Nat) (hi : i < l.next.length) :
    (l.setNext i v).nx j = if j = i then v else l.nx j := by
  unfold Links.nx Links.setNext
  by_cases h : j = i
  · subst h
    simp [hi]
  · simp [h, Ne.symm h]

@[simp] theorem pv_setNext (l : Links) (i : Nat) (v : Option Nat) (j : Nat) : (l.setNext i v).pv j = l.pv j := rfl

theorem pv_setPrev (l : Links) (i : Nat) (v : Option Nat) (j : Nat) (hi : i < l.prev.length) :
    (l.setPrev i v).pv j = if j = i then v else l.pv j := by
  unfold Links.pv Links.setPrev
  by_cases h : j = i
  · subst h
    simp [hi]
  · simp [h, Ne.symm h]

@[simp] theorem nx_setPrev (l : Links) (i : Nat) (v : Option Nat) (j : Nat) : (l.setPrev i v).nx j = l.nx j := rfl

@[simp] theorem length_next_setNext (l : Links) (i : Nat) (v : Option Nat) :
    (l.setNext i v).next.length = l.next.length := by simp [Links.setNext]

@[simp] theorem length_prev_setNext (l : Links) (i : Nat) (v : Option Nat) :
    (l.setNext i v).prev.length = l.prev.length := rfl

@[simp] theorem length_next_setPrev (l : Links) (i : Nat) (v : Option Nat) :
    (l.setPrev i v).next.length = l.next.length := rfl

@[simp] theorem length_prev_setPrev (l : Links) (i : Nat) (v : Option Nat) :
    (l.setPrev i v).prev.length = l.prev.length := by simp [Links.setPrev]

@[simp] theorem length_next_join (l : Links) (a b : Nat) : (l.join a b).next.length = l.next.length := by
  simp [Links.join]

@[simp] theorem length_prev_join (l : Links) (a b : Nat) : (l.join a b).prev.length = l.prev.length := by
  simp [Links.join]

@[simp] theorem length_next_release (l : Links) (n : Nat) : (l.release n).next.length = l.next.length := by
  simp [Links.release]

@[simp] theorem length_prev_release (l : Links) (n : Nat) : (l.release n).prev.length = l.prev.length := by
  simp [Links.release]

theorem nx_join (l : Links) (a b j : Nat) (ha : a < l.next.length) :
    (l.join a b).nx j = if j = a then some b else l.nx j := by
  simp [Links.join, nx_setNext l a (some b) j ha]

theorem pv_join (l : Links) (a b j : Nat) (hb : b < l.prev.length) :
    (l.join a b).pv j = if j = b then some a else l.pv j := by
  simp [Links.join, pv_setPrev (l.setNext a (some b)) b (some a) j (by simpa using hb)]

theorem nx_release (l : Links) (n j : Nat) (hn : n < l.next.length) :
    (l.release n).nx j = if j = n then none else l.nx j := by
  simp [Links.release, nx_setNext l n none j hn]

theorem pv_release (l : Links) (n j : Nat) (hn : n < l.prev.length) :
    (l.release n).pv j = if j = n then none else l.pv j := by
  simp [Links.release, pv_setPrev (l.setNext n none) n none j (by simpa using hn)]

/-- In a linked list of nodes every node but the last has a successor. -/
theorem linked_nx {l : Links} {xs : List Nat} {last n : Nat} (h : l.Linked (xs ++ [last])) (hn : n ∈ xs) :
    l.nx n ≠ none := by
  induction xs with
  | nil => cases hn
  | cons a xs ih =>
    cases xs with
    | nil =>
      obtain ⟨⟨hx, -⟩, -⟩ := h
      rw [List.mem_singleton.mp hn, hx]
      simp
    | cons b xs =>
      obtain ⟨⟨hx, -⟩, hl⟩ := h
      rcases List.mem_cons.mp hn with rfl | hn
      · rw [hx]
        simp
      · exact ih hl hn

/-- A member of a represented pool has a successor (spec/40_fifo_controller.md R110 (ii)). -/
theorem represents_nx {l : Links} {head : Option Nat} {xs : List Nat} {n : Nat} (h : Represents l head xs)
    (hn : n ∈ xs) : l.nx n ≠ none := by
  obtain ⟨-, -, -, hl⟩ := h
  cases xs with
  | nil => cases hn
  | cons a xs => exact linked_nx (by simpa using hl) hn

end Sys2Proof.Machine
end

