-- ==== Sys2Proof/Laws/PerInstr.lean ====
section
/-! SUPPORT. Per instruction: the word of an event matches the row of its mnemonic (spec/30_encoding.md R86). -/

namespace Sys2Proof.Laws

/-- The row of spec/30_encoding.md R86 for each operation. -/
def rowOf : Op → OpRow
  | .tick => { op := .tick, value := 0x00000000, mask := 0xFFFFFFFF }
  | .init => { op := .init, value := 0x00000001, mask := 0xFFFFFFFF }
  | .add => { op := .add, value := 0x00000002, mask := 0x000000FF }
  | .send => { op := .send, value := 0x00000003, mask := 0xFF0000CF }
  | .recv => { op := .recv, value := 0x00000004, mask := 0xFFFF00FF }
  | .recvb => { op := .recvb, value := 0x00000005, mask := 0xFFFF00FF }
  | .clrtx => { op := .clrtx, value := 0x00000006, mask := 0xFFFF00FF }
  | .clrrx => { op := .clrrx, value := 0x00000016, mask := 0xFFFF00FF }
  | .line => { op := .line, value := 0x00000007, mask := 0xFF00FFEF }

theorem rowOf_mem (op : Op) : rowOf op ∈ opcodeTable := by cases op <;> decide

/-- The word of an event matches its row. -/
def RowMatch.Statement (i : Instr) : Prop := (rowOf i.op).accepts (encode i) = true

theorem RowMatch.tick : RowMatch.Statement .tick := rfl

theorem RowMatch.init : RowMatch.Statement .init := rfl

theorem RowMatch.add (name txPin rxPin : Byte) : RowMatch.Statement (.add name txPin rxPin) := by
  refine (accepts_iff _ _).mpr fun k hk => ?_
  simp only [rowOf, Instr.op, encode, packWord_bit]
  interval_cases k <;> simp

theorem RowMatch.send (name data : Byte) (c b : Bool) : RowMatch.Statement (.send name data c b) := by
  refine (accepts_iff _ _).mpr fun k hk => ?_
  simp only [rowOf, Instr.op, encode, packWord_bit]
  interval_cases k <;> simp

theorem RowMatch.recv (name : Byte) : RowMatch.Statement (.recv name) := by
  refine (accepts_iff _ _).mpr fun k hk => ?_
  simp only [rowOf, Instr.op, encode, packWord_bit]
  interval_cases k <;> simp

theorem RowMatch.recvb (name : Byte) : RowMatch.Statement (.recvb name) := by
  refine (accepts_iff _ _).mpr fun k hk => ?_
  simp only [rowOf, Instr.op, encode, packWord_bit]
  interval_cases k <;> simp

theorem RowMatch.clrtx (name : Byte) : RowMatch.Statement (.clrtx name) := by
  refine (accepts_iff _ _).mpr fun k hk => ?_
  simp only [rowOf, Instr.op, encode, packWord_bit]
  interval_cases k <;> simp

theorem RowMatch.clrrx (name : Byte) : RowMatch.Statement (.clrrx name) := by
  refine (accepts_iff _ _).mpr fun k hk => ?_
  simp only [rowOf, Instr.op, encode, packWord_bit]
  interval_cases k <;> simp

theorem RowMatch.line (pin : Byte) (v : Bool) : RowMatch.Statement (.line pin v) := by
  refine (accepts_iff _ _).mpr fun k hk => ?_
  simp only [rowOf, Instr.op, encode, packWord_bit]
  interval_cases k <;> simp

end Sys2Proof.Laws
end

