-- ==== Sys2Proof/Laws/Run.lean ====
section
/-! SUPPORT. Several ticks in a row: the counter and the receive machine over many ticks (spec/41_tick_dispatcher.md R132
to R141), one TICK as one channel sees it, and runs of TICKs. -/

namespace Sys2Proof.Machine

/-! ### Bits of the scratch byte -/

/-- Setting bit `k` of a byte changes no other bit (spec/41_tick_dispatcher.md R137). -/
theorem setBit_getLsbD (d : Byte) (k : Fin 8) (v : Bool) (j : Nat) :
    (setBit d k v).getLsbD j = if j = k.val then v else d.getLsbD j := by
  unfold setBit
  have hk := k.isLt
  split
  · rename_i hv
    simp only [BitVec.getLsbD_or, BitVec.getLsbD_twoPow, hv]
    by_cases hj : j = k.val
    · subst hj
      simp
    · simp [hj, Ne.symm hj]
  · rename_i hv
    simp only [BitVec.getLsbD_and, BitVec.getLsbD_not, BitVec.getLsbD_twoPow, hv]
    by_cases hj : j = k.val
    · subst hj
      simp
    · by_cases h8 : j < 8
      · simp [h8, hj, Ne.symm hj]
      · simp [hj, BitVec.getLsbD_of_ge d j (by omega)]

/-! ### The quantum counter over many ticks -/

theorem advanceTimes_add (T a b : Nat) (m : BitMachine) :
    advanceTimes T (a + b) m = advanceTimes T b (advanceTimes T a m) := by
  induction a generalizing m with
  | zero => simp [advanceTimes]
  | succ a ih =>
    rw [Nat.add_right_comm]
    exact ih _

/-- Inside one state the counter counts (spec/41_tick_dispatcher.md R132). -/
theorem advanceTimes_inside {T : Nat} {m : BitMachine} {n : Nat} (h : m.q + n < T) :
    advanceTimes T n m = { m with q := m.q + n } := by
  induction n generalizing m with
  | zero => rfl
  | succ n ih =>
    show advanceTimes T n (advance T m).1 = _
    rw [advance_same (by omega), ih (by show m.q + 1 + n < T; omega)]
    simp only [BitMachine.mk.injEq, true_and, and_true]
    omega

/-! ### The receive machine over many ticks -/

/-- A tick of a busy RX machine that stays busy (spec/41_tick_dispatcher.md R132, R135, R141). -/
theorem rxStepWith_busy {cfg : Config} {r : Channel} {v : Bool} (hp : r.rx.pos ≠ .idle)
    (hm : (advance cfg.T r.rx).1.pos ≠ .idle) :
    rxStepWith cfg r v = .ok { r with
      rx := if (advance cfg.T r.rx).1.q = cfg.S then rxSample (advance cfg.T r.rx).1 v else (advance cfg.T r.rx).1
      last := v } := by
  simp [rxStepWith, hp, rxBusy, hm, rxSettle]

theorem rxRun_append (cfg : Config) (xs ys : List Bool) (r : Channel) :
    rxRun cfg (xs ++ ys) r = (rxRun cfg xs r >>= fun r' => rxRun cfg ys r') := by
  induction xs generalizing r with
  | nil => rfl
  | cons v vs ih =>
    show (rxStepWith cfg r v >>= fun r' => rxRun cfg (vs ++ ys) r') =
      ((rxStepWith cfg r v >>= fun r' => rxRun cfg vs r') >>= _)
    cases rxStepWith cfg r v with
    | error e => rfl
    | ok u => exact ih u

/-- A sample that does not abandon the frame leaves the position and the counter (spec/41_tick_dispatcher.md R136 to
R139). -/
theorem rxSample_keeps (m : BitMachine) (v : Bool) (h : m.pos = .start → v = false) :
    (rxSample m v).pos = m.pos ∧ (rxSample m v).q = m.q := by
  unfold rxSample
  split
  · simp
  · rename_i hs
    simp [h hs]
  · simp
  · simp
  · split <;> simp

/-- What a sample does to the scratch does not depend on the counter. -/
theorem rxSample_scr (p : BitPos) (q q' : Nat) (scr : Message) (v : Bool) :
    (rxSample ⟨p, q, scr⟩ v).scr = (rxSample ⟨p, q', scr⟩ v).scr := by
  unfold rxSample
  cases p <;> simp <;> split <;> rfl

/-! ### One TICK as one channel sees it -/

/-- One TICK at an active channel (spec/41_tick_dispatcher.md R130): its record is what TxStep makes of what RxStep makes
of it with the lines of the start, and its TX pin has the level it drives. -/
theorem tick_channel {s : State} (h : BlockInv s) {c : Nat} {r : Channel} (hc : c ∈ s.chActive)
    (hr : s.ch[c]? = some r) :
    ∃ t r1 r2 d, exec .tick s = .next t ∧ BlockInv t ∧ t = { s with ch := t.ch, line := t.line } ∧
      rxStep s.cfg s.line r = .ok r1 ∧ RxFrame r r1 ∧ ChannelOk s.cfg r1 ∧
      txStep s.cfg r1 = .ok (r2, d) ∧ TxFrame r1 r2 ∧ ChannelOk s.cfg r2 ∧
      t.ch[c]? = some r2 ∧ t.level r.txPin = d.or (s.level r.txPin) := by
  obtain ⟨t, he, ht, hfr, hvis, -, -⟩ := tickOver_ok h h.active_nodup (fun c hc => hc)
  obtain ⟨x, r1, r2, d, hx, h1, h2, f1, f2, k1, k2, h3, h4⟩ := hvis c hc
  rw [hr] at hx
  cases hx
  refine ⟨t, r1, r2, d, ?_, ht, hfr, h1, f1, k1, h2, f2, k2, h3, h4⟩
  show execTick s = _
  simp [execTick, h.initialized_of_active hc, he]

theorem tickTimes_next {n : Nat} {s t : State} (h : exec .tick s = .next t) : tickTimes (n + 1) s = tickTimes n t := by
  simp [tickTimes, h]

/-- A run of TICKs, seen from its end. -/
theorem tickTimes_succ {n : Nat} {s t : State} (h : tickTimes n s = .next t) : tickTimes (n + 1) s = exec .tick t := by
  induction n generalizing s with
  | zero =>
    obtain rfl : s = t := by simpa [tickTimes] using h
    simp only [tickTimes]
    cases exec .tick s <;> rfl
  | succ n ih =>
    simp only [tickTimes] at h
    cases he : exec .tick s with
    | next u => rw [he] at h; exact (tickTimes_next he).trans (ih h)
    | fault f => rw [he] at h; cases h
    | refused r => rw [he] at h; cases h

end Sys2Proof.Machine
end

