-- ==== Sys2Proof/Tests/Slice0.lean ====
section
/-! SUPPORT. Tests: the well-formedness smoke test, decoding of words written out from spec/30_encoding.md, one-step
tests from spec/95_test_vectors.md, and for each statement with hypotheses a theorem that names inputs meeting them. -/

namespace Sys2Proof.Tests

open Sys2Proof.Machine

/-! ### Helpers -/

/-- Whether an event answers a next state that meets `p`. -/
def nextMeets (o : Host.Outcome State Fault Refusal) (p : State → Bool) : Bool :=
  match o with
  | .next t => p t
  | .fault _ => false
  | .refused _ => false

/-- Whether an event is refused for this reason. -/
def refusedFor (o : Host.Outcome State Fault Refusal) (r : Refusal) : Bool :=
  match o with
  | .refused r' => decide (r' = r)
  | .next _ => false
  | .fault _ => false

theorem exists_of_nextMeets {o : Host.Outcome State Fault Refusal} {p : State → Bool} (h : nextMeets o p = true) :
    ∃ t, o = .next t ∧ p t = true := by
  cases o with
  | next t => exact ⟨t, rfl, h⟩
  | fault f => cases h
  | refused r => cases h

/-- Two pins, two slots, depth two, two ticks to a bit. -/
def small : Config := { nch := 2, txd := 2, rxd := 2, T := 2, S := 1, npins := 2, line0 := [true, true] }

/-- A slot that INIT linked. -/
def freshSlot : Channel := (Channel.blankSlot small).initPools small

/-- An idle channel 'Z' that transmits and receives on pin 0, with empty queues. -/
def idleZ : Channel :=
  { freshSlot with name := 0x5A, txEn := true, rxEn := true, last := true }

/-- A message that SEND queues. -/
def msg (data : Byte) (c b : Bool) : Message := sentMessage data c b

/-- 'Z' with one message queued to send, in node 0. -/
def queuedZ (m : Message) : Channel := { idleZ with txFree := [1], txPend := [0], txPay := [m, Message.zero] }

/-- 'Z' with one received message, in node 1. -/
def receivedZ (m : Message) : Channel := { idleZ with rxFree := [0], rxPend := [1], rxPay := [Message.zero, m] }

/-- 'Z' with its receive machine somewhere in a frame. -/
def receivingZ (pos : BitPos) (q : Nat) : Channel := { idleZ with rx := { pos := pos, q := q, scr := Message.zero } }

/-- 'Z' with its transmit machine somewhere in a frame. -/
def sendingZ (pos : BitPos) (q : Nat) (m : Message) : Channel := { idleZ with tx := { pos := pos, q := q, scr := m } }

/-- The block after INIT, with no channel. -/
def ready : State := (State.resetOf small).initAll

/-- The block with one channel, in slot 0. -/
def base (r : Channel) : State := { ready with chFree := [1], chActive := [0], ch := [r, freshSlot] }

theorem small_reset_inv : BlockInv (State.resetOf small) where
  config := by decide
  pins := by decide
  slots := by decide
  arenas := by decide
  beforeInit := by decide
  registry := by decide
  pools := by decide
  fresh := by decide
  active := by decide
  names := by decide
  txPins := by decide
  waiting := by decide

theorem ready_inv : BlockInv ready where
  config := by decide
  pins := by decide
  slots := by decide
  arenas := by decide
  beforeInit := by decide
  registry := by decide
  pools := by decide
  fresh := by decide
  active := by decide
  names := by decide
  txPins := by decide
  waiting := by decide

theorem base_inv {r : Channel} (ha : ArenaSizes small r) (hp : PoolPartition small r) (hr : ActiveOk small r) :
    BlockInv (base r) where
  config := ready_inv.config
  pins := ready_inv.pins
  slots := rfl
  arenas := by
    intro x hx
    rcases List.mem_cons.mp hx with rfl | hx
    · exact ha
    · exact ready_inv.arenas x (List.mem_cons_of_mem _ hx)
  beforeInit := by intro hi; cases hi
  registry := fun _ => by show ([1] ++ [0]).Perm (List.range 2); decide
  pools := by
    intro hi x hx
    rcases List.mem_cons.mp hx with rfl | hx
    · exact hp
    · exact ready_inv.pools hi x (List.mem_cons_of_mem _ hx)
  fresh := by
    intro c hc x hx
    rw [List.mem_singleton.mp hc] at hx
    exact ready_inv.fresh 1 (by decide) x hx
  active := by
    intro x hx
    rw [List.mem_singleton.mp (show x ∈ [r] from hx)]
    exact hr
  names := List.nodup_singleton _
  txPins := List.nodup_singleton _
  waiting := by intro n hn; cases hn

theorem idle_inv : BlockInv (base idleZ) := base_inv (by decide) (by decide) (by decide)

theorem queued_inv : BlockInv (base (queuedZ (msg 0x2D false false))) :=
  base_inv (by decide) (by decide) (by decide)

theorem received_inv : BlockInv (base (receivedZ Message.zero)) := base_inv (by decide) (by decide) (by decide)

/-! ### Well-formedness (spec/30_encoding.md R89, V-ENC-16 and V-ENC-17) -/

theorem test_wellFormed_refuses_bad_pins :
    Instr.wellFormed 2 (.add 0x41 2 0) = false ∧ Instr.wellFormed 2 (.add 0x41 0 2) = false ∧
      Instr.wellFormed 2 (.line 255 false) = false := by decide

theorem test_wellFormed_accepts_edge_pins :
    Instr.wellFormed 2 (.add 0x41 1 1) = true ∧ Instr.wellFormed 256 (.line 255 true) = true ∧
      Instr.wellFormed 1 (.send 0xFF 0xFF true true) = true := by decide

/-! ### Decoding (spec/30_encoding.md R85, R86, R89; V-ENC) -/

theorem test_decode_tick : decode 0b00000000000000000000000000000000#32 = .ok .tick := by decide

theorem test_decode_init : decode 0b00000000000000000000000000000001#32 = .ok .init := by decide

theorem test_decode_add : decode 0b00000001000000000100000100000010#32 = .ok (.add 0x41 0 1) := by decide

theorem test_decode_send :
    decode 0b00000000001011010100000100100011#32 = .ok (.send 0x41 0x2D false true) ∧
      decode 0b00000000001011010100000100010011#32 = .ok (.send 0x41 0x2D true false) := by decide

theorem test_decode_recv : decode 0b00000000000000000100001000000100#32 = .ok (.recv 0x42) := by decide

theorem test_decode_recvb : decode 0b00000000000000000100001000000101#32 = .ok (.recvb 0x42) := by decide

theorem test_decode_clrtx : decode 0b00000000000000000100000100000110#32 = .ok (.clrtx 0x41) := by decide

theorem test_decode_clrrx : decode 0b00000000000000000100000100010110#32 = .ok (.clrrx 0x41) := by decide

theorem test_decode_line : decode 0b00000000000001010000000000010111#32 = .ok (.line 5 true) := by decide

/-- V-ENC-7 to V-ENC-15. -/
theorem test_decode_refuses :
    decode 0x00000008 = .error .unusedOp ∧ decode 0x0000000F = .error .unusedOp ∧
      decode 0x00000100 = .error .reservedBits ∧ decode 0x00000010 = .error .reservedBits ∧
      decode 0x000000C3 = .error .reservedBits ∧ decode 0x80000003 = .error .reservedBits ∧
      decode 0x00000026 = .error .reservedBits ∧ decode 0x000041F4 = .error .reservedBits ∧
      decode 0x00010117 = .error .reservedBits := by decide

/-- The table's numbering is the event word's: bit 0 is the least significant. -/
theorem test_decodeTableWord :
    decodeTableWord 32 0x01004102 = some (.add 0x41 0 1) ∧ decodeTableWord 32 0x00000008 = none := by decide

/-- A word presented after reset is fetched and run by the next step. -/
theorem test_withFetchWord :
    nextMeets (step (State.reset.withFetchWord 32 0x00000001))
      (fun t => decide (t.initialized = true ∧ t.responses = [0x00000000] ∧ t.events = [])) = true := by decide

/-! ### Events, one step each -/

/-- V-INIT-1, V-TICK-3: a TICK before INIT changes nothing. -/
theorem test_tick_before_init : nextMeets (exec .tick (State.resetOf small)) (· = State.resetOf small) = true := by
  decide

/-- V-TICK-1, tick 1 (with T = 2): the queued message is popped and the start bit driven. -/
theorem test_tick_starts_frame :
    nextMeets (exec .tick (base (queuedZ (msg 0x2D false false))))
      (fun t => decide (t.line = [false, true] ∧
        t.ch[0]?.map (fun r => (r.tx.pos, r.txFree, r.txPend)) = some (BitPos.start, [1, 0], []))) = true := by decide

/-- V-INIT-2: a second INIT changes nothing and is Ok. -/
theorem test_init_again :
    nextMeets (exec .init (base idleZ)) (· = { base idleZ with responses := [0x00000000] }) = true := by decide

/-- V-ADD-1, V-ADD-3: the pools and the seed right after ADD. -/
theorem test_add :
    nextMeets (exec (.add 0x41 0 1) { ready with line := [false, false] })
      (fun t => decide (t.responses = [0x00000000] ∧ t.line = [true, false] ∧ t.chFree = [1] ∧ t.chActive = [0] ∧
        t.ch[0]?.map (fun r => (r.last, r.txFree, r.txPend)) = some (false, [1], [0]))) = true := by decide

/-- V-ADD-2: a name that is used, and a loopback channel whose seed is the level ADD has just driven. -/
theorem test_add_seed_after_drive :
    nextMeets (exec (.add 0x5A 1 1) (base idleZ)) (fun t => decide (t.responses = [0x00000003])) = true ∧
    nextMeets (exec (.add 0x44 1 1) { base idleZ with line := [true, false] })
      (fun t => decide (t.responses = [0x00000000] ∧ t.ch[1]?.map (·.last) = some true)) = true := by decide

/-- V-SEND-2: the stored message. -/
theorem test_send_stores :
    nextMeets (exec (.send 0x5A 0x2D true true) (base idleZ))
      (fun t => decide (t.responses = [0x00000000] ∧ t.ch[0]?.map (·.txQueue) =
        some [{ data := 0x2D, parity := false, isBlank := true, clearsRx := true, stopViolation := false }])) = true := by
  decide

/-- V-SEND-1: an unknown name. -/
theorem test_send_unknown :
    nextMeets (exec (.send 0x51 0x01 false false) (base idleZ)) (fun t => decide (t.responses = [0x00000002])) = true := by
  decide

/-- V-RECV-5: StopViolation wins over ParityError, and the slot is returned. -/
theorem test_recv_stop_violation :
    nextMeets (exec (.recv 0x5A) (base (receivedZ
        { data := 0xC3, parity := true, isBlank := false, clearsRx := false, stopViolation := true })))
      (fun t => decide (t.responses = [0x0000C308] ∧ t.ch[0]?.map (fun r => (r.rxFree, r.rxPend)) = some ([0, 1], [])))
      = true := by decide

/-- V-RECV-6, V-RECV-7. -/
theorem test_recv_parity_and_empty :
    nextMeets (exec (.recv 0x5A) (base (receivedZ
        { data := 0xFF, parity := true, isBlank := false, clearsRx := false, stopViolation := false })))
      (fun t => decide (t.responses = [0x0000FF07])) = true ∧
    nextMeets (exec (.recv 0x5A) (base idleZ)) (fun t => decide (t.responses = [0x00000006])) = true := by decide

/-- V-RECVB-1: RECVB holds without a response. -/
theorem test_recvb_holds :
    nextMeets (exec (.recvb 0x5A) (base idleZ)) (· = { base idleZ with outstanding := some 0x5A }) = true := by decide

/-- V-RECVB-1: RECVB returns the message. -/
theorem test_recvb_completes :
    nextMeets (exec (.recvb 0x5A) { base (receivedZ
        { data := 0x2D, parity := false, isBlank := false, clearsRx := false, stopViolation := false }) with
          outstanding := some 0x5A })
      (fun t => decide (t.responses = [0x00002D00] ∧ t.outstanding = none)) = true := by decide

/-- V-CLR-1: the queue goes to the tail of the free pool. -/
theorem test_clrtx :
    nextMeets (exec (.clrtx 0x5A) (base { idleZ with txFree := [1], txPend := [0] }))
      (fun t => decide (t.responses = [0x00000000] ∧ t.ch[0]?.map (fun r => (r.txFree, r.txPend)) = some ([1, 0], [])))
      = true := by decide

/-- V-RX-4: CLRRX marks the receive side in Idle too. -/
theorem test_clrrx :
    nextMeets (exec (.clrrx 0x5A) (base (receivedZ Message.zero)))
      (fun t => decide (t.responses = [0x00000000] ∧
        t.ch[0]?.map (fun r => (r.rxDrop, r.rxFree, r.rxPend)) = some (true, [0, 1], []))) = true := by decide

/-- V-LINE-1, with pin 1. -/
theorem test_line :
    nextMeets (exec (.line 1 false) (State.resetOf small))
      (· = { State.resetOf small with line := [true, false] }) = true := by decide

/-! ### Parity and pools -/

/-- V-PAR. -/
theorem test_parity8 :
    [0x00, 0x01, 0x03, 0x07, 0x2D, 0x40, 0x41, 0x55, 0x80, 0xC3, 0xFE, 0xFF].map (fun b : Byte => parity8 b) =
      [false, true, false, true, false, true, false, false, true, false, true, false] := by decide

/-- V-POOL-2, V-POOL-3. -/
theorem test_linked_init_and_push :
    linkedInit 4 = ({ next := [some 1, some 2, some 3, some 0], prev := [some 3, some 0, some 1, some 2] }, some 0) ∧
      linkedPushBack { next := [none, none, none], prev := [none, none, none] } none 2 =
        .ok ({ next := [none, none, some 2], prev := [none, none, some 2] }, some 2) := ⟨by decide, rfl⟩

/-- V-POOL-6, on links: `[2, 0, 1]` becomes `[0, 1]` and node 2 has no neighbours. -/
theorem test_linked_popFront :
    linkedPopFront { next := [some 1, some 2, some 0], prev := [some 2, some 0, some 1] } (some 2) =
      .ok (some 2, { next := [some 1, some 0, none], prev := [some 1, some 0, none] }, some 0) := rfl

/-! ### Witnesses: inputs that meet the hypotheses of each statement, clause by clause -/

theorem witness_EncodeOfDecode : decode 0x00FF0017 = .ok (.line 0xFF true) := by decide

theorem witness_NoWordMatchesTwoRows :
    ∃ row ∈ opcodeTable, row.accepts 0x00004116 = true :=
  ⟨{ op := .clrrx, value := 0x00000016, mask := 0xFFFF00FF }, by decide, by decide⟩

theorem witness_IllegalWordsAreRefused :
    (small.legal = true ∧ ((State.resetOf small).presentWord 0x8).outstanding = none) ∧
    (8 ≤ (opField 0x8).toNat ∧ 8 ≤ (opField 0xF).toNat) ∧
    ((opField 0x000000C7).toNat < 8 ∧
      ∀ row ∈ opcodeTable, opField row.value = opField 0x000000C7 →
        ∃ k < 32, row.mask.getLsbD k = true ∧ row.value.getLsbD k = false ∧ (0x000000C7#32).getLsbD k = true) ∧
    (decode 0x00020007 = .ok (.line 2 false) ∧ Instr.wellFormed small.npins (.line 2 false) = false) := by
  refine ⟨by decide, by decide, ⟨by decide, fun row _ hop => ⟨6, by decide, ?_⟩⟩, by decide⟩
  rename_i hrow
  revert hop
  revert row
  decide

theorem witness_SuccessorFollowsTheOrdinals :
    BitPos.start.ordinal = 1 ∧ BitPos.parity.ordinal = 10 ∧ BitPos.stop.ordinal = 11 ∧
      BitPos.ofOrdinal 12 = none := by decide

theorem witness_StepRunsTheNextEvent :
    small.legal = true ∧ (ready.presentWord 0x00000001).outstanding = none ∧
      (ready.presentWord 0x00000001).events = 0x00000001 :: [] ∧ decode 0x00000001 = .ok .init ∧ ready.events = [] := by
  decide

/-- The block while RECVB 'Z' holds, with a later host command and a TICK still to come. -/
def holding (r : Channel) (turns : List Bool) : State :=
  { base r with outstanding := some 0x5A, events := [0x00000001, 0x00000000], hostTurns := turns }

theorem holding_inv {r : Channel} (h : BlockInv (base r)) (hn : r.name = 0x5A) (turns : List Bool) :
    BlockInv (holding r turns) :=
  inv_port (s := { base r with outstanding := some 0x5A })
    (inv_hold h rfl (by show ((base r).find 0x5A).isSome = true; rw [← hn]; simp [base, State.find, State.hasName]))
    [0x00000001, 0x00000000] turns

/-- A receive machine in the last tick of Stop: the next TICK completes the frame. -/
theorem stop_inv : BlockInv (base (receivingZ .stop 1)) := base_inv (by decide) (by decide) (by decide)

/-- Nothing pending, with a TICK behind a host command; a message pending, with the host scheduled and not; any words
to come, so a host command alone and an illegal word too. -/
theorem witness_WaitingHostLetsOtherEventsHappen :
    (BlockInv (holding idleZ []) ∧ (holding idleZ []).outstanding = some 0x5A ∧ idleZ.name = 0x5A ∧
      0 ∈ (holding idleZ []).chActive ∧ (holding idleZ []).ch[0]? = some idleZ ∧ idleZ.rxPend = [] ∧
      (holding idleZ []).events = [0x00000001] ++ 0x00000000 :: [] ∧ decode 0x00000001 = .ok .init ∧
      decode 0x00000000 = .ok .tick ∧ Instr.agent .init = .host ∧ Instr.agent .tick ≠ .host) ∧
    (∀ turns, BlockInv (holding (receivedZ Message.zero) turns)) ∧
    (0 ∈ (holding (receivedZ Message.zero) []).chActive ∧
      (holding (receivedZ Message.zero) []).ch[0]? = some (receivedZ Message.zero) ∧
      (receivedZ Message.zero).name = 0x5A ∧ (receivedZ Message.zero).rxPend ≠ [] ∧
      (holding (receivedZ Message.zero) []).hostTurns.head? ≠ some false ∧
      (holding (receivedZ Message.zero) [false]).hostTurns = false :: []) ∧
    (∀ words, BlockInv { holding idleZ [] with events := words }) ∧ decode 0x8 = .error .unusedOp :=
  ⟨⟨holding_inv idle_inv rfl [], by decide⟩, holding_inv received_inv rfl, by decide,
    fun words => inv_port (holding_inv idle_inv rfl []) words [], by decide⟩

/-- The last clause too: this TICK makes the waiting command ready. -/
theorem witness_OnlyTickLiftsTheHold :
    BlockInv (holding (receivingZ .stop 1) []) ∧ (holding (receivingZ .stop 1) []).outstanding = some 0x5A ∧
      recvReady 0x5A (holding (receivingZ .stop 1) []) = false ∧
      ∃ t, step (holding (receivingZ .stop 1) []) = .next t ∧ recvReady 0x5A t = true :=
  ⟨holding_inv stop_inv rfl [], rfl, by decide, exists_of_nextMeets (by decide)⟩

theorem witness_IllegalConfigurationIsRefused :
    refusedFor (step (State.resetOf { small with S := 2 })) .illegalConfig = true ∧
      nextMeets (step (State.resetOf small)) (fun _ => true) = true := by decide

theorem witness_ResetMeetsTheInvariant : Config.legal { small with nch := 0, rxd := 0 } = true := by decide

theorem witness_StepKeepsTheInvariant :
    BlockInv (holding (receivingZ .stop 1) []) ∧ ∃ t, step (holding (receivingZ .stop 1) []) = .next t ∧ true = true :=
  ⟨holding_inv stop_inv rfl [], exists_of_nextMeets (by decide)⟩

theorem witness_EventsNeverFault : BlockInv (base (receivingZ .stop 1)) := stop_inv

theorem witness_WellFormedEventsComplete :
    BlockInv ready ∧ Instr.wellFormed ready.cfg.npins (.add 0x5A 1 1) = true := ⟨ready_inv, by decide⟩

theorem witness_NothingReturnsToReset :
    ready.initialized = true ∧ ∃ t, exec .init ready = .next t ∧ true = true :=
  ⟨rfl, exists_of_nextMeets (by decide)⟩

theorem witness_InitFollowsItsRule : (State.resetOf small).initialized = false ∧ ready.initialized = true := ⟨rfl, rfl⟩

/-- Both slots used, so that ADD finds none free. -/
def full : State :=
  { base idleZ with chFree := [], chActive := [0, 1], ch := [idleZ, { idleZ with name := 0x59, txPin := 1 }] }

theorem full_inv : BlockInv full where
  config := by decide
  pins := by decide
  slots := by decide
  arenas := by decide
  beforeInit := by decide
  registry := by decide
  pools := by decide
  fresh := by decide
  active := by decide
  names := by decide
  txPins := by decide
  waiting := by decide

/-- Every clause of the statement of ADD, pins at the edges 1 and 2 of NPINS = 2. -/
theorem witness_AddFollowsItsRule :
    (BlockInv ready ∧ ready.cfg.npins ≤ (2 : Byte).toNat ∧ (1 : Byte).toNat < ready.cfg.npins) ∧
    (BlockInv (State.resetOf small) ∧ (State.resetOf small).initialized = false) ∧
    (BlockInv full ∧ full.initialized = true ∧ full.chFree = []) ∧
    (BlockInv (base idleZ) ∧ (base idleZ).initialized = true ∧ (base idleZ).chFree ≠ [] ∧
      (∃ r ∈ (base idleZ).activeChannels, r.name = 0x5A)) ∧
    ((∀ r ∈ (base idleZ).activeChannels, r.name ≠ 0x41) ∧ ∃ r ∈ (base idleZ).activeChannels, r.txPin = 0) ∧
    ((base idleZ).chFree = 1 :: [] ∧ (base idleZ).ch[1]? = some freshSlot ∧
      ∀ r ∈ (base idleZ).activeChannels, r.txPin ≠ 1) :=
  ⟨⟨ready_inv, by decide⟩, ⟨small_reset_inv, rfl⟩, ⟨full_inv, rfl, rfl⟩, ⟨idle_inv, by decide⟩, by decide, by decide⟩

theorem witness_SendFollowsItsRule :
    (BlockInv (State.resetOf small) ∧ (State.resetOf small).initialized = false) ∧
    (BlockInv (base idleZ) ∧ (base idleZ).initialized = true ∧ ∀ r ∈ (base idleZ).activeChannels, r.name ≠ 0x41) ∧
    (0 ∈ (base idleZ).chActive ∧ (base idleZ).ch[0]? = some idleZ ∧ idleZ.txFree = 0 :: [1]) ∧
    (BlockInv (base { idleZ with txFree := [], txPend := [1, 0] }) ∧
      ({ idleZ with txFree := [], txPend := [1, 0] } : Channel).txFree = []) :=
  ⟨⟨small_reset_inv, rfl⟩, ⟨idle_inv, by decide⟩, by decide, base_inv (by decide) (by decide) (by decide), rfl⟩

theorem witness_SendSucceedsIffASlotIsFree :
    BlockInv (base idleZ) ∧ 0 ∈ (base idleZ).chActive ∧ (base idleZ).ch[0]? = some idleZ := ⟨idle_inv, by decide⟩

theorem witness_RecvFollowsItsRule :
    (BlockInv (State.resetOf small) ∧ (State.resetOf small).initialized = false) ∧
    (BlockInv (base idleZ) ∧ (base idleZ).initialized = true ∧ ∀ r ∈ (base idleZ).activeChannels, r.name ≠ 0x41) ∧
    (0 ∈ (base idleZ).chActive ∧ (base idleZ).ch[0]? = some idleZ ∧ idleZ.rxPend = []) ∧
    (BlockInv (base (receivedZ Message.zero)) ∧ (receivedZ Message.zero).rxPend = 1 :: []) :=
  ⟨⟨small_reset_inv, rfl⟩, ⟨idle_inv, by decide⟩, by decide, received_inv, rfl⟩

theorem witness_RecvbFollowsItsRule :
    (BlockInv (State.resetOf small) ∧ (State.resetOf small).initialized = false) ∧
    (BlockInv (base idleZ) ∧ (base idleZ).initialized = true ∧ ∀ r ∈ (base idleZ).activeChannels, r.name ≠ 0x41) ∧
    (0 ∈ (base idleZ).chActive ∧ (base idleZ).ch[0]? = some idleZ ∧ idleZ.rxPend = []) ∧
    (BlockInv (base (receivedZ Message.zero)) ∧ (receivedZ Message.zero).rxPend = 1 :: []) :=
  witness_RecvFollowsItsRule

theorem witness_ClrtxFollowsItsRule :
    BlockInv (base (queuedZ (msg 0x2D false false))) ∧
    (∀ r ∈ (base (queuedZ (msg 0x2D false false))).activeChannels, r.name ≠ 0x41) ∧
    0 ∈ (base (queuedZ (msg 0x2D false false))).chActive ∧
    (base (queuedZ (msg 0x2D false false))).ch[0]? = some (queuedZ (msg 0x2D false false)) :=
  ⟨queued_inv, by decide⟩

theorem witness_ClrrxFollowsItsRule :
    BlockInv (base (receivedZ Message.zero)) ∧
    (∀ r ∈ (base (receivedZ Message.zero)).activeChannels, r.name ≠ 0x41) ∧
    0 ∈ (base (receivedZ Message.zero)).chActive ∧
    (base (receivedZ Message.zero)).ch[0]? = some (receivedZ Message.zero) := ⟨received_inv, by decide⟩

theorem witness_BeforeInitOnlyLineActs :
    BlockInv (State.resetOf small) ∧ (State.resetOf small).initialized = false ∧
      (1 : Byte).toNat < (State.resetOf small).cfg.npins := ⟨small_reset_inv, by decide⟩

/-- A command that completes with a data byte, one that holds, and an event of another agent. -/
theorem witness_HostCommandsReturnOneResponse :
    nextMeets (exec (.recv 0x5A) (base (receivedZ { Message.zero with data := 0x2D })))
      (fun t => decide (t.responses = [0x00002D00])) = true ∧
    nextMeets (exec (.recvb 0x5A) (base idleZ)) (fun t => decide (t.responses = [])) = true ∧
    nextMeets (exec .tick (base idleZ)) (fun t => decide (t.responses = [])) = true := by decide

theorem witness_FailedCommandsChangeNothing :
    nextMeets (exec (.send 0x41 0 false false) (base idleZ))
      (fun t => decide (t.responses = (base idleZ).responses ++ [responseWord .unknownName 0])) = true ∧
    nextMeets (exec (.recvb 0x41) (holding idleZ []))
      (fun t => decide (t.responses = (base idleZ).responses ++ [responseWord .unknownName 0])) = true := by decide

theorem witness_LineFollowsItsRule :
    BlockInv (State.resetOf small) ∧ (1 : Byte).toNat < (State.resetOf small).cfg.npins ∧
      (State.resetOf small).cfg.npins ≤ (2 : Byte).toNat := ⟨small_reset_inv, by decide⟩

/-- One witness for each of the three writers. -/
theorem witness_LineWritersAreKnown :
    (BlockInv (base idleZ) ∧ nextMeets (exec (.line 1 false) (base idleZ))
      (fun t => decide (t.line[1]? ≠ (base idleZ).line[1]?)) = true) ∧
    (BlockInv { ready with line := [false, false] } ∧ nextMeets (exec (.add 0x41 0 1) { ready with line := [false, false] })
      (fun t => decide (t.line[0]? ≠ some false)) = true) ∧
    (BlockInv (base (queuedZ (msg 0x2D false false))) ∧ nextMeets (exec .tick (base (queuedZ (msg 0x2D false false))))
      (fun t => decide (t.line[0]? ≠ (base idleZ).line[0]?)) = true) :=
  ⟨⟨idle_inv, by decide⟩, ⟨inv_line ready_inv (levels := [false, false]) rfl, by decide⟩, ⟨queued_inv, by decide⟩⟩

/-- A TICK that moves a node of a TX pool, an ADD that moves a slot, and a RECV that moves a node of an RX pool. -/
theorem witness_PoolsChangeOnlyByTheirOwners :
    (BlockInv (base (queuedZ (msg 0x2D false false))) ∧ nextMeets (exec .tick (base (queuedZ (msg 0x2D false false))))
      (fun t => decide (t.ch[0]?.map (·.txPend) ≠ some [0])) = true) ∧
    (BlockInv (base idleZ) ∧ nextMeets (exec (.add 0x41 1 1) (base idleZ)) (fun t => decide (t.chFree ≠ [1])) = true) ∧
    (BlockInv (base (receivedZ Message.zero)) ∧ nextMeets (exec (.recv 0x5A) (base (receivedZ Message.zero)))
      (fun t => decide (t.ch[0]?.map (·.rxPend) ≠ some [1])) = true) :=
  ⟨⟨queued_inv, by decide⟩, ⟨idle_inv, by decide⟩, ⟨received_inv, by decide⟩⟩

theorem witness_QueuesAreFirstInFirstOut :
    BlockInv (base (receivingZ .stop 1)) ∧ 0 ∈ (base (receivingZ .stop 1)).chActive ∧
      nextMeets (exec .tick (base (receivingZ .stop 1))) (fun t => decide (t.ch[0]?.map (·.rxQueue) = some [Message.zero]))
        = true := ⟨stop_inv, by decide⟩

theorem witness_PoolPrimitivesFollowTheirRules :
    2 ∉ [0, 1] ∧ 1 ∈ [0, 1] ∧ pushBack [0, 1] [0, 1] 2 = .ok [0, 1, 2] := ⟨by decide, by decide, rfl⟩

theorem witness_TickFollowsItsRule :
    (BlockInv (State.resetOf small) ∧ (State.resetOf small).initialized = false) ∧
    (BlockInv ready ∧ ready.chActive = []) ∧
    (BlockInv full ∧ full.initialized = true ∧ ∃ r ∈ full.activeChannels, r.txPin.toNat ≠ 1) :=
  ⟨⟨small_reset_inv, rfl⟩, ⟨ready_inv, rfl⟩, full_inv, by decide⟩

theorem witness_DisabledDirectionsAreSkipped :
    (base freshSlot).ch[0]? = some freshSlot ∧ freshSlot.rxEn = false ∧ freshSlot.txEn = false := by decide

theorem witness_ChannelOrderIsUnobservable : BlockInv full ∧ [1, 0].Perm full.chActive := ⟨full_inv, by decide⟩

theorem witness_AdvanceHoldsAStateForTTicks :
    (1 ≤ 1 ∧ BitMachine.zero.q + 1 = 1 ∧ BitMachine.zero.q = 0) ∧ (1 ≤ 4 ∧ BitMachine.zero.q + 1 ≠ 4) := by decide

theorem witness_RxLeavesIdleOnlyOnAFallingEdge :
    idleZ.rx.pos = .idle ∧ idleZ.last = true ∧ ({ idleZ with last := false } : Channel).last = false := by decide

theorem witness_LastSampleIsRecorded : ∃ r', rxStep small [false, true] idleZ = .ok r' := ⟨_, rfl⟩

/-- Off the sample instant, and at it in Start and in a later state; the machine is busy before and after. -/
theorem witness_RxSampleUsesTheLevel :
    ((receivingZ (.data 0) 1).rx.pos ≠ .idle ∧ (advance small.T (receivingZ (.data 0) 1).rx).1.pos ≠ .idle ∧
      (advance small.T (receivingZ (.data 0) 1).rx).1.q ≠ small.S) ∧
    (advance small.T (receivingZ .start 0).rx).1 = ⟨.start, small.S, Message.zero⟩ ∧
    (advance small.T (receivingZ .stop 0).rx).1 = ⟨.stop, small.S, Message.zero⟩ := by decide

theorem witness_RxBitSamplesAreRecorded :
    (receivingZ (.data 0) 1).rx.pos = .data 0 ∧ (receivingZ (.data 7) 1).rx.pos = .data 7 ∧
      (receivingZ .parity 1).rx.pos = .parity ∧ (receivingZ .stop 1).rx.pos = .stop := by decide

/-- The Start period with a sample of 0 and with a sample of 1, and a later period. -/
theorem witness_RxSamplesOncePerPeriod :
    (small.S < small.T ∧ [false, false].length = small.T ∧ idleZ.rx.pos = .idle ∧ idleZ.last = true ∧
      [false, false][0]? = some false ∧ [false, false][small.S]? = some false) ∧
    ([false, true].length = small.T ∧ [false, true][0]? = some false ∧ [false, true][small.S]? = some true) ∧
    ((receivingZ .start 1).rx.pos ≠ .idle ∧ (receivingZ .start 1).rx.pos.succ ≠ .idle ∧
      (receivingZ .start 1).rx.q + 1 = small.T ∧ [false, true].length = small.T ∧
      [false, true][small.S]? = some true) := by decide

/-- With a free slot, with none, and with the drop mark. -/
theorem witness_RxCompletesWhenStopEnds :
    (ArenaSizes small (receivingZ .stop 1) ∧ PoolPartition small (receivingZ .stop 1) ∧
      (receivingZ .stop 1).rx.q + 1 = small.T ∧ (receivingZ .stop 1).rxFree = 0 :: [1]) ∧
    (PoolPartition small { receivingZ .stop 1 with rxFree := [], rxPend := [0, 1] }) ∧
    (PoolPartition small { receivingZ .stop 1 with rxDrop := true } ∧
      ({ receivingZ .stop 1 with rxDrop := true } : Channel).rxDrop = true) := by decide

theorem witness_RxAssemblesAnyFrame :
    small.S < small.T ∧ ArenaSizes small idleZ ∧ PoolPartition small idleZ ∧ idleZ.rx.pos = .idle ∧ idleZ.last = true ∧
      (List.replicate 23 false).length = 11 * small.T + 1 ∧ (List.replicate 23 false)[0]? = some false ∧
      (List.replicate 23 false)[small.S]? = some false ∧ idleZ.rxFree = 0 :: [1] ∧
      PoolPartition small { idleZ with rxFree := [], rxPend := [0, 1] } := by decide

theorem witness_RxRejectsAShortPulse :
    small.S < small.T ∧ idleZ.rx.pos = .idle ∧ idleZ.last = true ∧ 1 ≤ 1 ∧ 1 ≤ small.S := by decide

/-- Nothing queued, a message, and a message that clears the receive side. -/
theorem witness_TxIdleStartsOrDrivesHigh :
    (ArenaSizes small idleZ ∧ PoolPartition small idleZ ∧ idleZ.tx.pos = .idle ∧ idleZ.txPend = []) ∧
    (PoolPartition small (queuedZ (msg 1 false true)) ∧ (queuedZ (msg 1 false true)).txPend = 0 :: [] ∧
      (queuedZ (msg 1 false true)).txPay[0]? = some (msg 1 false true) ∧ (msg 1 false true).clearsRx = false) ∧
    (PoolPartition small (queuedZ (msg 1 true false)) ∧
      (queuedZ (msg 1 true false)).txPay[0]? = some (msg 1 true false) ∧ (msg 1 true false).clearsRx = true) := by decide

/-- Inside a state; then entry to Idle, and to Data, Parity and Stop, for a message that is blank and one that is not. -/
theorem witness_TxWritesOnlyOnEntry :
    (sendingZ .start 0 Message.zero).tx.q + 1 ≠ small.T ∧ (sendingZ .stop 1 Message.zero).tx.q + 1 = small.T ∧
    (sendingZ .start 1 (msg 1 false true)).tx.scr.isBlank = true ∧
    (sendingZ .start 1 Message.zero).tx.scr.isBlank = false ∧ (sendingZ .start 1 Message.zero).tx.pos.succ = .data 0 ∧
    (sendingZ (.data 6) 1 Message.zero).tx.pos.succ = .data 7 ∧ (sendingZ (.data 7) 1 Message.zero).tx.pos.succ = .parity ∧
    (sendingZ .parity 1 Message.zero).tx.pos.succ = .stop := by decide

theorem witness_TxFrameHoldsEachBitForTTicks :
    BlockInv (base (queuedZ (msg 0x2D false false))) ∧ 0 ∈ (base (queuedZ (msg 0x2D false false))).chActive ∧
      (queuedZ (msg 0x2D false false)).tx.pos = .idle ∧ (queuedZ (msg 0x2D false false)).txPend = 0 :: [] ∧
      (queuedZ (msg 0x2D false false)).txPay[0]? = some (msg 0x2D false false) ∧
      (msg 0x2D false false).isBlank = false := ⟨queued_inv, by decide⟩

theorem witness_BlankFrameWritesNothing :
    BlockInv (base (queuedZ blankMessage)) ∧ 0 ∈ (base (queuedZ blankMessage)).chActive ∧
      (queuedZ blankMessage).tx.pos = .idle ∧ (queuedZ blankMessage).txPend = 0 :: [] ∧
      (queuedZ blankMessage).txPay[0]? = some blankMessage ∧ blankMessage.isBlank = true :=
  ⟨base_inv (by decide) (by decide) (by decide), by decide⟩

/-- One channel in loopback: X and Y are the same channel. -/
theorem witness_SentByteIsReceived :
    BlockInv (base idleZ) ∧ 0 ∈ (base idleZ).chActive ∧ (base idleZ).ch[0]? = some idleZ ∧ idleZ.tx.pos = .idle ∧
      idleZ.txPend = [] ∧ idleZ.rxPin = idleZ.txPin ∧ (base idleZ).level idleZ.txPin = some true ∧
      idleZ.rx.pos = .idle ∧ idleZ.rxFree ≠ [] ∧ (∀ m ∈ idleZ.txQueue, m.clearsRx = false) ∧ idleZ.rxQueue = [] :=
  ⟨idle_inv, by decide⟩

theorem witness_ParityCatchesOddCorruption : Message.zero.stopViolation = false := rfl

theorem witness_StopViolationWinsOverParityError :
    ({ Message.zero with stopViolation := true } : Message).stopViolation = true ∧
    parity8 Message.zero.data = Message.zero.parity ∧
    parity8 ({ Message.zero with data := 1 } : Message).data ≠ ({ Message.zero with data := 1 } : Message).parity := by
  decide

/-- Two states that differ in the nodes of the free pools only. -/
theorem witness_SlotsAndNodesAreUnobservable :
    BlockInv (base idleZ) ∧ BlockInv (base { idleZ with txFree := [1, 0], rxFree := [1, 0] }) ∧
      (base idleZ).view = (base { idleZ with txFree := [1, 0], rxFree := [1, 0] }).view ∧
      ∃ t, exec (.send 0x5A 0x2D false false) (base idleZ) = .next t ∧ true = true :=
  ⟨idle_inv, base_inv (by decide) (by decide) (by decide), by decide, exists_of_nextMeets (by decide)⟩

/-- Nodes 2 and 0 in one pool, node 1 in another, node 3 unowned. -/
def sampleLinks : Links :=
  { next := [some 2, some 1, some 0, none], prev := [some 2, some 1, some 0, none] }

theorem sample_represents : Represents sampleLinks (some 2) [2, 0] ∧ Represents sampleLinks (some 1) [1] := by
  refine ⟨⟨rfl, by decide, by decide, ?_⟩, ⟨rfl, by decide, by decide, ?_⟩⟩
  · exact ⟨⟨rfl, rfl⟩, ⟨rfl, rfl⟩, trivial⟩
  · exact ⟨⟨rfl, rfl⟩, trivial⟩

theorem witness_LinkedPoolIsReadBack : Represents sampleLinks (some 2) [2, 0] := sample_represents.1

theorem witness_LinkedPushRefinesSequencePush :
    Represents sampleLinks (some 2) [2, 0] ∧ Unowned sampleLinks 3 ∧ Represents sampleLinks (some 1) [1] ∧
      (∀ y ∈ [1], y ∉ [2, 0]) ∧ 0 ∈ [2, 0] ∧ 1 ∈ [1] :=
  ⟨sample_represents.1, ⟨by decide, by decide, rfl, rfl⟩, sample_represents.2, by decide, by decide, by decide⟩

theorem witness_LinkedPopRefinesSequencePop :
    Represents sampleLinks (some 2) (2 :: [0]) ∧ Represents sampleLinks (some 2) ([2] ++ [0]) ∧
      Represents sampleLinks (some 1) [1] ∧ ∀ y ∈ [1], y ∉ [2, 0] :=
  ⟨sample_represents.1, sample_represents.1, sample_represents.2, by decide⟩

theorem witness_LinkedRemoveRefinesSequenceRemove :
    Represents sampleLinks (some 2) ([2] ++ 0 :: []) ∧ Represents sampleLinks (some 1) [1] ∧
      (∀ y ∈ [1], y ∉ [2, 0]) ∧ 1 ∉ [2, 0] :=
  ⟨sample_represents.1, sample_represents.2, by decide, by decide⟩

theorem witness_LinkedMergeRefinesSequenceMerge :
    Represents sampleLinks (some 2) [2, 0] ∧ Represents sampleLinks (some 1) [1] ∧ ∀ x ∈ [2, 0], x ∉ [1] :=
  ⟨sample_represents.1, sample_represents.2, by decide⟩

end Sys2Proof.Tests
end

section
/-! Why a step is refused (spec/60_exceptions.md R225). Every refusal is traced to its one origin: an event refuses only
a pin operand, the choice of the event only an illegal word, and everything else is the configuration. -/

namespace Sys2Proof.Machine

/-! ### Refusals of an event -/

theorem finish_ne_refused (x : Except Fault State) (why : Refusal) : finish x ≠ .refused why := by
  cases x <;> simp

theorem execTick_ne_refused (s : State) (why : Refusal) : execTick s ≠ .refused why := by
  unfold execTick
  split
  · simp
  · exact finish_ne_refused _ _

theorem execSend_ne_refused (name data : Byte) (c b : Bool) (s : State) (why : Refusal) :
    execSend name data c b s ≠ .refused why := by
  unfold execSend
  split
  · simp
  · split
    · simp
    · exact finish_ne_refused _ _

theorem execClrtx_ne_refused (name : Byte) (s : State) (why : Refusal) : execClrtx name s ≠ .refused why := by
  unfold execClrtx
  split <;> simp

theorem execClrrx_ne_refused (name : Byte) (s : State) (why : Refusal) : execClrrx name s ≠ .refused why := by
  unfold execClrrx
  split <;> simp

theorem execAdd_refused_inv {name txPin rxPin : Byte} {s : State} {why : Refusal}
    (h : execAdd name txPin rxPin s = .refused why) :
    why = .pinOutOfRange ∧ Instr.wellFormed s.cfg.npins (.add name txPin rxPin) = false := by
  unfold execAdd at h
  split at h
  · rename_i hw
    cases h
    exact ⟨rfl, hw⟩
  · split at h
    · cases h
    · split at h
      · cases h
      · split at h
        · cases h
        · split at h
          · cases h
          · exact absurd h (finish_ne_refused _ _)

theorem execLine_refused_inv {pin : Byte} {v : Bool} {s : State} {why : Refusal}
    (h : execLine pin v s = .refused why) :
    why = .pinOutOfRange ∧ Instr.wellFormed s.cfg.npins (.line pin v) = false := by
  unfold execLine at h
  split at h
  · rename_i hw
    cases h
    exact ⟨rfl, hw⟩
  · exact absurd h (finish_ne_refused _ _)

/-- An event is refused only for a pin operand that is not below NPINS (spec/30_encoding.md R91 step 3). -/
theorem exec_refused_inv {i : Instr} {s : State} {why : Refusal} (h : exec i s = .refused why) :
    why = .pinOutOfRange ∧ i.wellFormed s.cfg.npins = false := by
  cases i with
  | tick => exact absurd h (execTick_ne_refused _ _)
  | init => cases h
  | add name txPin rxPin => exact execAdd_refused_inv h
  | send name data c b => exact absurd h (execSend_ne_refused _ _ _ _ _ _)
  | recv name => exact absurd h (finish_ne_refused _ _)
  | recvb name => exact absurd h (finish_ne_refused _ _)
  | clrtx name => exact absurd h (execClrtx_ne_refused _ _ _)
  | clrrx name => exact absurd h (execClrrx_ne_refused _ _ _)
  | line pin v => exact execLine_refused_inv h

/-! ### Refusals of the choice of the event -/

theorem issueWord_refuse_inv {w : Word} {s : State} {why : Refusal} (h : issueWord w s = .refuse why) :
    ∃ e, decode w = .error e ∧ why = .illegalWord e := by
  unfold issueWord at h
  split at h
  · cases h
  · rename_i e he
    cases h
    exact ⟨e, he, rfl⟩

theorem fetchNext_refuse_inv {s : State} {why : Refusal} (h : fetchNext s = .refuse why) :
    ∃ e, why = .illegalWord e := by
  unfold fetchNext at h
  split at h
  · cases h
  · obtain ⟨e, -, hwhy⟩ := issueWord_refuse_inv h
    exact ⟨e, hwhy⟩

theorem fetchEnvironment_refuse_inv {s : State} {why : Refusal} (h : fetchEnvironment s = .refuse why) :
    ∃ e, why = .illegalWord e := by
  unfold fetchEnvironment at h
  split at h
  · cases h
  · obtain ⟨e, -, hwhy⟩ := issueWord_refuse_inv h
    exact ⟨e, hwhy⟩

theorem fetchWaiting_refuse_inv {name : Byte} {s : State} {why : Refusal} (h : fetchWaiting name s = .refuse why) :
    ∃ e, why = .illegalWord e := by
  unfold fetchWaiting at h
  split at h
  · dsimp only at h
    split at h
    · cases h
    · exact fetchEnvironment_refuse_inv h
  · exact fetchEnvironment_refuse_inv h

theorem fetch_illegal {s : State} (hc : s.cfg.legal = false) : fetch s = .refuse .illegalConfig := by
  rw [fetch, if_pos hc]

/-- Under a legal configuration only an illegal word is refused before an event happens (spec/30_encoding.md R89). -/
theorem fetch_refuse_inv {s : State} {why : Refusal} (hc : s.cfg.legal = true) (h : fetch s = .refuse why) :
    ∃ e, why = .illegalWord e := by
  rw [fetch, if_neg (by simp [hc])] at h
  cases ho : s.outstanding with
  | none => rw [ho] at h; exact fetchNext_refuse_inv h
  | some name => rw [ho] at h; exact fetchWaiting_refuse_inv h

/-! ### Refusals of a step -/

theorem step_illegal {s : State} (hc : s.cfg.legal = false) : step s = .refused .illegalConfig := by
  rw [step, fetch_illegal hc]

/-- A step under a legal configuration refuses a word or a pin operand, nothing else (spec/60_exceptions.md R225). -/
theorem step_refused_inv {s : State} {why : Refusal} (hc : s.cfg.legal = true) (h : step s = .refused why) :
    (∃ e, why = .illegalWord e) ∨ why = .pinOutOfRange := by
  unfold step at h
  split at h
  · cases h
  · exact .inr (exec_refused_inv h).1
  · rename_i hf
    cases h
    exact .inl (fetch_refuse_inv hc hf)

theorem step_refused_illegalConfig_iff {s : State} : step s = .refused .illegalConfig ↔ s.cfg.legal = false := by
  refine ⟨fun h => ?_, step_illegal⟩
  cases hc : s.cfg.legal with
  | false => rfl
  | true =>
    obtain ⟨e, he⟩ | hp := step_refused_inv hc h
    · cases he
    · cases hp

/-- Settles O10: a step has no other origin of this refusal than the test of the configuration, and that test is the
conjunction of the constraints of spec/00_scope.md R6. -/
theorem illegalConfigurationIsRefused : Obligations.IllegalConfigurationIsRefused := by
  intro s
  rw [step_refused_illegalConfig_iff, ← legal_iff, Bool.not_eq_true]

end Sys2Proof.Machine
end

section
/-! The invariant of the block through a step (spec/10_state.md R24, R27, R30, R31, R32, R36). The choice of the event
touches only the model's input lists; each event with legal pins answers a next state that meets the invariant, so
whatever next state a step answers is one of these. -/

namespace Sys2Proof.Machine

/-! ### Directions that are not enabled (spec/10_state.md R36) -/

/-- Settles O34: each pass tests the enable bit of the record it reads, and answers its state when the bit is 0. -/
theorem disabledDirectionsAreSkipped : Obligations.DisabledDirectionsAreSkipped := by
  intro s c r hr
  constructor
  · intro hen
    simp [rxAt, slot_of_get hr, hen]
  · intro hen
    simp [txAt, slot_of_get hr, hen]

/-! ### The choice of the event -/

theorem fetch_idle {s : State} (hc : s.cfg.legal = true) (ho : s.outstanding = none) : fetch s = fetchNext s := by
  simp [fetch, hc, ho]

theorem fetchNext_empty {s : State} (he : s.events = []) : fetchNext s = .rest s := by
  rw [fetchNext, he]

theorem fetchNext_word {s : State} {w : Word} {rest : List Word} {i : Instr} (he : s.events = w :: rest)
    (hd : decode w = .ok i) : fetchNext s = .issue i { s with events := rest } := by
  simp [fetchNext, he, issueWord, hd]

/-- Settles O7: with no command outstanding the choice of the event is the head of the event order. -/
theorem stepRunsTheNextEvent : Obligations.StepRunsTheNextEvent := by
  intro s hc ho
  constructor
  · intro w rest i he hd
    simp only [step, fetch_idle hc ho, fetchNext_word he hd]
  · intro he
    simp only [step, fetch_idle hc ho, fetchNext_empty he]

/-- The state in which the chosen event happens, or in which nothing does. -/
def Fetched.state? : Fetched → Option State
  | .rest t => some t
  | .issue _ t => some t
  | .refuse _ => none

theorem issueWord_state {w : Word} {s t : State} (h : (issueWord w s).state? = some t) : t = s := by
  unfold issueWord at h
  split at h <;> cases h
  rfl

theorem fetchNext_state {s t : State} (h : (fetchNext s).state? = some t) : ∃ ev, t = { s with events := ev } := by
  unfold fetchNext at h
  split at h
  · cases h
    exact ⟨s.events, rfl⟩
  · exact ⟨_, issueWord_state h⟩

theorem fetchEnvironment_state {s t : State} (h : (fetchEnvironment s).state? = some t) :
    ∃ ev, t = { s with events := ev } := by
  unfold fetchEnvironment at h
  split at h
  · cases h
    exact ⟨s.events, rfl⟩
  · exact ⟨_, issueWord_state h⟩

theorem fetchWaiting_state {name : Byte} {s t : State} (h : (fetchWaiting name s).state? = some t) :
    ∃ ev turns, t = { s with events := ev, hostTurns := turns } := by
  unfold fetchWaiting at h
  split at h
  · dsimp only at h
    split at h
    · cases h
      exact ⟨s.events, s.hostTurns.tail, rfl⟩
    · obtain ⟨ev, rfl⟩ := fetchEnvironment_state h
      exact ⟨ev, s.hostTurns.tail, rfl⟩
  · obtain ⟨ev, rfl⟩ := fetchEnvironment_state h
    exact ⟨ev, s.hostTurns, rfl⟩

/-- Choosing the event takes words and host turns from the input lists and touches nothing else. -/
theorem fetch_state {s t : State} (h : (fetch s).state? = some t) :
    ∃ ev turns, t = { s with events := ev, hostTurns := turns } := by
  unfold fetch at h
  split at h
  · cases h
  · split at h
    · obtain ⟨ev, rfl⟩ := fetchNext_state h
      exact ⟨ev, s.hostTurns, rfl⟩
    · exact fetchWaiting_state h

theorem fetch_keeps_inv {s t : State} (h : BlockInv s) (hf : (fetch s).state? = some t) : BlockInv t := by
  obtain ⟨ev, turns, rfl⟩ := fetch_state hf
  exact inv_port h ev turns

/-! ### Each event answers a next state that meets the invariant -/

/-- What the invariant says of a channel that a name finds. -/
theorem BlockInv.found {s : State} (h : BlockInv s) {name : Byte} {k : Nat} {r : Channel}
    (hl : s.lookup name = some (k, r)) : k ∈ s.chActive ∧ s.ch[k]? = some r ∧ ChannelOk s.cfg r := by
  obtain ⟨hk, hr, -, -⟩ := lookup_some hl
  exact ⟨hk, hr, h.channelOk hk hr⟩

/-- Writing back a changed record of the channel that a name finds keeps the invariant. -/
theorem inv_setSlot_found {s : State} (h : BlockInv s) {name : Byte} {k : Nat} {r r' : Channel}
    (hl : s.lookup name = some (k, r)) (hok : ChannelOk s.cfg r') (hname : r'.name = r.name)
    (hpin : r'.txPin = r.txPin) : BlockInv (s.setSlot k r') := by
  obtain ⟨hk, hr, -⟩ := h.found hl
  exact inv_setSlot h hk hr hok hname hpin

theorem execTick_completes {s : State} (h : BlockInv s) : ∃ t, execTick s = .next t ∧ BlockInv t := by
  unfold execTick
  split
  · exact ⟨s, rfl, h⟩
  · obtain ⟨t, ht, hinv, -⟩ := tickOver_ok h h.active_nodup (fun _ hc => hc)
    exact ⟨t, by rw [ht, finish_ok], hinv⟩

theorem execInit_completes {s : State} (h : BlockInv s) : ∃ t, execInit s = .next t ∧ BlockInv t := by
  cases hi : s.initialized with
  | false => exact ⟨_, execInit_first hi, inv_respond (inv_initAll h hi) _ _⟩
  | true => exact ⟨_, execInit_again hi, inv_respond h _ _⟩

section AddRejections

variable {s : State} {name txPin rxPin : Byte} (ht : txPin.toNat < s.cfg.npins) (hx : rxPin.toNat < s.cfg.npins)

include ht hx

theorem execAdd_uninit (hi : s.initialized = false) :
    execAdd name txPin rxPin s = .next (s.respond .notInitialized 0) := by
  rw [execAdd_legal ht hx, if_pos hi]

theorem execAdd_full (hi : s.initialized = true) (hf : s.chFree = []) :
    execAdd name txPin rxPin s = .next (s.respond .bufferFull 0) := by
  simp [execAdd_legal ht hx, hi, hf]

theorem execAdd_nameUsed (hi : s.initialized = true) {c : Nat} {free : List Nat} (hf : s.chFree = c :: free)
    (hname : ∃ r ∈ s.activeChannels, r.name = name) :
    execAdd name txPin rxPin s = .next (s.respond .nameAlreadyUsed 0) := by
  simp [execAdd_legal ht hx, hi, hf, find_isSome_iff.mpr hname]

theorem execAdd_txPinUsed (hi : s.initialized = true) {c : Nat} {free : List Nat} (hf : s.chFree = c :: free)
    (hname : ¬ ∃ r ∈ s.activeChannels, r.name = name) (hpin : ∃ r ∈ s.activeChannels, r.txPin = txPin) :
    execAdd name txPin rxPin s = .next (s.respond .txPinAlreadyUsed 0) := by
  simp [execAdd_legal ht hx, hi, hf, mt find_isSome_iff.mp hname, txPinUsed_iff.mpr hpin]

end AddRejections

theorem execAdd_completes {s : State} (h : BlockInv s) {txPin rxPin : Byte} (ht : txPin.toNat < s.cfg.npins)
    (hx : rxPin.toNat < s.cfg.npins) (name : Byte) : ∃ t, execAdd name txPin rxPin s = .next t ∧ BlockInv t := by
  cases hi : s.initialized with
  | false => exact ⟨_, execAdd_uninit ht hx hi, inv_respond h _ _⟩
  | true =>
    cases hf : s.chFree with
    | nil => exact ⟨_, execAdd_full ht hx hi hf, inv_respond h _ _⟩
    | cons c free =>
      by_cases hname : ∃ r ∈ s.activeChannels, r.name = name
      · exact ⟨_, execAdd_nameUsed ht hx hi hf hname, inv_respond h _ _⟩
      · by_cases hpin : ∃ r ∈ s.activeChannels, r.txPin = txPin
        · exact ⟨_, execAdd_txPinUsed ht hx hi hf hname hpin, inv_respond h _ _⟩
        · push Not at hname hpin
          obtain ⟨old, hold, he⟩ := execAdd_ok h hf ht hx hname hpin
          have hok := addedChannel_ok h.config (h.arenas old (List.mem_of_getElem? hold)) ht hx name
            ((s.line.set txPin.toNat true).getD rxPin.toNat false)
          exact ⟨_, he, inv_respond (inv_joined h hf hok hname hpin) _ _⟩

theorem sentMessage_sendable (data : Byte) (c b : Bool) : SendableMessage (sentMessage data c b) := ⟨rfl, rfl⟩

theorem execSend_completes {s : State} (h : BlockInv s) (name data : Byte) (c b : Bool) :
    ∃ t, execSend name data c b s = .next t ∧ BlockInv t := by
  cases hi : s.initialized with
  | false => exact ⟨_, execSend_uninit hi _ _ _ _, inv_respond h _ _⟩
  | true =>
    cases hl : s.lookup name with
    | none => exact ⟨_, execSend_unknown hi hl _ _ _, inv_respond h _ _⟩
    | some p =>
      obtain ⟨k, r⟩ := p
      obtain ⟨-, -, hok⟩ := h.found hl
      cases hf : r.txFree with
      | nil => exact ⟨_, execSend_full hi hl hf _ _ _, inv_respond h _ _⟩
      | cons n free =>
        exact ⟨_, execSend_room hi hl hf hok.arenas hok.pools _ _ _,
          inv_respond (inv_setSlot_found h hl (hok.enqueueTx hf (sentMessage_sendable data c b)) rfl rfl) _ _⟩

/-- Taking a received message never faults, and only a known channel answers BufferEmpty. -/
theorem receive_completes {s : State} (h : BlockInv s) (name : Byte) :
    ∃ code data t, receive name s = .ok (code, data, t) ∧ BlockInv t ∧
      (code = .bufferEmpty → s.initialized = true ∧ (s.find name).isSome = true) := by
  rcases receive_cases h name with
    ⟨-, he⟩ | ⟨-, -, he⟩ | ⟨k, r, hi, hl, -, he⟩ | ⟨k, r, n, pend, m, -, hl, hq, -, he⟩
  · exact ⟨_, _, _, he, h, by simp⟩
  · exact ⟨_, _, _, he, h, by simp⟩
  · obtain ⟨-, -, -, hfind⟩ := lookup_some hl
    exact ⟨_, _, _, he, h, fun _ => ⟨hi, by simp [hfind]⟩⟩
  · obtain ⟨-, -, hok⟩ := h.found hl
    exact ⟨_, _, _, he, inv_setSlot_found h hl (hok.dequeueRx hq) rfl rfl,
      fun hc => absurd hc (classify_ne_bufferEmpty m)⟩

theorem execRecv_completes {s : State} (h : BlockInv s) (name : Byte) :
    ∃ t, execRecv name s = .next t ∧ BlockInv t := by
  obtain ⟨code, data, t, he, ht, -⟩ := receive_completes h name
  exact ⟨_, execRecv_of he, inv_respond ht _ _⟩

theorem execRecvb_completes {s : State} (h : BlockInv s) (name : Byte) :
    ∃ t, execRecvb name s = .next t ∧ BlockInv t := by
  obtain ⟨code, data, t, he, ht, hhold⟩ := receive_completes h name
  by_cases hc : code = .bufferEmpty
  · obtain ⟨hi, hfind⟩ := hhold hc
    subst hc
    exact ⟨_, execRecvb_hold he, inv_hold h hi hfind⟩
  · exact ⟨_, execRecvb_complete he hc, inv_respond (inv_release ht) _ _⟩

theorem execClrtx_completes {s : State} (h : BlockInv s) (name : Byte) :
    ∃ t, execClrtx name s = .next t ∧ BlockInv t := by
  cases hl : s.lookup name with
  | none => exact ⟨_, execClrtx_unknown hl, inv_respond h _ _⟩
  | some p =>
    obtain ⟨-, -, hok⟩ := h.found hl
    exact ⟨_, execClrtx_known hl, inv_respond (inv_setSlot_found h hl hok.mergeTx rfl rfl) _ _⟩

theorem execClrrx_completes {s : State} (h : BlockInv s) (name : Byte) :
    ∃ t, execClrrx name s = .next t ∧ BlockInv t := by
  cases hl : s.lookup name with
  | none => exact ⟨_, execClrrx_unknown hl, inv_respond h _ _⟩
  | some p =>
    obtain ⟨-, -, hok⟩ := h.found hl
    exact ⟨_, execClrrx_known hl, inv_respond (inv_setSlot_found h hl hok.flushRx rfl rfl) _ _⟩

theorem execLine_completes {s : State} (h : BlockInv s) {pin : Byte} (hp : pin.toNat < s.cfg.npins) (v : Bool) :
    ∃ t, execLine pin v s = .next t ∧ BlockInv t :=
  ⟨_, execLine_legal h hp v, inv_line h (List.length_set ..)⟩

/-- Every event whose pins are legal answers a next state, and that state meets the invariant. -/
theorem exec_completes {s : State} (h : BlockInv s) {i : Instr} (hw : i.wellFormed s.cfg.npins = true) :
    ∃ t, exec i s = .next t ∧ BlockInv t := by
  cases i with
  | tick => exact execTick_completes h
  | init => exact execInit_completes h
  | add name txPin rxPin =>
    simp only [Instr.wellFormed, pinLegal, Bool.and_eq_true, decide_eq_true_eq] at hw
    exact execAdd_completes h hw.1 hw.2 name
  | send name data c b => exact execSend_completes h name data c b
  | recv name => exact execRecv_completes h name
  | recvb name => exact execRecvb_completes h name
  | clrtx name => exact execClrtx_completes h name
  | clrrx name => exact execClrrx_completes h name
  | line pin v => exact execLine_completes h (by simpa [Instr.wellFormed, pinLegal] using hw) v

/-- An event with an illegal pin is refused (spec/30_encoding.md R91 step 3). -/
theorem exec_illegal_pin {s : State} {i : Instr} (hw : i.wellFormed s.cfg.npins = false) :
    exec i s = .refused .pinOutOfRange := by
  cases i with
  | add name txPin rxPin => exact if_pos hw
  | line pin v => exact if_pos hw
  | tick | init | send | recv | recvb | clrtx | clrrx => cases hw

theorem exec_keeps_inv {s t : State} {i : Instr} (h : BlockInv s) (he : exec i s = .next t) : BlockInv t := by
  cases hw : i.wellFormed s.cfg.npins with
  | false =>
    rw [exec_illegal_pin hw] at he
    cases he
  | true =>
    obtain ⟨u, hu, hinv⟩ := exec_completes h hw
    rw [hu] at he
    cases he
    exact hinv

/-! ### The step -/

/-- Settles O13: the choice of the event keeps the invariant, and so does the event that happens. -/
theorem stepKeepsTheInvariant : Obligations.StepKeepsTheInvariant := by
  intro s t h hs
  unfold step at hs
  split at hs
  · rename_i u hf
    cases hs
    exact fetch_keeps_inv h (by rw [hf]; rfl)
  · rename_i i u hf
    exact exec_keeps_inv (fetch_keeps_inv h (by rw [hf]; rfl)) hs
  · cases hs

end Sys2Proof.Machine
end

section
/-! Views of channels (spec/10_state.md R34): the view of a record after each queue operation is told by its view before
and the capacities, so records with one view go on with one view through RxStep and TxStep. -/

namespace Sys2Proof.Machine

/-! ### The view after a queue operation -/

section QueueViews

variable {cfg : Config} {r : Channel} (ha : ArenaSizes cfg r) (hp : PoolPartition cfg r)

include ha hp

theorem view_enqueueTx {n : Nat} {free : List Nat} (hf : r.txFree = n :: free) (m : Message) :
    ({ r with txFree := free, txPend := r.txPend ++ [n], txPay := r.txPay.set n m } : Channel).view =
      { r.view with txQueue := r.view.txQueue ++ [m], txRoom := r.view.txRoom - 1 } := by
  simp only [Channel.view, enqueueTx_queue hf ha hp m, hf, List.length_cons, Nat.add_sub_cancel]
  rfl

theorem view_dequeueTx {n : Nat} {pend : List Nat} (hq : r.txPend = n :: pend) :
    ({ r with txPend := pend, txFree := r.txFree ++ [n] } : Channel).view =
      { r.view with txQueue := r.view.txQueue.tail, txRoom := r.view.txRoom + 1 } := by
  obtain ⟨m, -, hqq, -⟩ := dequeueTx_head hq ha hp
  simp only [Channel.view, hqq, List.length_append, List.length_singleton, List.tail_cons]
  rfl

theorem view_enqueueRx {n : Nat} {free : List Nat} (hf : r.rxFree = n :: free) (m : Message) :
    ({ r with rxFree := free, rxPend := r.rxPend ++ [n], rxPay := r.rxPay.set n m } : Channel).view =
      { r.view with rxQueue := r.view.rxQueue ++ [m], rxRoom := r.view.rxRoom - 1 } := by
  simp only [Channel.view, enqueueRx_queue hf ha hp m, hf, List.length_cons, Nat.add_sub_cancel]
  rfl

theorem view_dequeueRx {n : Nat} {pend : List Nat} (hq : r.rxPend = n :: pend) :
    ({ r with rxPend := pend, rxFree := r.rxFree ++ [n] } : Channel).view =
      { r.view with rxQueue := r.view.rxQueue.tail, rxRoom := r.view.rxRoom + 1 } := by
  obtain ⟨m, -, hqq, -⟩ := dequeueRx_head hq ha hp
  simp only [Channel.view, hqq, List.length_append, List.length_singleton, List.tail_cons]
  rfl

omit ha in
theorem view_mergeTx : r.mergeTx.view = { r.view with txQueue := [], txRoom := cfg.txd } := by
  simp only [mergeTx_eq, Channel.view, List.length_append, partition_length hp.1]
  rfl

omit ha in
theorem view_mergeRx : r.mergeRx.view = { r.view with rxQueue := [], rxRoom := cfg.rxd } := by
  simp only [mergeRx_eq, Channel.view, List.length_append, partition_length hp.2]
  rfl

omit ha in
theorem view_flushRx : r.flushRx.view = { r.view with rxQueue := [], rxRoom := cfg.rxd, rxDrop := true } := by
  simp only [flushRx_eq, Channel.view, List.length_append, partition_length hp.2]
  rfl

theorem txPend_nil_iff : r.txPend = [] ↔ r.view.txQueue = [] := by
  constructor
  · intro hq
    simp [Channel.view, Channel.txQueue, hq]
  · intro hv
    cases hq : r.txPend with
    | nil => rfl
    | cons n pend =>
      obtain ⟨m, -, hqq, -⟩ := dequeueTx_head hq ha hp
      exact absurd (hqq.symm.trans hv) (by simp)

theorem rxPend_nil_iff : r.rxPend = [] ↔ r.view.rxQueue = [] := by
  constructor
  · intro hq
    simp [Channel.view, Channel.rxQueue, hq]
  · intro hv
    cases hq : r.rxPend with
    | nil => rfl
    | cons n pend =>
      obtain ⟨m, -, hqq, -⟩ := dequeueRx_head hq ha hp
      exact absurd (hqq.symm.trans hv) (by simp)

/-- The completion of a frame (spec/41_tick_dispatcher.md R140) on queue contents. -/
theorem view_rxComplete :
    (rxComplete r).map Channel.view = .ok
      (if r.view.rxDrop = true then { r.view with rxQueue := [], rxRoom := cfg.rxd }
      else if r.view.rxRoom = 0 then r.view
      else { r.view with rxQueue := r.view.rxQueue ++ [r.view.rx.scr], rxRoom := r.view.rxRoom - 1 }) := by
  cases hd : r.rxDrop with
  | true =>
    have hdrop : r.view.rxDrop = true := hd
    rw [rxComplete, if_neg (by simp [hd]), map_ok, view_mergeRx hp, if_pos hdrop]
  | false =>
    have hdrop : r.view.rxDrop ≠ true := by simp [Channel.view, hd]
    cases hf : r.rxFree with
    | nil =>
      have hroom : r.view.rxRoom = 0 := by simp [Channel.view, hf]
      rw [rxComplete, if_pos hd, enqueueRx_full hf, map_ok, if_neg hdrop, if_pos hroom]
    | cons n free =>
      have hroom : r.view.rxRoom ≠ 0 := by simp [Channel.view, hf]
      rw [rxComplete, if_pos hd, enqueueRx_room hf ha hp, map_ok, view_enqueueRx ha hp hf, if_neg hdrop, if_neg hroom]
      rfl

end QueueViews

/-! ### Records with one view -/

/-- Two records of active channels that differ only in node identities and in what free payload slots hold. -/
structure Twins (cfg : Config) (r x : Channel) : Prop where
  left : ChannelOk cfg r
  right : ChannelOk cfg x
  view : r.view = x.view

section TwinSteps

variable {cfg : Config} {r x : Channel}

theorem Twins.tx (h : Twins cfg r x) : r.tx = x.tx := congrArg ChannelView.tx h.view

theorem Twins.rx (h : Twins cfg r x) : r.rx = x.rx := congrArg ChannelView.rx h.view

theorem rxComplete_view_congr (hr : ArenaSizes cfg r ∧ PoolPartition cfg r)
    (hx : ArenaSizes cfg x ∧ PoolPartition cfg x) (hv : r.view = x.view) :
    (rxComplete r).map Channel.view = (rxComplete x).map Channel.view := by
  rw [view_rxComplete hr.1 hr.2, view_rxComplete hx.1 hx.2, hv]

theorem view_rxSettle (S : Nat) (r : Channel) (v : Bool) :
    (rxSettle S r v).view = { r.view with
      rx := if r.view.rx.pos ≠ .idle ∧ r.view.rx.q = S then rxSample r.view.rx v else r.view.rx
      last := v } := rfl

theorem view_rxIdle (r : Channel) (v : Bool) :
    (rxIdle r v).view =
      if r.view.last = true ∧ v = false then
        { r.view with rx := { pos := .start, q := 0, scr := r.view.rx.scr.clearFlags }, rxDrop := false }
      else r.view := by
  by_cases hedge : r.last = true ∧ v = false
  · rw [rxIdle, if_pos hedge]
    exact (if_pos hedge).symm
  · rw [rxIdle, if_neg hedge]
    exact (if_neg hedge).symm

theorem Twins.rxBusy (h : Twins cfg r x) (T : Nat) :
    (rxBusy T r).map Channel.view = (rxBusy T x).map Channel.view := by
  have hv : ({ r with rx := (advance T r.rx).1 } : Channel).view =
      ({ x with rx := (advance T x.rx).1 } : Channel).view := by
    change { r.view with rx := (advance T r.view.rx).1 } = { x.view with rx := (advance T x.view.rx).1 }
    rw [h.view]
  unfold Machine.rxBusy
  rw [← h.rx] at hv ⊢
  dsimp only
  split
  · exact rxComplete_view_congr ⟨h.left.arenas, h.left.pools⟩ ⟨h.right.arenas, h.right.pools⟩ hv
  · rw [map_ok, map_ok, hv]

theorem Twins.rxStepWith (h : Twins cfg r x) (hT : 1 ≤ cfg.T) (v : Bool) :
    (rxStepWith cfg r v).map Channel.view = (rxStepWith cfg x v).map Channel.view := by
  by_cases hp : r.rx.pos = .idle
  · simp only [Machine.rxStepWith, if_pos hp, if_pos (h.rx ▸ hp), ok_bind, pure_eq_ok, map_ok, view_rxSettle,
      view_rxIdle, h.view]
  · have hpx : x.rx.pos ≠ .idle := h.rx ▸ hp
    obtain ⟨r1, hr1, -⟩ := rxBusy_ok hT h.left hp
    obtain ⟨x1, hx1, -⟩ := rxBusy_ok hT h.right hpx
    have hv := h.rxBusy cfg.T
    simp only [hr1, hx1, map_ok, Except.ok.injEq] at hv
    simp only [Machine.rxStepWith, if_neg hp, if_neg hpx, hr1, hx1, ok_bind, pure_eq_ok, map_ok, view_rxSettle, hv]

/-- RxStep with one line record keeps records with one view so. -/
theorem Twins.rxStep (h : Twins cfg r x) (hT : 1 ≤ cfg.T) {levels : List Bool} (hl : levels.length = cfg.npins)
    {r' x' : Channel} (hr : rxStep cfg levels r = .ok r') (hx : rxStep cfg levels x = .ok x') : r'.view = x'.view := by
  obtain ⟨v, r1, hv, hr1, hr', -⟩ := rxStep_ok hT hl h.left
  obtain ⟨w, x1, hw, hx1, hx', -⟩ := rxStep_ok hT hl h.right
  have hpin : r.rxPin = x.rxPin := congrArg ChannelView.rxPin h.view
  obtain rfl : v = w := Option.some.inj (hv.symm.trans (hpin ▸ hw))
  have hview := h.rxStepWith hT v
  rw [hr1, hx1] at hview
  rw [hr'] at hr
  rw [hx'] at hx
  cases hr
  cases hx
  exact Except.ok.inj hview

theorem view_txStart (hp : PoolPartition cfg r) (m : Message) :
    (txStart r m).1.view = if m.clearsRx = true then
        { r.view with tx := { pos := .start, q := 0, scr := m }, rxQueue := [], rxRoom := cfg.rxd, rxDrop := true }
      else { r.view with tx := { pos := .start, q := 0, scr := m } } := by
  unfold txStart
  dsimp only
  split
  · rw [view_flushRx (cfg := cfg) (r := { r with tx := { pos := .start, q := 0, scr := m } }) hp]
    rfl
  · rfl

/-- TxStep keeps records with one view so, and drives the same level. -/
theorem Twins.txStep (h : Twins cfg r x) :
    ∃ p q, txStep cfg r = .ok p ∧ txStep cfg x = .ok q ∧ p.1.view = q.1.view ∧ p.2 = q.2 := by
  obtain ⟨har, hpr, -⟩ := h.left
  obtain ⟨hax, hpx, -⟩ := h.right
  by_cases hpos : r.tx.pos = .idle
  · have hposx : x.tx.pos = .idle := h.tx ▸ hpos
    have hempty : r.txPend = [] ↔ x.txPend = [] := by rw [txPend_nil_iff har hpr, txPend_nil_iff hax hpx, h.view]
    cases hq : r.txPend with
    | nil => exact ⟨_, _, txStep_idle hpos hq, txStep_idle hposx (hempty.mp hq), h.view, rfl⟩
    | cons n pend =>
      cases hqx : x.txPend with
      | nil => exact absurd (hempty.mpr hqx) (by simp [hq])
      | cons k pendx =>
        obtain ⟨m, -, hm, he⟩ := txStep_pop hpos hq har hpr
        obtain ⟨m', -, hm', he'⟩ := txStep_pop hposx hqx hax hpx
        have hqueue : r.txQueue = x.txQueue := congrArg ChannelView.txQueue h.view
        obtain rfl : m = m' := by
          rw [hm, hm'] at hqueue
          exact (List.cons.inj hqueue).1
        refine ⟨_, _, he, he', ?_, rfl⟩
        rw [view_txStart (dequeueTx_partition hq hpr), view_txStart (dequeueTx_partition hqx hpx),
          view_dequeueTx har hpr hq, view_dequeueTx hax hpx hqx, h.view]
  · have hposx : x.tx.pos ≠ .idle := h.tx ▸ hpos
    refine ⟨_, _, txStep_busy hpos, txStep_busy hposx, ?_, ?_⟩
    · change { r.view with tx := (advance cfg.T r.view.tx).1 } = { x.view with tx := (advance cfg.T x.view.tx).1 }
      rw [h.view]
    · simp only [txBusy, h.tx]

end TwinSteps

end Sys2Proof.Machine
end

section
/-! Slot and node identities are not observable (spec/10_state.md R34, R37): two blocks with one view are in step. A
channel is found by its name in both, so both passes of a TICK are followed name by name, and each event that answers a
next state in one block answers one with the same view in the other. -/

namespace Sys2Proof.Machine

/-! ### What the view tells of a block -/

theorem view_channels (s : State) : s.view.channels = s.activeChannels.map Channel.view := rfl

/-- Looking a name up is looking it up in the view. -/
theorem view_lookup (s : State) (name : Byte) :
    (s.lookup name).map (fun p => p.2.view) = s.view.channels.find? fun v => v.name == name := by
  have hpred : (fun c => (s.ch[c]?).any fun r => r.view.name == name) = s.hasName name := by
    funext c
    unfold State.hasName
    cases s.ch[c]? <;> rfl
  rw [view_channels, State.activeChannels, List.find?_map, List.find?_filterMap]
  unfold State.lookup State.find
  simp only [Function.comp_def, hpred]
  cases hf : s.chActive.find? (s.hasName name) with
  | none => rfl
  | some c => cases hc : s.ch[c]? <;> simp [hc]

/-- The view after one record is written back: the entry of that name is the new one. -/
theorem view_setSlot {s : State} (h : BlockInv s) {name : Byte} {k : Nat} {r r' : Channel}
    (hl : s.lookup name = some (k, r)) :
    (s.setSlot k r').view =
      { s.view with channels := s.view.channels.map fun v => if v.name = name then r'.view else v } := by
  obtain ⟨hk, hr, hn, -⟩ := lookup_some hl
  have hch : (s.setSlot k r').view.channels =
      s.view.channels.map fun v => if v.name = name then r'.view else v := by
    simp only [view_channels, State.activeChannels, setSlot_chActive, List.map_filterMap]
    apply List.filterMap_congr
    intro c hc
    by_cases hck : c = k
    · subst hck
      rw [getElem?_setSlot_self hr, hr]
      exact congrArg some (if_pos hn).symm
    · rw [getElem?_setSlot_other r' hck]
      obtain ⟨x, hx, -⟩ := h.record hc
      have hne : x.name ≠ name := by
        intro hxn
        have hlx := lookup_known h hc hx
        rw [hxn, hl] at hlx
        exact hck (Prod.mk.inj (Option.some.inj hlx)).1.symm
      rw [hx]
      exact congrArg some (if_neg hne).symm
  rw [← hch]
  rfl

/-- The next slot to be used is a slot that no channel has. -/
theorem BlockInv.head_unused {s : State} (h : BlockInv s) {c : Nat} {free : List Nat} (hf : s.chFree = c :: free) :
    c ∉ s.chActive ∧ c < s.ch.length := by
  have hc : c ∈ s.chFree := by simp [hf]
  have hi : s.initialized = true := by
    cases hi : s.initialized with
    | true => rfl
    | false => simp [(h.beforeInit hi).1] at hc
  exact ⟨h.free_not_active hc, h.slots ▸ (mem_partition (h.registry hi)).mp (List.mem_append_left _ hc)⟩

theorem view_joined {s : State} {c : Nat} (hc : c ∉ s.chActive) (hlt : c < s.ch.length) (free : List Nat)
    (r : Channel) : (s.joined c free r).view = { s.view with
      room := free.length
      channels := s.view.channels ++ [r.view]
      dir := (s.view.dir.set r.txPin.toNat .output).set r.rxPin.toNat .input
      line := s.view.line.set r.txPin.toNat true } := by
  have hch : (s.joined c free r).view.channels = s.view.channels ++ [r.view] := by
    rw [view_channels, activeChannels_joined hc hlt free r, List.map_append]
    rfl
  rw [← hch]
  rfl

/-- What an ADD puts into a slot does not depend on what the slot held (spec/10_state.md R37). -/
theorem view_addedChannel {cfg : Config} (hl : cfg.legal = true) {old old' : Channel} (ha : ArenaSizes cfg old)
    (ha' : ArenaSizes cfg old') (name txPin rxPin : Byte) (seed : Bool) :
    (addedChannel cfg old name txPin rxPin seed).view = (addedChannel cfg old' name txPin rxPin seed).view := by
  have htxd := ((legal_iff _).mp hl).1
  have hqueue (x : Channel) (hx : ArenaSizes cfg x) :
      (addedChannel cfg x name txPin rxPin seed).txQueue = [blankMessage] := by
    have hpos : 0 < x.txPay.length := hx.1 ▸ htxd
    simp [Channel.txQueue, addedChannel, hpos]
  simp only [Channel.view, hqueue old ha, hqueue old' ha']
  rfl

/-- The active slots are where the names of the active channels are found. -/
theorem chActive_eq_filterMap_find {s : State} (h : BlockInv s) :
    (s.activeChannels.map (·.name)).filterMap s.find = s.chActive := by
  rw [State.activeChannels, List.map_filterMap, List.filterMap_filterMap]
  calc s.chActive.filterMap _ = s.chActive.filterMap some := by
        apply List.filterMap_congr
        intro c hc
        obtain ⟨r, hr, -⟩ := h.record hc
        obtain ⟨-, -, -, hfind⟩ := lookup_some (lookup_known h hc hr)
        simp [hr, hfind]
    _ = s.chActive := List.filterMap_some

/-! ### Two blocks with one view -/

/-- Two states that meet the invariant and have one view. -/
structure Alike (s s' : State) : Prop where
  left : BlockInv s
  right : BlockInv s'
  view : s.view = s'.view

section AlikeFields

variable {s s' : State} (A : Alike s s')

include A

theorem Alike.cfg : s.cfg = s'.cfg := congrArg StateView.cfg A.view

theorem Alike.initialized : s.initialized = s'.initialized := congrArg StateView.initialized A.view

theorem Alike.room : s.chFree.length = s'.chFree.length := congrArg StateView.room A.view

theorem Alike.channels : s.view.channels = s'.view.channels := congrArg StateView.channels A.view

theorem Alike.line : s.line = s'.line := congrArg StateView.line A.view

theorem Alike.names : s.activeChannels.map (·.name) = s'.activeChannels.map (·.name) := by
  have hname (u : State) : u.activeChannels.map (·.name) = u.view.channels.map (·.name) := by
    rw [view_channels, List.map_map]
    rfl
  rw [hname, hname, A.channels]

/-- What the view of some active channel meets in one block, some active channel meets in the other. -/
theorem Alike.exists_channel (p : ChannelView → Prop) :
    (∃ r ∈ s.activeChannels, p r.view) ↔ ∃ x ∈ s'.activeChannels, p x.view := by
  have hmem (u : State) : (∃ r ∈ u.activeChannels, p r.view) ↔ ∃ v ∈ u.view.channels, p v := by
    simp only [view_channels, List.mem_map, exists_exists_and_eq_and]
  rw [hmem, hmem, A.channels]

/-- A name finds channels with one view in both blocks, or in neither. -/
theorem Alike.lookup (name : Byte) :
    (s.lookup name = none ∧ s'.lookup name = none) ∨
    ∃ k r k' x, s.lookup name = some (k, r) ∧ s'.lookup name = some (k', x) ∧ Twins s.cfg r x := by
  have hv := view_lookup s name
  rw [A.channels, ← view_lookup s'] at hv
  cases hl : s.lookup name with
  | none => exact .inl ⟨rfl, by simpa [hl] using hv.symm⟩
  | some p =>
    cases hl' : s'.lookup name with
    | none => simp [hl, hl'] at hv
    | some q =>
      simp only [hl, hl', Option.map_some, Option.some.injEq] at hv
      obtain ⟨-, -, hok⟩ := A.left.found hl
      obtain ⟨-, -, hok'⟩ := A.right.found hl'
      exact .inr ⟨p.1, p.2, q.1, q.2, rfl, rfl, hok, A.cfg ▸ hok', hv⟩

/-- Writing back records with one view leaves the blocks with one view. -/
theorem Alike.setSlot_view {name : Byte} {k k' : Nat} {r r' x x' : Channel} (hl : s.lookup name = some (k, r))
    (hl' : s'.lookup name = some (k', x)) (hv : r'.view = x'.view) :
    (s.setSlot k r').view = (s'.setSlot k' x').view := by
  rw [view_setSlot A.left hl, view_setSlot A.right hl', hv, A.view]

end AlikeFields

/-! ### The passes of a TICK -/

/-- A step at the slots that one name has in two blocks with one view: both answer a state, the two states have one
view again, and every name is still found where it was. -/
def KeepsAlike (f : State → Nat → Except Fault State) : Prop :=
  ∀ {s s' : State} {name : Byte} {c c' : Nat} {r x : Channel}, Alike s s' → s.lookup name = some (c, r) →
    s'.lookup name = some (c', x) → Twins s.cfg r x →
    ∃ t t', f s c = .ok t ∧ f s' c' = .ok t' ∧ Alike t t' ∧ t.find = s.find ∧ t'.find = s'.find

theorem rxAt_keepsAlike : KeepsAlike rxAt := by
  intro s s' name c c' r x A hl hl' hrx
  obtain ⟨hc, hr, -, -⟩ := lookup_some hl
  obtain ⟨hc', hx, -, -⟩ := lookup_some hl'
  obtain ⟨r0, r1, hr0, her, -, hfr, hstep, hinv⟩ := rxAt_ok A.left hc
  obtain ⟨x0, x1, hx0, hex, -, hfx, hstep', hinv'⟩ := rxAt_ok A.right hc'
  obtain rfl : r = r0 := Option.some.inj (hr.symm.trans hr0)
  obtain rfl : x = x0 := Option.some.inj (hx.symm.trans hx0)
  rw [← A.cfg, ← A.line] at hex
  have hv := hrx.rxStep A.left.tickPos A.left.pins.1 her hex
  exact ⟨_, _, hstep, hstep', ⟨hinv, hinv', A.setSlot_view hl hl' hv⟩, funext (find_setSlot hr hfr.name),
    funext (find_setSlot hx hfx.name)⟩

theorem txAt_keepsAlike : KeepsAlike txAt := by
  intro s s' name c c' r x A hl hl' hrx
  obtain ⟨hc, hr, -, -⟩ := lookup_some hl
  obtain ⟨hc', hx, -, -⟩ := lookup_some hl'
  obtain ⟨r0, r1, d, hr0, her, -, hfr, hstep, hinv⟩ := txAt_ok A.left hc
  obtain ⟨x0, x1, e, hx0, hex, -, hfx, hstep', hinv'⟩ := txAt_ok A.right hc'
  obtain rfl : r = r0 := Option.some.inj (hr.symm.trans hr0)
  obtain rfl : x = x0 := Option.some.inj (hx.symm.trans hx0)
  rw [← A.cfg] at hex
  obtain ⟨p, q, hp, hq, hv, hd⟩ := hrx.txStep
  obtain rfl : (r1, d) = p := Except.ok.inj (her.symm.trans hp)
  obtain rfl : (x1, e) = q := Except.ok.inj (hex.symm.trans hq)
  obtain rfl : d = e := hd
  have hpin : r.txPin = x.txPin := congrArg ChannelView.txPin hrx.view
  refine ⟨_, _, hstep, hstep', ⟨hinv, hinv', ?_⟩, funext (find_setSlot hr hfr.name),
    funext (find_setSlot hx hfx.name)⟩
  change { (s.setSlot c r1).view with line := driven s.line r.txPin d } =
    { (s'.setSlot c' x1).view with line := driven s'.line x.txPin d }
  rw [A.setSlot_view hl hl' hv, A.line, hpin]

/-- A pass that visits the channels of the same names in the same order in both blocks. -/
theorem KeepsAlike.pass {f : State → Nat → Except Fault State} (hf : KeepsAlike f) (names : List Byte) :
    ∀ {s s' : State}, Alike s s' → ∃ t t', pass f (names.filterMap s.find) s = .ok t ∧
      pass f (names.filterMap s'.find) s' = .ok t' ∧ Alike t t' ∧ t.find = s.find ∧ t'.find = s'.find := by
  induction names with
  | nil => exact fun {s s'} A => ⟨s, s', rfl, rfl, A, rfl, rfl⟩
  | cons name names ih =>
    intro s s' A
    rcases A.lookup name with ⟨hl, hl'⟩ | ⟨c, r, c', x, hl, hl', hrx⟩
    · rw [lookup_none_iff A.left] at hl
      rw [lookup_none_iff A.right] at hl'
      rw [List.filterMap_cons_none hl, List.filterMap_cons_none hl']
      exact ih A
    · obtain ⟨-, -, -, hfind⟩ := lookup_some hl
      obtain ⟨-, -, -, hfind'⟩ := lookup_some hl'
      obtain ⟨u, u', hu, hu', B, hsame, hsame'⟩ := hf A hl hl' hrx
      obtain ⟨t, t', ht, ht', C, hsame2, hsame2'⟩ := ih B
      rw [hsame] at ht hsame2
      rw [hsame'] at ht' hsame2'
      rw [List.filterMap_cons_some hfind, List.filterMap_cons_some hfind', pass_cons hu, pass_cons hu']
      exact ⟨t, t', ht, ht', C, hsame2, hsame2'⟩

theorem Alike.tickOver {s s' : State} (A : Alike s s') :
    ∃ t t', tickOver s.chActive s = .ok t ∧ tickOver s'.chActive s' = .ok t' ∧ t.view = t'.view := by
  have horder := chActive_eq_filterMap_find A.left
  have horder' := chActive_eq_filterMap_find A.right
  rw [← A.names] at horder'
  obtain ⟨u, u', hu, hu', B, hsame, hsame'⟩ := rxAt_keepsAlike.pass (s.activeChannels.map (·.name)) A
  obtain ⟨t, t', ht, ht', C, -, -⟩ := txAt_keepsAlike.pass (s.activeChannels.map (·.name)) B
  rw [hsame, horder] at ht
  rw [hsame', horder'] at ht'
  rw [horder] at hu
  rw [horder'] at hu'
  exact ⟨t, t', by simp only [Machine.tickOver, hu, ok_bind, ht], by simp only [Machine.tickOver, hu', ok_bind, ht'],
    C.view⟩

/-! ### Outcomes with one view -/

/-- Where the first outcome is a next state, so is the second, with the same view. -/
def Agree (o o' : Host.Outcome State Fault Refusal) : Prop :=
  ∀ t, o = .next t → ∃ t', o' = .next t' ∧ t.view = t'.view

theorem agree_next {t t' : State} (h : t.view = t'.view) : Agree (.next t) (.next t') := by
  intro u hu
  cases hu
  exact ⟨t', rfl, h⟩

theorem agree_refused (why : Refusal) (o : Host.Outcome State Fault Refusal) : Agree (.refused why) o := by
  intro u hu
  cases hu

/-- States with one view that end a command with one response. -/
theorem agree_respond {t t' : State} (h : t.view = t'.view) (code : ResultCode) (data : Byte) :
    Agree (.next (t.respond code data)) (.next (t'.respond code data)) := by
  apply agree_next
  change { t.view with responses := t.view.responses ++ [responseWord code data] } =
    { t'.view with responses := t'.view.responses ++ [responseWord code data] }
  rw [h]

/-! ### Each event -/

section Events

variable {s s' : State} (A : Alike s s')

include A

theorem execTick_agree : Agree (execTick s) (execTick s') := by
  cases hi : s.initialized with
  | false =>
    rw [execTick, execTick, if_pos hi, if_pos (A.initialized ▸ hi)]
    exact agree_next A.view
  | true =>
    obtain ⟨t, t', ht, ht', hv⟩ := A.tickOver
    rw [execTick, execTick, if_neg (by simp [hi]), if_neg (by simp [← A.initialized, hi]), ht, ht']
    exact agree_next hv

theorem execInit_agree : Agree (execInit s) (execInit s') := by
  cases hi : s.initialized with
  | true =>
    rw [execInit_again hi, execInit_again (A.initialized ▸ hi)]
    exact agree_respond A.view _ _
  | false =>
    rw [execInit_first hi, execInit_first (A.initialized ▸ hi)]
    apply agree_respond
    change { s.view with initialized := true, room := (List.range s.view.cfg.nch).length, channels := [] } =
      { s'.view with initialized := true, room := (List.range s'.view.cfg.nch).length, channels := [] }
    rw [A.view]

/-- Channels with one view that join at the head of each Registry leave the blocks with one view. -/
theorem Alike.joined_view {c c' : Nat} {free free' : List Nat} (hf : s.chFree = c :: free)
    (hf' : s'.chFree = c' :: free') {r x : Channel} (hv : r.view = x.view) :
    (s.joined c free r).view = (s'.joined c' free' x).view := by
  obtain ⟨hc, hlt⟩ := A.left.head_unused hf
  obtain ⟨hc', hlt'⟩ := A.right.head_unused hf'
  have hroom : free.length = free'.length := by simpa [hf, hf'] using A.room
  have htx : r.txPin = x.txPin := congrArg ChannelView.txPin hv
  have hrx : r.rxPin = x.rxPin := congrArg ChannelView.rxPin hv
  rw [view_joined hc hlt, view_joined hc' hlt', A.view, hv, hroom, htx, hrx]

theorem execAdd_agree (name txPin rxPin : Byte) : Agree (execAdd name txPin rxPin s) (execAdd name txPin rxPin s') := by
  by_cases hpins : s.cfg.npins ≤ txPin.toNat ∨ s.cfg.npins ≤ rxPin.toNat
  · rw [execAdd_illegal hpins]
    exact agree_refused _ _
  push Not at hpins
  obtain ⟨ht, hx⟩ := hpins
  have ht' : txPin.toNat < s'.cfg.npins := A.cfg ▸ ht
  have hx' : rxPin.toNat < s'.cfg.npins := A.cfg ▸ hx
  cases hi : s.initialized with
  | false =>
    rw [execAdd_uninit ht hx hi, execAdd_uninit ht' hx' (A.initialized ▸ hi)]
    exact agree_respond A.view _ _
  | true =>
    have hi' : s'.initialized = true := A.initialized ▸ hi
    cases hf : s.chFree with
    | nil =>
      have hf' : s'.chFree = [] := List.length_eq_zero_iff.mp (by rw [← A.room, hf]; rfl)
      rw [execAdd_full ht hx hi hf, execAdd_full ht' hx' hi' hf']
      exact agree_respond A.view _ _
    | cons c free =>
      obtain ⟨c', free', hf'⟩ : ∃ c' free', s'.chFree = c' :: free' :=
        List.exists_cons_of_length_pos (by rw [← A.room, hf]; simp)
      have hnames : (∃ r ∈ s.activeChannels, r.name = name) ↔ ∃ x ∈ s'.activeChannels, x.name = name :=
        A.exists_channel (·.name = name)
      have htxPins : (∃ r ∈ s.activeChannels, r.txPin = txPin) ↔ ∃ x ∈ s'.activeChannels, x.txPin = txPin :=
        A.exists_channel (·.txPin = txPin)
      by_cases hname : ∃ r ∈ s.activeChannels, r.name = name
      · rw [execAdd_nameUsed ht hx hi hf hname, execAdd_nameUsed ht' hx' hi' hf' (hnames.mp hname)]
        exact agree_respond A.view _ _
      have hname' := mt hnames.mpr hname
      by_cases hpin : ∃ r ∈ s.activeChannels, r.txPin = txPin
      · rw [execAdd_txPinUsed ht hx hi hf hname hpin, execAdd_txPinUsed ht' hx' hi' hf' hname' (htxPins.mp hpin)]
        exact agree_respond A.view _ _
      have hpin' := mt htxPins.mpr hpin
      push Not at hname hname' hpin hpin'
      obtain ⟨old, hold, he⟩ := execAdd_ok A.left hf ht hx hname hpin
      obtain ⟨old', hold', he'⟩ := execAdd_ok A.right hf' ht' hx' hname' hpin'
      have hadded := view_addedChannel A.left.config (A.left.arenas old (List.mem_of_getElem? hold))
        (A.cfg ▸ A.right.arenas old' (List.mem_of_getElem? hold')) name txPin rxPin
        ((s.line.set txPin.toNat true).getD rxPin.toNat false)
      rw [he, he', ← A.cfg, ← A.line]
      exact agree_respond (A.joined_view hf hf' hadded) _ _

theorem execSend_agree (name data : Byte) (c b : Bool) :
    Agree (execSend name data c b s) (execSend name data c b s') := by
  cases hi : s.initialized with
  | false =>
    rw [execSend_uninit hi, execSend_uninit (A.initialized ▸ hi)]
    exact agree_respond A.view _ _
  | true =>
    have hi' : s'.initialized = true := A.initialized ▸ hi
    rcases A.lookup name with ⟨hl, hl'⟩ | ⟨k, r, k', x, hl, hl', hrx⟩
    · rw [execSend_unknown hi hl, execSend_unknown hi' hl']
      exact agree_respond A.view _ _
    · have hroom : r.txFree.length = x.txFree.length := congrArg ChannelView.txRoom hrx.view
      have hok' : ChannelOk s'.cfg x := A.cfg ▸ hrx.right
      cases hf : r.txFree with
      | nil =>
        have hf' : x.txFree = [] := List.length_eq_zero_iff.mp (by rw [← hroom, hf]; rfl)
        rw [execSend_full hi hl hf, execSend_full hi' hl' hf']
        exact agree_respond A.view _ _
      | cons n free =>
        obtain ⟨n', free', hf'⟩ : ∃ n' free', x.txFree = n' :: free' :=
          List.exists_cons_of_length_pos (by rw [← hroom, hf]; simp)
        rw [execSend_room hi hl hf hrx.left.arenas hrx.left.pools,
          execSend_room hi' hl' hf' hok'.arenas hok'.pools]
        refine agree_respond (A.setSlot_view hl hl' ?_) _ _
        rw [view_enqueueTx hrx.left.arenas hrx.left.pools hf, view_enqueueTx hok'.arenas hok'.pools hf', hrx.view]

/-- Taking a received message gives one code and one byte in both blocks. -/
theorem receive_alike (name : Byte) :
    ∃ code data t t', receive name s = .ok (code, data, t) ∧ receive name s' = .ok (code, data, t') ∧
      t.view = t'.view := by
  cases hi : s.initialized with
  | false => exact ⟨_, _, s, s', receive_uninit hi name, receive_uninit (A.initialized ▸ hi) name, A.view⟩
  | true =>
    have hi' : s'.initialized = true := A.initialized ▸ hi
    rcases A.lookup name with ⟨hl, hl'⟩ | ⟨k, r, k', x, hl, hl', hrx⟩
    · exact ⟨_, _, s, s', receive_unknown hi hl, receive_unknown hi' hl', A.view⟩
    · obtain ⟨har, hpr, -⟩ := hrx.left
      obtain ⟨hax, hpx, -⟩ : ChannelOk s'.cfg x := A.cfg ▸ hrx.right
      have hempty : r.rxPend = [] ↔ x.rxPend = [] := by rw [rxPend_nil_iff har hpr, rxPend_nil_iff hax hpx, hrx.view]
      cases hq : r.rxPend with
      | nil => exact ⟨_, _, s, s', receive_empty hi hl hq, receive_empty hi' hl' (hempty.mp hq), A.view⟩
      | cons n pend =>
        cases hqx : x.rxPend with
        | nil => exact absurd (hempty.mpr hqx) (by simp [hq])
        | cons n' pend' =>
          obtain ⟨m, -, hm, he⟩ := receive_head hi hl hq har hpr
          obtain ⟨m', -, hm', he'⟩ := receive_head hi' hl' hqx hax hpx
          have hqueue : r.rxQueue = x.rxQueue := congrArg ChannelView.rxQueue hrx.view
          obtain rfl : m = m' := by
            rw [hm, hm'] at hqueue
            exact (List.cons.inj hqueue).1
          refine ⟨_, _, _, _, he, he', A.setSlot_view hl hl' ?_⟩
          rw [view_dequeueRx har hpr hq, view_dequeueRx hax hpx hqx, hrx.view]

theorem execRecv_agree (name : Byte) : Agree (execRecv name s) (execRecv name s') := by
  obtain ⟨code, data, t, t', he, he', hv⟩ := receive_alike A name
  rw [execRecv_of he, execRecv_of he']
  exact agree_respond hv _ _

theorem execRecvb_agree (name : Byte) : Agree (execRecvb name s) (execRecvb name s') := by
  have port {u u' : State} (h : u.view = u'.view) (o : Option Byte) :
      ({ u with outstanding := o } : State).view = ({ u' with outstanding := o } : State).view :=
    congrArg (fun v : StateView => { v with outstanding := o }) h
  obtain ⟨code, data, t, t', he, he', hv⟩ := receive_alike A name
  by_cases hc : code = .bufferEmpty
  · subst hc
    rw [execRecvb_hold he, execRecvb_hold he']
    exact agree_next (port A.view _)
  · rw [execRecvb_complete he hc, execRecvb_complete he' hc]
    exact agree_respond (port hv _) _ _

theorem execClrtx_agree (name : Byte) : Agree (execClrtx name s) (execClrtx name s') := by
  rcases A.lookup name with ⟨hl, hl'⟩ | ⟨k, r, k', x, hl, hl', hrx⟩
  · rw [execClrtx_unknown hl, execClrtx_unknown hl']
    exact agree_respond A.view _ _
  · have hv : r.mergeTx.view = x.mergeTx.view := by
      rw [view_mergeTx hrx.left.pools, view_mergeTx hrx.right.pools, hrx.view]
    rw [execClrtx_known hl, execClrtx_known hl']
    exact agree_respond (A.setSlot_view hl hl' hv) _ _

theorem execClrrx_agree (name : Byte) : Agree (execClrrx name s) (execClrrx name s') := by
  rcases A.lookup name with ⟨hl, hl'⟩ | ⟨k, r, k', x, hl, hl', hrx⟩
  · rw [execClrrx_unknown hl, execClrrx_unknown hl']
    exact agree_respond A.view _ _
  · have hv : r.flushRx.view = x.flushRx.view := by
      rw [view_flushRx hrx.left.pools, view_flushRx hrx.right.pools, hrx.view]
    rw [execClrrx_known hl, execClrrx_known hl']
    exact agree_respond (A.setSlot_view hl hl' hv) _ _

theorem execLine_agree (pin : Byte) (v : Bool) : Agree (execLine pin v s) (execLine pin v s') := by
  by_cases hp : s.cfg.npins ≤ pin.toNat
  · rw [execLine_illegal hp]
    exact agree_refused _ _
  · push Not at hp
    rw [execLine_legal A.left hp, execLine_legal A.right (A.cfg ▸ hp)]
    exact agree_next (congrArg (fun u : StateView => { u with line := u.line.set pin.toNat v }) A.view)

theorem exec_agree (i : Instr) : Agree (exec i s) (exec i s') := by
  cases i with
  | tick => exact execTick_agree A
  | init => exact execInit_agree A
  | add name txPin rxPin => exact execAdd_agree A name txPin rxPin
  | send name data c b => exact execSend_agree A name data c b
  | recv name => exact execRecv_agree A name
  | recvb name => exact execRecvb_agree A name
  | clrtx name => exact execClrtx_agree A name
  | clrrx name => exact execClrrx_agree A name
  | line pin v => exact execLine_agree A pin v

end Events

/-- Settles O54: two blocks with one view find each channel by its name, so every event does in both what it does to
the view. -/
theorem slotsAndNodesAreUnobservable : Obligations.SlotsAndNodesAreUnobservable :=
  fun i _ _ t h h' hv ht => exec_agree ⟨h, h', hv⟩ i t ht

end Sys2Proof.Machine
end

section
/-! Which events may change which pools (spec/20_memory.md R74): the ownership table as a relation of two states, and
each event held to it by what the event writes. -/

namespace Sys2Proof.Machine

/-- A slot's pools change from `r` to `r'` only as the table of spec/20_memory.md R74 lets the operation `op` change
them. -/
def SlotChangedByOwner (op : Op) (r r' : Channel) : Prop :=
  (r'.txFree ≠ r.txFree ∨ r'.txPend ≠ r.txPend → op = .send ∨ op = .add ∨ op = .clrtx ∨ op = .tick) ∧
  (r'.rxFree ≠ r.rxFree ∨ r'.rxPend ≠ r.rxPend → op = .recv ∨ op = .recvb ∨ op = .clrrx ∨ op = .tick)

/-- All pools of the block change from `s` to `t` only as the table of spec/20_memory.md R74 lets the operation `op`
change them. -/
structure ChangedByOwner (op : Op) (s t : State) : Prop where
  registry : t.chFree ≠ s.chFree ∨ t.chActive ≠ s.chActive → op = .add
  slots : ∀ (c : Nat) (r r' : Channel), s.ch[c]? = some r → t.ch[c]? = some r' → SlotChangedByOwner op r r'

/-! ### Changes of one record -/

theorem SlotChangedByOwner.refl (op : Op) (r : Channel) : SlotChangedByOwner op r r := by simp [SlotChangedByOwner]

theorem SlotChangedByOwner.of_rx_kept {op : Op} {r r' : Channel}
    (hop : op = .send ∨ op = .add ∨ op = .clrtx ∨ op = .tick) (hfree : r'.rxFree = r.rxFree)
    (hpend : r'.rxPend = r.rxPend) : SlotChangedByOwner op r r' :=
  ⟨fun _ => hop, fun hne => by simp [hfree, hpend] at hne⟩

theorem SlotChangedByOwner.of_tx_kept {op : Op} {r r' : Channel}
    (hop : op = .recv ∨ op = .recvb ∨ op = .clrrx ∨ op = .tick) (hfree : r'.txFree = r.txFree)
    (hpend : r'.txPend = r.txPend) : SlotChangedByOwner op r r' :=
  ⟨fun hne => by simp [hfree, hpend] at hne, fun _ => hop⟩

/-! ### Changes of the block -/

theorem slots_changedByOwner_set {op : Op} {s : State} {k : Nat} {r r' : Channel} (hr : s.ch[k]? = some r)
    (hown : SlotChangedByOwner op r r') (c : Nat) (x x' : Channel) (hx : s.ch[c]? = some x)
    (hx' : (s.ch.set k r')[c]? = some x') : SlotChangedByOwner op x x' := by
  by_cases hck : k = c
  · subst hck
    obtain ⟨-, rfl⟩ : k < s.ch.length ∧ r' = x' := by simpa [List.getElem?_set] using hx'
    obtain rfl : r = x := Option.some.inj (hr.symm.trans hx)
    exact hown
  · rw [List.getElem?_set_ne hck, hx] at hx'
    cases hx'
    exact .refl op x

theorem ChangedByOwner.of_kept {op : Op} {s t : State} (hfree : t.chFree = s.chFree)
    (hactive : t.chActive = s.chActive) (hch : t.ch = s.ch) : ChangedByOwner op s t where
  registry hne := by simp [hfree, hactive] at hne
  slots c r r' hr hr' := by
    rw [hch, hr] at hr'
    cases hr'
    exact .refl op r

theorem ChangedByOwner.respond {op : Op} {s t : State} (h : ChangedByOwner op s t) (code : ResultCode) (data : Byte) :
    ChangedByOwner op s (t.respond code data) := ⟨h.registry, h.slots⟩

theorem respond_changedByOwner (op : Op) (s : State) (code : ResultCode) (data : Byte) :
    ChangedByOwner op s (s.respond code data) := .of_kept rfl rfl rfl

theorem setSlot_changedByOwner {op : Op} {s : State} {name : Byte} {k : Nat} {r r' : Channel}
    (hl : s.lookup name = some (k, r)) (hown : SlotChangedByOwner op r r') : ChangedByOwner op s (s.setSlot k r') where
  registry hne := by simp at hne
  slots := slots_changedByOwner_set (lookup_some hl).2.1 hown

/-! ### Each event -/

section Events

variable {s t : State}

theorem execTick_changedByOwner (he : execTick s = .next t) : ChangedByOwner .tick s t := by
  rw [execTick_frame he]
  exact ⟨fun hne => by simp at hne, fun _ _ _ _ _ => ⟨fun _ => by simp, fun _ => by simp⟩⟩

theorem execInit_changedByOwner (hi : s.initialized = true) (he : execInit s = .next t) :
    ChangedByOwner .init s t := by
  rw [execInit_again hi] at he
  cases he
  exact respond_changedByOwner _ _ _ _

theorem execLine_changedByOwner {pin : Byte} {v : Bool} (he : execLine pin v s = .next t) :
    ChangedByOwner .line s t := by
  rw [execLine_frame he]
  exact .of_kept rfl rfl rfl

theorem execClrtx_changedByOwner {name : Byte} (he : execClrtx name s = .next t) : ChangedByOwner .clrtx s t := by
  cases hl : s.lookup name with
  | none =>
    rw [execClrtx_unknown hl] at he
    cases he
    exact respond_changedByOwner _ _ _ _
  | some p =>
    rw [execClrtx_known hl] at he
    cases he
    refine .respond ?_ _ _
    exact setSlot_changedByOwner hl (.of_rx_kept (by simp) rfl rfl)

theorem execClrrx_changedByOwner {name : Byte} (he : execClrrx name s = .next t) : ChangedByOwner .clrrx s t := by
  cases hl : s.lookup name with
  | none =>
    rw [execClrrx_unknown hl] at he
    cases he
    exact respond_changedByOwner _ _ _ _
  | some p =>
    rw [execClrrx_known hl] at he
    cases he
    refine .respond ?_ _ _
    exact setSlot_changedByOwner hl (.of_tx_kept (by simp) rfl rfl)

variable (h : BlockInv s)

include h

/-- A successful ADD writes a record whose RX pools are those that INIT linked, and a free slot still has these
(spec/42_host_commands.md R172, R173). -/
theorem execAdd_changedByOwner {name txPin rxPin : Byte} (he : execAdd name txPin rxPin s = .next t) :
    ChangedByOwner .add s t := by
  rcases execAdd_inv he with ⟨code, -, rfl⟩ | ⟨c, free, u, -, hf, ha, rfl⟩
  · exact respond_changedByOwner _ _ _ _
  · have hpins : txPin.toNat < s.cfg.npins ∧ rxPin.toNat < s.cfg.npins := by
      by_contra hp
      rw [execAdd_illegal (by omega) name] at he
      cases he
    obtain ⟨old, hold, hjoin⟩ := addChannel_ok h hf hpins.1 hpins.2 name
    rw [hjoin] at ha
    cases ha
    obtain ⟨-, -, hrxFree, hrxPend⟩ := h.fresh c (by simp [hf]) old hold
    have hown : SlotChangedByOwner .add old (addedChannel s.cfg old name txPin rxPin
        ((s.line.set txPin.toNat true).getD rxPin.toNat false)) :=
      .of_rx_kept (by simp) hrxFree.symm hrxPend.symm
    exact ⟨fun _ => rfl, slots_changedByOwner_set hold hown⟩

theorem execSend_changedByOwner {name data : Byte} {c b : Bool} (he : execSend name data c b s = .next t) :
    ChangedByOwner .send s t := by
  rcases execSend_inv he with ⟨code, -, rfl⟩ | ⟨k, r, r', -, hl, hr', rfl⟩
  · exact respond_changedByOwner _ _ _ _
  · obtain ⟨-, -, hok⟩ := h.found hl
    cases hf : r.txFree with
    | nil =>
      rw [enqueueTx_full hf] at hr'
      cases hr'
    | cons n free =>
      rw [enqueueTx_room hf hok.arenas hok.pools] at hr'
      cases hr'
      refine .respond ?_ _ _
      exact setSlot_changedByOwner hl (.of_rx_kept (by simp) rfl rfl)

/-- Taking a received message, which RECV and RECVB share, moves a node of the channel's RX pools or moves none
(spec/42_host_commands.md R175). -/
theorem receive_changedByOwner {op : Op} (hop : op = .recv ∨ op = .recvb) {name data : Byte} {code : ResultCode}
    (he : receive name s = .ok (code, data, t)) : ChangedByOwner op s t := by
  rcases receive_cases h name with
    ⟨-, hcase⟩ | ⟨-, -, hcase⟩ | ⟨_, _, -, -, -, hcase⟩ | ⟨k, r, n, pend, m, -, hl, -, -, hcase⟩ <;>
    rw [hcase] at he <;> cases he
  · exact .of_kept rfl rfl rfl
  · exact .of_kept rfl rfl rfl
  · exact .of_kept rfl rfl rfl
  · exact setSlot_changedByOwner hl (.of_tx_kept (hop.imp_right .inl) rfl rfl)

theorem execRecv_changedByOwner {name : Byte} (he : execRecv name s = .next t) : ChangedByOwner .recv s t := by
  obtain ⟨code, data, u, hu, rfl⟩ := execRecv_inv he
  exact (receive_changedByOwner h (.inl rfl) hu).respond _ _

theorem execRecvb_changedByOwner {name : Byte} (he : execRecvb name s = .next t) : ChangedByOwner .recvb s t := by
  obtain ⟨code, data, u, hu, rfl⟩ := execRecvb_inv he
  split
  · exact .of_kept rfl rfl rfl
  · obtain ⟨hregistry, hslots⟩ := receive_changedByOwner h (.inr rfl) hu
    exact ⟨hregistry, hslots⟩

theorem exec_changedByOwner (hi : s.initialized = true) {i : Instr} (he : exec i s = .next t) :
    ChangedByOwner i.op s t := by
  cases i with
  | tick => exact execTick_changedByOwner he
  | init => exact execInit_changedByOwner hi he
  | add name txPin rxPin => exact execAdd_changedByOwner h he
  | send name data c b => exact execSend_changedByOwner h he
  | recv name => exact execRecv_changedByOwner h he
  | recvb name => exact execRecvb_changedByOwner h he
  | clrtx name => exact execClrtx_changedByOwner he
  | clrrx name => exact execClrrx_changedByOwner he
  | line pin v => exact execLine_changedByOwner he

end Events

/-- Settles O30: every event is held to the ownership table by what it writes. -/
theorem poolsChangeOnlyByTheirOwners : Obligations.PoolsChangeOnlyByTheirOwners := by
  intro i s t h hi he
  obtain ⟨hregistry, hslots⟩ := exec_changedByOwner h hi he
  exact ⟨hregistry, hslots⟩

end Sys2Proof.Machine
end

section
/-! Event words (spec/30_encoding.md R85 to R94). Every operation has one row, a word matches at most one row, and a word
is its row's fixed bits and its operand bits: decoding and encoding are each other's inverse on the legal words, and what
matches no row is refused. -/

namespace Sys2Proof

open Laws Machine

/-! ### At most one row accepts a word (spec/30_encoding.md R86) -/

/-- Rows that accept one word agree on every bit that both of them fix. -/
theorem OpRow.fixed_bits_agree {r r' : OpRow} {w : Word} (h : r.accepts w = true) (h' : r'.accepts w = true) :
    r.value &&& r'.mask = r'.value &&& r.mask := by
  simp only [OpRow.accepts, beq_iff_eq] at h h'
  rw [← h, ← h', BitVec.and_assoc, BitVec.and_assoc, BitVec.and_comm r.mask]

/-- Any two rows of the table differ on a bit that both fix. -/
theorem row_eq_of_fixed_bits_agree : ∀ r ∈ opcodeTable, ∀ r' ∈ opcodeTable,
    r.value &&& r'.mask = r'.value &&& r.mask → r = r' := by decide

/-- Settles O3: two rows that accept one word agree on the bits both fix, and only a row and itself do. -/
theorem noWordMatchesTwoRows : Obligations.NoWordMatchesTwoRows :=
  fun _ r hr r' hr' h h' => row_eq_of_fixed_bits_agree r hr r' hr' (OpRow.fixed_bits_agree h h')

/-! ### The decoder and the row that matched (spec/30_encoding.md R91) -/

@[simp] theorem op_rowOf (op : Op) : (rowOf op).op = op := by cases op <;> rfl

theorem find_row_inv {r : OpRow} {w : Word} (h : opcodeTable.find? (fun r => r.accepts w) = some r) :
    r ∈ opcodeTable ∧ r.accepts w = true :=
  ⟨List.mem_of_find?_eq_some h, List.find?_some (p := fun r : OpRow => r.accepts w) h⟩

/-- Steps 1 and 2 of spec/30_encoding.md R91 for a word that matches the row of `op`. -/
theorem decode_of_accepts {op : Op} {w : Word} (h : (rowOf op).accepts w = true) : decode w = .ok (assemble op w) := by
  unfold decode
  cases hf : opcodeTable.find? (fun r => r.accepts w) with
  | none => exact absurd h (List.find?_eq_none.mp hf _ (rowOf_mem op))
  | some r =>
    obtain ⟨hmem, hacc⟩ := find_row_inv hf
    simp [noWordMatchesTwoRows w r hmem _ (rowOf_mem op) hacc h]

theorem eq_rowOf_of_mem : ∀ r ∈ opcodeTable, r = rowOf r.op := by decide

/-- A word that decodes matches the row of an operation, and its operands are that operation's fields. -/
theorem decode_ok_inv {w : Word} {i : Instr} (h : decode w = .ok i) :
    ∃ op, (rowOf op).accepts w = true ∧ i = assemble op w := by
  unfold decode at h
  split at h
  · rename_i r hf
    cases h
    obtain ⟨hmem, hacc⟩ := find_row_inv hf
    exact ⟨r.op, eq_rowOf_of_mem r hmem ▸ hacc, rfl⟩
  · cases h

/-! ### Decoding the word of an event -/

theorem rowOf_accepts_encode (i : Instr) : (rowOf i.op).accepts (encode i) = true := by
  cases i with
  | tick => exact RowMatch.tick
  | init => exact RowMatch.init
  | add name txPin rxPin => exact RowMatch.add name txPin rxPin
  | send name data c b => exact RowMatch.send name data c b
  | recv name => exact RowMatch.recv name
  | recvb name => exact RowMatch.recvb name
  | clrtx name => exact RowMatch.clrtx name
  | clrrx name => exact RowMatch.clrrx name
  | line pin v => exact RowMatch.line pin v

/-- The fields of a packed word are what was packed, so no operand is lost (spec/30_encoding.md R88). -/
@[simp] theorem assemble_encode (i : Instr) : assemble i.op (encode i) = i := by
  cases i <;> simp [Instr.op, assemble, encode]

/-- Settles O1: the word of an event matches the row of its operation, and its fields are the operands. -/
theorem decodeOfEncode : Obligations.DecodeOfEncode := by
  intro i
  rw [decode_of_accepts (rowOf_accepts_encode i), assemble_encode]

theorem decode_of_encode_eq {i : Instr} {w : Word} (h : encode i = w) : decode w = .ok i := h ▸ decodeOfEncode i

/-- Settles O5: each of the words is the word of its event. -/
theorem workedEncodingsDecode : Obligations.WorkedEncodingsDecode := by
  refine ⟨?_, ?_, ?_, ?_, ?_, ?_, ?_, ?_, ?_, ?_, ?_, ?_, rfl⟩
  all_goals exact decode_of_encode_eq rfl

/-! ### One spelling for each legal word (spec/30_encoding.md R90) -/

@[simp] theorem op_assemble (op : Op) (w : Word) : (assemble op w).op = op := by cases op <;> rfl

/-- A word is determined by the row that accepts it and by the bits this row leaves free. -/
theorem OpRow.eq_of_free_bits {r : OpRow} {w w' : Word} (h : r.accepts w = true) (h' : r.accepts w' = true)
    (hfree : ∀ k < 32, r.mask.getLsbD k = false → w.getLsbD k = w'.getLsbD k) : w = w' := by
  refine BitVec.eq_of_getLsbD_eq fun k hk => ?_
  cases hm : r.mask.getLsbD k with
  | false => exact hfree k hk hm
  | true =>
    have hw := (accepts_iff r w).mp h k hk
    have hw' := (accepts_iff r w').mp h' k hk
    rw [hm, Bool.and_true] at hw hw'
    rw [hw, hw']

/-- Every bit that a row leaves free belongs to an operand, and the operand's field gives it back. -/
theorem encode_assemble_free_bit (op : Op) (w : Word) {k : Nat} (hk : k < 32)
    (hfree : (rowOf op).mask.getLsbD k = false) : (encode (assemble op w)).getLsbD k = w.getLsbD k := by
  cases op
  all_goals
    simp only [assemble, encode, packWord_bit, rowOf] at hfree ⊢
    interval_cases k
    all_goals simp_all [nameField, dataField, rxPinField, bitFour, bitFive]

/-- Settles O2: the word and the word of its event have the same row and the same operand bits. -/
theorem encodeOfDecode : Obligations.EncodeOfDecode := by
  intro w i h
  obtain ⟨op, hrow, rfl⟩ := decode_ok_inv h
  have hrow' : (rowOf op).accepts (encode (assemble op w)) = true := by
    simpa using rowOf_accepts_encode (assemble op w)
  exact OpRow.eq_of_free_bits hrow' hrow fun k hk => encode_assemble_free_bit op w hk

/-! ### Illegal words (spec/30_encoding.md R89) -/

theorem decode_of_no_row {w : Word} (h : ∀ r ∈ opcodeTable, r.accepts w = false) :
    decode w = .error (if 8 ≤ (opField w).toNat then .unusedOp else .reservedBits) := by
  have hf : opcodeTable.find? (fun r => r.accepts w) = none :=
    List.find?_eq_none.mpr fun r hr => by simp [h r hr]
  rw [decode, hf]

theorem op_bits_fixed : ∀ r ∈ opcodeTable, ∀ k < 4, r.mask.getLsbD k = true := by decide

theorem opField_value_lt : ∀ r ∈ opcodeTable, (opField r.value).toNat < 8 := by decide

/-- Every row fixes the four bits of the operation. -/
theorem opField_of_accepts {r : OpRow} {w : Word} (hr : r ∈ opcodeTable) (h : r.accepts w = true) :
    opField r.value = opField w := by
  refine BitVec.eq_of_getLsbD_eq fun k hk => ?_
  simp [opField, hk, ← (accepts_iff r w).mp h k (by omega), op_bits_fixed r hr k hk]

theorem decode_unusedOp {w : Word} (h : 8 ≤ (opField w).toNat) : decode w = .error .unusedOp := by
  have hrow : ∀ r ∈ opcodeTable, r.accepts w = false := by
    refine fun r hr => Bool.eq_false_iff.mpr fun hacc => ?_
    have hlt := opField_value_lt r hr
    rw [opField_of_accepts hr hacc] at hlt
    omega
  rw [decode_of_no_row hrow, if_pos h]

/-- A row does not accept a word that sets a bit the row holds at zero. -/
theorem OpRow.accepts_of_reserved_bit {r : OpRow} {w : Word} {k : Nat} (hk : k < 32)
    (hm : r.mask.getLsbD k = true) (hv : r.value.getLsbD k = false) (hw : w.getLsbD k = true) :
    r.accepts w = false := by
  refine Bool.eq_false_iff.mpr fun hacc => ?_
  have hbit := (accepts_iff r w).mp hacc k hk
  simp [hm, hv, hw] at hbit

theorem decode_reservedBits {w : Word} (h : (opField w).toNat < 8)
    (hbits : ∀ row ∈ opcodeTable, opField row.value = opField w →
      ∃ k < 32, row.mask.getLsbD k = true ∧ row.value.getLsbD k = false ∧ w.getLsbD k = true) :
    decode w = .error .reservedBits := by
  have hrow : ∀ r ∈ opcodeTable, r.accepts w = false := by
    refine fun r hr => Bool.eq_false_iff.mpr fun hacc => ?_
    obtain ⟨k, hk, hm, hv, hw⟩ := hbits r hr (opField_of_accepts hr hacc)
    exact Bool.eq_false_iff.mp (OpRow.accepts_of_reserved_bit hk hm hv hw) hacc
  rw [decode_of_no_row hrow, if_neg (by omega)]

/-- The step refuses a word that is no event, for the decoder's reason. -/
theorem step_illegal_word {s : State} {w : Word} {rest : List Word} {e : DecodeError} (hc : s.cfg.legal = true)
    (ho : s.outstanding = none) (he : s.events = w :: rest) (hd : decode w = .error e) :
    step s = .refused (.illegalWord e) := by
  simp [step, fetch_idle hc ho, fetchNext, he, issueWord, hd]

/-- Settles O4: the decoder rejects the first two kinds of word by name, and an event refuses the third. -/
theorem illegalWordsAreRefused : Obligations.IllegalWordsAreRefused := by
  intro s w rest hc ho he
  refine ⟨fun hop => ?_, fun hop hbits => ?_, fun i hd hpin => ?_⟩
  · exact step_illegal_word hc ho he (decode_unusedOp hop)
  · exact step_illegal_word hc ho he (decode_reservedBits hop hbits)
  · rw [(stepRunsTheNextEvent s hc ho).1 w rest i he hd]
    exact exec_illegal_pin hpin

end Sys2Proof
end

section
/-! The response of a host command (spec/30_encoding.md R87). -/

namespace Sys2Proof.Machine

/-! ### The response word -/

/-- Every bit of a response word. -/
theorem responseWord_bit (code : ResultCode) (data : Byte) (k : Nat) :
    (responseWord code data).getLsbD k =
      if k < 4 then code.bits.getLsbD k
      else if k < 8 then false
      else if k < 16 then data.getLsbD (k - 8)
      else false := by
  unfold responseWord
  simp only [BitVec.getLsbD_append, BitVec.getLsbD_zero]
  grind

theorem responseWord_fields (code : ResultCode) (data : Byte) :
    (responseWord code data).extractLsb' 0 4 = code.bits ∧ (responseWord code data).extractLsb' 4 4 = 0#4 ∧
      (responseWord code data).extractLsb' 8 8 = data ∧ (responseWord code data).extractLsb' 16 16 = 0#16 := by
  refine ⟨?_, ?_, ?_, ?_⟩
  all_goals
    refine BitVec.eq_of_getLsbD_eq fun k hk => ?_
    simp only [BitVec.getLsbD_extractLsb', responseWord_bit, BitVec.getLsbD_zero]
    grind

/-- The codes that come with a received message. -/
theorem classify_delivers (m : Message) :
    classify m = .ok ∨ classify m = .parityError ∨ classify m = .stopViolation := by
  unfold classify
  split
  · exact .inr (.inr rfl)
  · split
    · exact .inr (.inl rfl)
    · exact .inl rfl

/-! ### One response for each command -/

/-- The event `i` appends exactly one response word between `s` and `t`, with data only for RECV and RECVB and the codes
that deliver a message (spec/30_encoding.md R87). -/
def RespondsOnce (i : Instr) (s t : State) : Prop :=
  ∃ code data, t.responses = s.responses ++ [responseWord code data] ∧
    (data ≠ 0 → (∃ name, i = .recv name ∨ i = .recvb name) ∧
      (code = .ok ∨ code = .parityError ∨ code = .stopViolation))

/-- A response without data is allowed to every command. -/
theorem respond_respondsOnce (i : Instr) {s u : State} (hu : u.responses = s.responses) (code : ResultCode) :
    RespondsOnce i s (u.respond code 0) :=
  ⟨code, 0, by simp [hu], fun h => absurd rfl h⟩

/-- What RECV finds leaves the responses alone, and its data comes with a code that delivers a message. -/
theorem receive_response {name data : Byte} {s t : State} {code : ResultCode}
    (h : receive name s = .ok (code, data, t)) :
    t.responses = s.responses ∧ (data ≠ 0 → code = .ok ∨ code = .parityError ∨ code = .stopViolation) := by
  rcases receive_inv h with ⟨rfl, rfl, -⟩ | ⟨_, _, _, m, -, rfl, -, -, -, rfl⟩
  · exact ⟨rfl, fun hd => absurd rfl hd⟩
  · exact ⟨rfl, fun _ => classify_delivers m⟩

section Events

variable {s t : State}

theorem execInit_respondsOnce (he : execInit s = .next t) : RespondsOnce .init s t := by
  cases hi : s.initialized with
  | false =>
    rw [execInit_first hi] at he
    cases he
    exact respond_respondsOnce _ (initAll_responses s) _
  | true =>
    rw [execInit_again hi] at he
    cases he
    exact respond_respondsOnce _ rfl _

theorem execAdd_respondsOnce {name txPin rxPin : Byte} (he : execAdd name txPin rxPin s = .next t) :
    RespondsOnce (.add name txPin rxPin) s t := by
  rcases execAdd_inv he with ⟨code, -, rfl⟩ | ⟨_, _, u, -, -, ha, rfl⟩
  · exact respond_respondsOnce _ rfl _
  · exact respond_respondsOnce _ (addChannel_frame ha).1 _

theorem execSend_respondsOnce {name data : Byte} {c b : Bool} (he : execSend name data c b s = .next t) :
    RespondsOnce (.send name data c b) s t := by
  rcases execSend_inv he with ⟨code, -, rfl⟩ | ⟨_, _, _, -, -, -, rfl⟩
  · exact respond_respondsOnce _ rfl _
  · exact respond_respondsOnce _ (setSlot_responses ..) _

theorem execRecv_respondsOnce {name : Byte} (he : execRecv name s = .next t) : RespondsOnce (.recv name) s t := by
  obtain ⟨code, data, u, hu, rfl⟩ := execRecv_inv he
  obtain ⟨hres, hcode⟩ := receive_response hu
  exact ⟨code, data, by simp [hres], fun hd => ⟨⟨name, .inl rfl⟩, hcode hd⟩⟩

/-- RECVB holds or answers as RECV does (spec/42_host_commands.md R176). -/
theorem execRecvb_holds_or_respondsOnce {name : Byte} (he : execRecvb name s = .next t) :
    t = { s with outstanding := some name } ∨ RespondsOnce (.recvb name) s t := by
  obtain ⟨code, data, u, hu, rfl⟩ := execRecvb_inv he
  obtain ⟨hres, hcode⟩ := receive_response hu
  split
  · exact .inl rfl
  · exact .inr ⟨code, data, by simp [hres], fun hd => ⟨⟨name, .inr rfl⟩, hcode hd⟩⟩

theorem execClrtx_respondsOnce {name : Byte} (he : execClrtx name s = .next t) : RespondsOnce (.clrtx name) s t := by
  cases hl : s.lookup name with
  | none =>
    rw [execClrtx_unknown hl] at he
    cases he
    exact respond_respondsOnce _ rfl _
  | some p =>
    rw [execClrtx_known hl] at he
    cases he
    exact respond_respondsOnce _ (setSlot_responses ..) _

theorem execClrrx_respondsOnce {name : Byte} (he : execClrrx name s = .next t) : RespondsOnce (.clrrx name) s t := by
  cases hl : s.lookup name with
  | none =>
    rw [execClrrx_unknown hl] at he
    cases he
    exact respond_respondsOnce _ rfl _
  | some p =>
    rw [execClrrx_known hl] at he
    cases he
    exact respond_respondsOnce _ (setSlot_responses ..) _

/-- Every host command responds once, but a RECVB that holds. -/
theorem exec_host_responds {i : Instr} (hi : i.agent = .host) (he : exec i s = .next t) :
    (∃ name, i = .recvb name ∧ t = { s with outstanding := some name }) ∨ RespondsOnce i s t := by
  cases i with
  | tick => cases hi
  | line pin v => cases hi
  | init => exact .inr (execInit_respondsOnce he)
  | add name txPin rxPin => exact .inr (execAdd_respondsOnce he)
  | send name data c b => exact .inr (execSend_respondsOnce he)
  | recv name => exact .inr (execRecv_respondsOnce he)
  | recvb name => exact (execRecvb_holds_or_respondsOnce he).imp_left fun h => ⟨name, rfl, h⟩
  | clrtx name => exact .inr (execClrtx_respondsOnce he)
  | clrrx name => exact .inr (execClrrx_respondsOnce he)

/-- TICK and LINE return no response. -/
theorem exec_environment_silent {i : Instr} (hi : i.agent ≠ .host) (he : exec i s = .next t) :
    t.responses = s.responses := by
  cases i with
  | tick => rw [execTick_frame he]
  | line pin v => rw [execLine_frame he]
  | init | add | send | recv | recvb | clrtx | clrrx => exact absurd rfl hi

end Events

/-- Settles O26: only a host command writes the responses, and the one word it appends has the fields of R87. -/
theorem hostCommandsReturnOneResponse : Obligations.HostCommandsReturnOneResponse := by
  refine fun i s t he => ⟨fun hi => exec_environment_silent hi he, fun hi => ?_⟩
  refine (exec_host_responds hi he).imp_right ?_
  rintro ⟨code, data, hres, hdata⟩
  obtain ⟨hcode, hzero, hbyte, hhigh⟩ := responseWord_fields code data
  exact ⟨code, data, _, hres, hcode, hzero, hbyte, hhigh, hdata⟩

end Sys2Proof.Machine
end

section
/-! Bit positions by their ordinals (spec/30_encoding.md R80, R81). -/

namespace Sys2Proof.Machine

theorem BitPos.ordinal_le (p : BitPos) : p.ordinal ≤ 11 := by
  cases p with
  | data k => simp only [BitPos.ordinal]; omega
  | idle | start | parity | stop => decide

theorem BitPos.ofOrdinal_ordinal (p : BitPos) : BitPos.ofOrdinal p.ordinal = some p := by
  cases p with
  | data k => revert k; decide
  | idle | start | parity | stop => rfl

/-- Past Idle the successor adds 1 to the ordinal, from the last one back to 0 (spec/30_encoding.md R81). -/
theorem BitPos.ordinal_succ {p : BitPos} (hp : 1 ≤ p.ordinal) : p.succ.ordinal = (p.ordinal + 1) % 12 := by
  cases p with
  | idle => cases hp
  | data k =>
    simp only [BitPos.succ]
    split <;> simp only [BitPos.ordinal] <;> omega
  | start | parity | stop => rfl

theorem BitPos.ofOrdinal_eq_none : ∀ {n : Nat}, 12 ≤ n → BitPos.ofOrdinal n = none
  | _ + 12, _ => rfl

/-- Settles O6: past Idle the successor is addition of 1 modulo 12 on the ordinals. -/
theorem successorFollowsTheOrdinals : Obligations.SuccessorFollowsTheOrdinals := by
  refine ⟨⟨rfl, rfl, fun _ => rfl, rfl, rfl⟩, fun p => ⟨p.ordinal_le, p.ofOrdinal_ordinal⟩, ?_, ?_, ?_⟩
  · intro p h1 h10
    rw [BitPos.ordinal_succ h1, Nat.mod_eq_of_lt (by omega)]
  · intro p h11
    rw [BitPos.ordinal_succ (by omega), h11]
  · intro n hn
    exact BitPos.ofOrdinal_eq_none hn

end Sys2Proof.Machine
end

section
/-! Parity as a count (spec/30_encoding.md R83). -/

namespace Sys2Proof.Machine

/-- The exclusive or of a list of bits is the low bit of the number of ones. -/
theorem foldl_xor_toNat {α : Type} (p : α → Bool) (xs : List α) (b : Bool) :
    (xs.foldl (fun acc x => acc ^^ p x) b).toNat = (b.toNat + xs.countP p) % 2 := by
  induction xs generalizing b with
  | nil => cases b <;> rfl
  | cons x xs ih =>
    rw [List.foldl_cons, ih, List.countP_cons]
    cases b <;> cases p x <;> simp <;> omega

theorem parity8_eq_foldl (b : Byte) : parity8 b = (List.range 8).foldl (fun acc k => acc ^^ b.getLsbD k) false := by
  simp [parity8, List.range_succ]

/-- Settles O51: parity8 is the exclusive or of the eight bits. -/
theorem parityIsTheLowBitOfTheCount : Obligations.ParityIsTheLowBitOfTheCount := by
  intro b
  rw [parity8_eq_foldl, foldl_xor_toNat, Bool.toNat_false, Nat.zero_add]

end Sys2Proof.Machine
end

section
/-! The order of a channel's queues (spec/40_fifo_controller.md R121) as a relation of two queue contents, and each event
held to it: whatever an event does to a queue is one enqueue, one dequeue or a merge, and only a TICK can do two of
these to one queue, an enqueue and then the merge that empties it. -/

namespace Sys2Proof.Machine

/-! ### One step of a queue -/

/-- A queue went from `q` to `q'` by losing messages at the head and gaining at most one at the tail. -/
def FifoStep (q q' : List Message) : Prop := ∃ k new, new.length ≤ 1 ∧ q' = q.drop k ++ new

theorem FifoStep.refl (q : List Message) : FifoStep q q := ⟨0, [], by simp, by simp⟩

theorem FifoStep.push (q : List Message) (m : Message) : FifoStep q (q ++ [m]) := ⟨0, [m], by simp, by simp⟩

theorem FifoStep.pop (m : Message) (q : List Message) : FifoStep (m :: q) q := ⟨1, [], by simp, by simp⟩

theorem FifoStep.clear (q : List Message) : FifoStep q [] := ⟨q.length, [], by simp, by simp⟩

/-! ### One record -/

/-- Both queues of a record keep the order of their messages. -/
structure QueuesStep (r r' : Channel) : Prop where
  tx : FifoStep r.txQueue r'.txQueue
  rx : FifoStep r.rxQueue r'.rxQueue

theorem QueuesStep.refl (r : Channel) : QueuesStep r r := ⟨.refl _, .refl _⟩

section Records

variable {cfg : Config} {r r' : Channel}

theorem enqueueTx_fifo (h : ChannelOk cfg r) {m : Message} (he : r.enqueueTx m = .ok (some r')) : QueuesStep r r' := by
  cases hf : r.txFree with
  | nil =>
    rw [enqueueTx_full hf] at he
    cases he
  | cons n free =>
    rw [enqueueTx_room hf h.arenas h.pools] at he
    cases he
    exact ⟨enqueueTx_queue hf h.arenas h.pools m ▸ .push _ _, .refl _⟩

theorem dequeueRx_fifo (h : ChannelOk cfg r) {n : Nat} {pend : List Nat} (hq : r.rxPend = n :: pend) :
    QueuesStep r { r with rxPend := pend, rxFree := r.rxFree ++ [n] } := by
  obtain ⟨m, -, hqueue, -⟩ := dequeueRx_head hq h.arenas h.pools
  exact ⟨.refl _, hqueue ▸ .pop _ _⟩

/-- A frame that completes is queued, lost or dropped with the rest of the queue (spec/41_tick_dispatcher.md R140). -/
theorem rxComplete_fifo (ha : ArenaSizes cfg r) (hp : PoolPartition cfg r) (he : rxComplete r = .ok r') :
    FifoStep r.rxQueue r'.rxQueue := by
  unfold rxComplete at he
  split at he
  · cases hf : r.rxFree with
    | nil =>
      rw [enqueueRx_full hf] at he
      cases he
      exact .refl _
    | cons n free =>
      rw [enqueueRx_room hf ha hp] at he
      cases he
      exact enqueueRx_queue hf ha hp _ ▸ .push _ _
  · cases he
    exact .clear _

theorem rxBusy_fifo (h : ChannelOk cfg r) {T : Nat} (he : rxBusy T r = .ok r') : FifoStep r.rxQueue r'.rxQueue := by
  unfold rxBusy at he
  dsimp only at he
  split at he
  · exact rxComplete_fifo (r := { r with rx := (advance T r.rx).1 }) h.arenas h.pools he
  · cases he
    exact .refl _

theorem rxQueue_rxIdle (r : Channel) (v : Bool) : (rxIdle r v).rxQueue = r.rxQueue := by
  unfold rxIdle
  split <;> rfl

theorem rxStep_fifo (hT : 1 ≤ cfg.T) (h : ChannelOk cfg r) {levels : List Bool} (hl : levels.length = cfg.npins)
    (he : rxStep cfg levels r = .ok r') : FifoStep r.rxQueue r'.rxQueue := by
  obtain ⟨v, r₁, -, hwith, hstep, -⟩ := rxStep_ok hT hl h
  obtain rfl : r₁ = r' := Except.ok.inj (hstep.symm.trans he)
  by_cases hp : r.rx.pos = .idle
  · simp only [rxStepWith, if_pos hp, ok_bind, pure_eq_ok, Except.ok.injEq] at hwith
    subst hwith
    exact rxQueue_rxIdle r v ▸ .refl _
  · obtain ⟨r₂, hbusy, -⟩ := rxBusy_ok hT h hp
    simp only [rxStepWith, if_neg hp, hbusy, ok_bind, pure_eq_ok, Except.ok.injEq] at hwith
    subst hwith
    have hfifo : FifoStep r.rxQueue r₂.rxQueue := rxBusy_fifo h hbusy
    exact hfifo

theorem txQueue_txStart (r : Channel) (m : Message) : (txStart r m).1.txQueue = r.txQueue := by
  unfold txStart
  dsimp only
  split <;> rfl

theorem txStep_fifo (h : ChannelOk cfg r) {d : Option Bool} (he : txStep cfg r = .ok (r', d)) :
    FifoStep r.txQueue r'.txQueue := by
  by_cases hp : r.tx.pos = .idle
  · cases hq : r.txPend with
    | nil =>
      rw [txStep_idle hp hq] at he
      cases he
      exact .refl _
    | cons n pend =>
      obtain ⟨m, -, hqueue, hstep⟩ := txStep_pop hp hq h.arenas h.pools
      obtain rfl : (txStart _ m).1 = r' := congrArg Prod.fst (Except.ok.inj (hstep.symm.trans he))
      rw [hqueue, txQueue_txStart]
      exact .pop _ _
  · rw [txStep_busy hp] at he
    cases he
    exact .refl _

theorem TxFrame.rxQueue (h : TxFrame r r') : r'.rxQueue = r.rxQueue ∨ r'.rxQueue = [] := by
  rcases h.flush with ⟨-, -, hpend⟩ | ⟨-, -, hpend⟩
  · exact .inl (by simp [Channel.rxQueue, hpend, h.rxPay])
  · exact .inr (by simp [Channel.rxQueue, hpend])

theorem RxFrame.txQueue (h : RxFrame r r') : r'.txQueue = r.txQueue := by
  simp [Channel.txQueue, h.txPend, h.txPay]

end Records

/-! ### Each event -/

/-- The queues of every added channel keep the order of their messages from `s` to `t`. -/
def QueuesKeepOrder (s t : State) : Prop :=
  ∀ (c : Nat) (r : Channel), c ∈ s.chActive → s.ch[c]? = some r → ∃ r', t.ch[c]? = some r' ∧ QueuesStep r r'

theorem QueuesKeepOrder.of_ch_eq {s t : State} (hch : t.ch = s.ch) : QueuesKeepOrder s t :=
  fun _ r _ hr => ⟨r, hch ▸ hr, .refl r⟩

theorem setSlot_queuesKeepOrder {s : State} {k : Nat} {r r' : Channel} (hr : s.ch[k]? = some r)
    (hstep : QueuesStep r r') : QueuesKeepOrder s (s.setSlot k r') := by
  intro c x _ hx
  by_cases hck : c = k
  · subst hck
    obtain rfl : r = x := Option.some.inj (hr.symm.trans hx)
    exact ⟨r', getElem?_setSlot_self hr, hstep⟩
  · exact ⟨x, (getElem?_setSlot_other r' hck).trans hx, .refl x⟩

section Events

variable {s t : State}

theorem execLine_queuesKeepOrder {pin : Byte} {v : Bool} (he : execLine pin v s = .next t) : QueuesKeepOrder s t := by
  rw [execLine_frame he]
  exact .of_ch_eq rfl

theorem execClrtx_queuesKeepOrder {name : Byte} (he : execClrtx name s = .next t) : QueuesKeepOrder s t := by
  cases hl : s.lookup name with
  | none =>
    rw [execClrtx_unknown hl] at he
    cases he
    exact .of_ch_eq rfl
  | some p =>
    rw [execClrtx_known hl] at he
    cases he
    exact setSlot_queuesKeepOrder (lookup_some hl).2.1 ⟨.clear _, .refl _⟩

theorem execClrrx_queuesKeepOrder {name : Byte} (he : execClrrx name s = .next t) : QueuesKeepOrder s t := by
  cases hl : s.lookup name with
  | none =>
    rw [execClrrx_unknown hl] at he
    cases he
    exact .of_ch_eq rfl
  | some p =>
    rw [execClrrx_known hl] at he
    cases he
    exact setSlot_queuesKeepOrder (lookup_some hl).2.1 ⟨.refl _, .clear _⟩

variable (h : BlockInv s)

include h

/-- The first INIT links the pools of every slot, but then there is no channel; a later one only responds
(spec/42_host_commands.md R172). -/
theorem execInit_queuesKeepOrder (he : execInit s = .next t) : QueuesKeepOrder s t := by
  cases hi : s.initialized with
  | false => exact fun c _ hc _ => absurd hc (by simp [(h.beforeInit hi).2])
  | true =>
    rw [execInit_again hi] at he
    cases he
    exact .of_ch_eq rfl

/-- In a TICK the TX queue changes in the TX pass only; the RX queue changes in the RX pass, and a clear-on-send message
may empty it in the TX pass (spec/41_tick_dispatcher.md R140, R144, R148). -/
theorem execTick_queuesKeepOrder (he : execTick s = .next t) : QueuesKeepOrder s t := by
  unfold execTick at he
  split at he
  · cases he
    exact .of_ch_eq rfl
  · obtain ⟨u, hu, -, -, hvisited, -⟩ := tickOver_ok h h.active_nodup fun _ hc => hc
    obtain rfl : u = t := by simpa [hu] using he
    intro c x hc hx
    obtain ⟨r, r₁, r₂, d, hr, hrx, htx, hrxFrame, htxFrame, hok₁, -, hr₂, -⟩ := hvisited c hc
    obtain rfl : r = x := Option.some.inj (hr.symm.trans hx)
    refine ⟨r₂, hr₂, hrxFrame.txQueue ▸ txStep_fifo hok₁ htx, ?_⟩
    rcases htxFrame.rxQueue with hkept | hflushed
    · exact hkept ▸ rxStep_fifo h.tickPos (h.channelOk hc hr) h.pins.1 hrx
    · exact hflushed ▸ .clear _

/-- A successful ADD writes a slot that was free, so no record of an added channel (spec/42_host_commands.md R173). -/
theorem execAdd_queuesKeepOrder {name txPin rxPin : Byte} (he : execAdd name txPin rxPin s = .next t) :
    QueuesKeepOrder s t := by
  rcases execAdd_inv he with ⟨code, -, rfl⟩ | ⟨c, free, u, -, hf, ha, rfl⟩
  · exact .of_ch_eq rfl
  · have hpins : txPin.toNat < s.cfg.npins ∧ rxPin.toNat < s.cfg.npins := by
      by_contra hp
      rw [execAdd_illegal (by omega) name] at he
      cases he
    obtain ⟨old, -, hjoin⟩ := addChannel_ok h hf hpins.1 hpins.2 name
    rw [hjoin] at ha
    cases ha
    intro k r hk hr
    have hne : c ≠ k := fun hck => h.free_not_active (by simp [hf]) (hck ▸ hk)
    exact ⟨r, (List.getElem?_set_ne hne).trans hr, .refl r⟩

theorem execSend_queuesKeepOrder {name data : Byte} {c b : Bool} (he : execSend name data c b s = .next t) :
    QueuesKeepOrder s t := by
  rcases execSend_inv he with ⟨code, -, rfl⟩ | ⟨k, r, r', -, hl, hr', rfl⟩
  · exact .of_ch_eq rfl
  · obtain ⟨-, hr, hok⟩ := h.found hl
    exact setSlot_queuesKeepOrder hr (enqueueTx_fifo hok hr')

theorem receive_queuesKeepOrder {name data : Byte} {code : ResultCode} (he : receive name s = .ok (code, data, t)) :
    QueuesKeepOrder s t := by
  rcases receive_cases h name with
    ⟨-, hcase⟩ | ⟨-, -, hcase⟩ | ⟨_, _, -, -, -, hcase⟩ | ⟨k, r, n, pend, m, -, hl, hq, -, hcase⟩ <;>
    rw [hcase] at he <;> cases he
  · exact .of_ch_eq rfl
  · exact .of_ch_eq rfl
  · exact .of_ch_eq rfl
  · obtain ⟨-, hr, hok⟩ := h.found hl
    exact setSlot_queuesKeepOrder hr (dequeueRx_fifo hok hq)

theorem execRecv_queuesKeepOrder {name : Byte} (he : execRecv name s = .next t) : QueuesKeepOrder s t := by
  obtain ⟨code, data, u, hu, rfl⟩ := execRecv_inv he
  have hkept : QueuesKeepOrder s u := receive_queuesKeepOrder h hu
  exact hkept

theorem execRecvb_queuesKeepOrder {name : Byte} (he : execRecvb name s = .next t) : QueuesKeepOrder s t := by
  obtain ⟨code, data, u, hu, rfl⟩ := execRecvb_inv he
  split
  · exact .of_ch_eq rfl
  · have hkept : QueuesKeepOrder s u := receive_queuesKeepOrder h hu
    exact hkept

theorem exec_queuesKeepOrder {i : Instr} (he : exec i s = .next t) : QueuesKeepOrder s t := by
  cases i with
  | tick => exact execTick_queuesKeepOrder h he
  | init => exact execInit_queuesKeepOrder h he
  | add name txPin rxPin => exact execAdd_queuesKeepOrder h he
  | send name data c b => exact execSend_queuesKeepOrder h he
  | recv name => exact execRecv_queuesKeepOrder h he
  | recvb name => exact execRecvb_queuesKeepOrder h he
  | clrtx name => exact execClrtx_queuesKeepOrder he
  | clrrx name => exact execClrrx_queuesKeepOrder he
  | line pin v => exact execLine_queuesKeepOrder he

end Events

/-- Settles O31: every event is held to the order of the queues by what it writes to the record. -/
theorem queuesAreFirstInFirstOut : Obligations.QueuesAreFirstInFirstOut := by
  intro i s t c r h he hc hr
  obtain ⟨r', hr', htx, hrx⟩ := exec_queuesKeepOrder h he c r hc hr
  exact ⟨r', hr', htx, hrx⟩

end Sys2Proof.Machine
end

section
/-! The pool primitives on sequences (spec/40_fifo_controller.md R111 to R118). -/

namespace Sys2Proof.Machine

theorem pushFront_of_unowned {owned pool : List Nat} {n : Nat} (h : n ∉ owned) :
    pushFront owned pool n = .ok (n :: pool) := by simp [pushFront, h]

theorem pushFront_of_owned {owned pool : List Nat} {n : Nat} (h : n ∈ owned) :
    pushFront owned pool n = .error .pushOwnedNode := by simp [pushFront, h]

/-- RemoveUnchecked deletes the node where it stands. -/
theorem removeUnchecked_middle {a : List Nat} {n : Nat} (h : n ∉ a) (b : List Nat) :
    removeUnchecked (a ++ [n] ++ b) n = .ok (a ++ b) := by
  rw [removeUnchecked_of_mem (by simp), List.append_assoc, List.erase_append_right _ h, List.singleton_append,
    List.erase_cons_head]

theorem removeChecked_of_ok {pool rest : List Nat} {n : Nat} (h : removeUnchecked pool n = .ok rest) :
    removeChecked pool n = some rest := by simp only [removeChecked, h]

theorem removeChecked_of_error {pool : List Nat} {n : Nat} {f : Fault} (h : removeUnchecked pool n = .error f) :
    removeChecked pool n = none := by simp only [removeChecked, h]

/-- Settles O32: each primitive by the lemma that says what it does. -/
theorem poolPrimitivesFollowTheirRules : Obligations.PoolPrimitivesFollowTheirRules := by
  refine ⟨poolInit_eq, fun owned pool n hn => ?unowned, fun owned pool n hn => ?owned, fun n rest => ?pops,
    ⟨popFront_nil, rfl⟩, fun a b n hn => ?member, fun pool n hn => ?nonMember, mergeAll_eq⟩
  case unowned => exact ⟨pushBack_of_unowned hn, pushFront_of_unowned hn⟩
  case owned => exact ⟨pushBack_of_owned hn, pushFront_of_owned hn⟩
  case pops => exact ⟨popFront_cons n rest, popBack_append rest n⟩
  case member => exact ⟨removeUnchecked_middle hn b, removeChecked_of_ok (removeUnchecked_middle hn b)⟩
  case nonMember =>
    exact ⟨removeUnchecked_of_not_mem hn, removeChecked_of_error (removeUnchecked_of_not_mem hn)⟩

end Sys2Proof.Machine
end

section
/-! Segments and rings of links (spec/40_fifo_controller.md R110). A segment is a chain of distinct nodes; a pool that is
not empty is a segment whose last node is followed by its first. Every linked primitive joins two segments end to end,
closes a segment to a ring, or releases a node that no ring holds. -/

namespace Sys2Proof.Machine

/-! ### Links between two nodes -/

/-- Node `b` follows node `a`, in both directions. -/
def Links.Follows (l : Links) (a b : Nat) : Prop := l.nx a = some b ∧ l.pv b = some a

/-- Node `n` has a place in both link arrays. -/
def Links.InArena (l : Links) (n : Nat) : Prop := n < l.next.length ∧ n < l.prev.length

theorem linked_iff_isChain {l : Links} : ∀ {xs : List Nat}, l.Linked xs ↔ xs.IsChain l.Follows
  | [] => by simp [Links.Linked]
  | [_] => by simp [Links.Linked]
  | _ :: _ :: _ => by rw [Links.Linked, List.isChain_cons_cons, linked_iff_isChain]; rfl

theorem follows_join_new {l : Links} {a b : Nat} (ha : l.InArena a) (hb : l.InArena b) : (l.join a b).Follows a b := by
  simp [Links.Follows, nx_join l a b a ha.1, pv_join l a b b hb.2]

theorem follows_join_old {l : Links} {a b u v : Nat} (ha : l.InArena a) (hb : l.InArena b) (hu : u ≠ a) (hv : v ≠ b)
    (h : l.Follows u v) : (l.join a b).Follows u v := by
  simpa [Links.Follows, nx_join l a b u ha.1, pv_join l a b v hb.2, hu, hv] using h

@[simp] theorem inArena_join {l : Links} {a b n : Nat} : (l.join a b).InArena n ↔ l.InArena n := by
  simp [Links.InArena]

theorem Unowned.inArena {l : Links} {n : Nat} (h : Unowned l n) : l.InArena n := ⟨h.1, h.2.1⟩

theorem unowned_release {l : Links} {n : Nat} (h : l.InArena n) : Unowned (l.release n) n :=
  ⟨by simpa using h.1, by simpa using h.2, by simp [nx_release l n n h.1], by simp [pv_release l n n h.2]⟩

/-! ### Segments -/

/-- Distinct nodes of the arena, each followed by the next; the ends are open. -/
structure Links.Segment (l : Links) (xs : List Nat) : Prop where
  nodup : xs.Nodup
  inArena : ∀ n ∈ xs, l.InArena n
  chain : xs.IsChain l.Follows

theorem segment_singleton {l : Links} {n : Nat} (h : l.InArena n) : l.Segment [n] :=
  ⟨List.nodup_singleton n, by simpa using h, .singleton n⟩

/-- A join from `a` to `b` leaves a segment in which nothing but the last node is `a` and nothing but the first is
`b`. -/
theorem isChain_join {l : Links} {a b : Nat} (ha : l.InArena a) (hb : l.InArena b) :
    ∀ {xs : List Nat}, a ∉ xs.dropLast → b ∉ xs.tail → xs.IsChain l.Follows → xs.IsChain (l.join a b).Follows
  | [], _, _, _ => .nil
  | [_], _, _, _ => .singleton _
  | u :: v :: rest, hda, htb, h => by
    obtain ⟨huv, hrest⟩ := List.isChain_cons_cons.mp h
    simp only [List.dropLast_cons_cons, List.mem_cons, not_or, List.tail_cons] at hda htb
    refine List.isChain_cons_cons.mpr ⟨follows_join_old ha hb (Ne.symm hda.1) (Ne.symm htb.1) huv, ?_⟩
    exact isChain_join ha hb hda.2 htb.2 hrest

theorem getLast_not_mem_dropLast {xs : List Nat} (h : xs.Nodup) {t : Nat} (ht : xs.getLast? = some t) :
    t ∉ xs.dropLast := by
  obtain ⟨init, rfl⟩ := List.getLast?_eq_some_iff.mp ht
  rw [List.dropLast_concat]
  exact fun hmem => (List.nodup_append.mp h).2.2 t hmem t (by simp) rfl

theorem head_not_mem_tail {xs : List Nat} (h : xs.Nodup) {a : Nat} (ha : xs.head? = some a) : a ∉ xs.tail := by
  obtain ⟨rest, rfl⟩ := List.head?_eq_some_iff.mp ha
  exact (List.nodup_cons.mp h).1

/-- Joining the last node of one segment to the first of another makes one segment of the two. -/
theorem Links.Segment.append_join {l : Links} {p q : List Nat} (hp : l.Segment p) (hq : l.Segment q)
    (hdisjoint : ∀ x ∈ p, x ∉ q) {t a : Nat} (ht : p.getLast? = some t) (ha : q.head? = some a) :
    (l.join t a).Segment (p ++ q) := by
  have htp : t ∈ p := List.mem_of_getLast? ht
  have haq : a ∈ q := List.mem_of_head? ha
  have htA := hp.inArena t htp
  have haA := hq.inArena a haq
  refine ⟨List.nodup_append.mpr ⟨hp.nodup, hq.nodup, fun x hx y hy hxy => hdisjoint x hx (hxy ▸ hy)⟩, ?_, ?_⟩
  · intro n hn
    exact inArena_join.mpr ((List.mem_append.mp hn).elim (hp.inArena n) (hq.inArena n))
  · refine List.isChain_append.mpr ⟨?_, ?_, ?_⟩
    · exact isChain_join htA haA (getLast_not_mem_dropLast hp.nodup ht)
        (fun hmem => hdisjoint a (List.mem_of_mem_tail hmem) haq) hp.chain
    · exact isChain_join htA haA (fun hmem => hdisjoint t htp (List.mem_of_mem_dropLast hmem))
        (head_not_mem_tail hq.nodup ha) hq.chain
    · intro x hx y hy
      obtain rfl : t = x := Option.some.inj (ht.symm.trans hx)
      obtain rfl : a = y := Option.some.inj (ha.symm.trans hy)
      exact follows_join_new htA haA

/-! ### Rings -/

/-- The empty pool has no head. -/
theorem represents_nil {l : Links} {head : Option Nat} : Represents l head [] ↔ head = none := by
  simp [Represents, Links.Linked]

/-- A pool that is not empty is a segment whose last node is followed by its first, the head. -/
theorem represents_iff {l : Links} {head : Option Nat} {xs : List Nat} {a t : Nat} (ha : xs.head? = some a)
    (ht : xs.getLast? = some t) : Represents l head xs ↔ head = some a ∧ l.Segment xs ∧ l.Follows t a := by
  have hring : l.Linked (xs ++ [a]) ↔ xs.IsChain l.Follows ∧ l.Follows t a := by
    simp [linked_iff_isChain, List.isChain_append, ht]
  rw [Represents, ha, Option.toList_some, hring]
  constructor
  · rintro ⟨hhead, hnodup, harena, hchain, hclosed⟩
    exact ⟨hhead, ⟨hnodup, harena, hchain⟩, hclosed⟩
  · rintro ⟨hhead, ⟨hnodup, harena, hchain⟩, hclosed⟩
    exact ⟨hhead, hnodup, harena, hchain, hclosed⟩

theorem Represents.head_eq {l : Links} {head : Option Nat} {xs : List Nat} (h : Represents l head xs) :
    head = xs.head? := h.1

/-- Joining the last node of a segment to its first closes it to a pool. -/
theorem Links.Segment.close {l : Links} {xs : List Nat} (h : l.Segment xs) {a t : Nat} (ha : xs.head? = some a)
    (ht : xs.getLast? = some t) : Represents (l.join t a) (some a) xs := by
  have haA := h.inArena a (List.mem_of_head? ha)
  have htA := h.inArena t (List.mem_of_getLast? ht)
  refine (represents_iff ha ht).mpr ⟨rfl, ⟨h.nodup, fun n hn => inArena_join.mpr (h.inArena n hn), ?_⟩, ?_⟩
  · exact isChain_join htA haA (getLast_not_mem_dropLast h.nodup ht) (head_not_mem_tail h.nodup ha) h.chain
  · exact follows_join_new htA haA

/-- A ring may be entered at any of its nodes. -/
theorem Represents.rotate {l : Links} {p q : List Nat} (h : Represents l (p ++ q).head? (p ++ q)) :
    Represents l (q ++ p).head? (q ++ p) := by
  cases p with
  | nil => simpa using h
  | cons a p =>
    cases q with
    | nil => simpa using h
    | cons b q =>
      obtain ⟨-, hnodup, harena, hlinked⟩ := h
      refine ⟨rfl, (List.perm_append_comm.nodup_iff).mp hnodup, ?_, ?_⟩
      · exact fun n hn => harena n ((List.perm_append_comm.mem_iff).mp hn)
      · simp only [linked_iff_isChain, List.cons_append, List.head?_cons, Option.toList_some, List.append_assoc]
          at hlinked ⊢
        obtain ⟨hfirst, hsecond⟩ := List.isChain_cons_split.mp hlinked
        exact List.isChain_cons_split.mpr ⟨hsecond, hfirst⟩

/-! ### The other pools of the arena -/

/-- Links that agree on every node of a pool represent it alike. -/
theorem Represents.congr {l l' : Links} {head : Option Nat} {xs : List Nat} (h : Represents l head xs)
    (hnext : l'.next.length = l.next.length) (hprev : l'.prev.length = l.prev.length)
    (hagree : ∀ n ∈ xs, l'.nx n = l.nx n ∧ l'.pv n = l.pv n) : Represents l' head xs := by
  obtain ⟨hhead, hnodup, harena, hlinked⟩ := h
  refine ⟨hhead, hnodup, by rwa [hnext, hprev], ?_⟩
  rw [linked_iff_isChain] at hlinked ⊢
  have hmem : ∀ n ∈ xs ++ xs.head?.toList, n ∈ xs := by
    intro n hn
    rcases List.mem_append.mp hn with hn | hn
    · exact hn
    · exact List.mem_of_head? (Option.mem_toList.mp hn)
  refine List.IsChain.imp_of_mem_imp (fun u v hu hv hfollows => ?_) hlinked
  exact ⟨(hagree u (hmem u hu)).1.trans hfollows.1, (hagree v (hmem v hv)).2.trans hfollows.2⟩

/-- Every pool of the arena that shares no node with `zs` is a pool of `l'` as it is of `l`. -/
def KeepsOtherPools (l l' : Links) (zs : List Nat) : Prop :=
  ∀ other ys, Represents l other ys → (∀ y ∈ ys, y ∉ zs) → Represents l' other ys

theorem KeepsOtherPools.refl (l : Links) (zs : List Nat) : KeepsOtherPools l l zs := fun _ _ h _ => h

theorem KeepsOtherPools.trans {l l' l'' : Links} {zs : List Nat} (h : KeepsOtherPools l l' zs)
    (h' : KeepsOtherPools l' l'' zs) : KeepsOtherPools l l'' zs :=
  fun other ys hys hdisjoint => h' other ys (h other ys hys hdisjoint) hdisjoint

theorem KeepsOtherPools.mono {l l' : Links} {zs zs' : List Nat} (h : KeepsOtherPools l l' zs) (hsub : zs ⊆ zs') :
    KeepsOtherPools l l' zs' :=
  fun other ys hys hdisjoint => h other ys hys fun y hy hmem => hdisjoint y hy (hsub hmem)

theorem keepsOtherPools_join {l : Links} {zs : List Nat} {a b : Nat} (ha : a ∈ zs) (hb : b ∈ zs)
    (harena : ∀ n ∈ zs, l.InArena n) : KeepsOtherPools l (l.join a b) zs := by
  intro other ys hys hdisjoint
  refine hys.congr (by simp) (by simp) fun n hn => ?_
  have hna : n ≠ a := fun e => hdisjoint n hn (e ▸ ha)
  have hnb : n ≠ b := fun e => hdisjoint n hn (e ▸ hb)
  simp [nx_join l a b n (harena a ha).1, pv_join l a b n (harena b hb).2, hna, hnb]

theorem Represents.release {l : Links} {head : Option Nat} {xs : List Nat} (h : Represents l head xs) {n : Nat}
    (hn : l.InArena n) (hnot : n ∉ xs) : Represents (l.release n) head xs := by
  refine h.congr (by simp) (by simp) fun m hm => ?_
  have hne : m ≠ n := fun e => hnot (e ▸ hm)
  simp [nx_release l n m hn.1, pv_release l n m hn.2, hne]

theorem keepsOtherPools_release {l : Links} {zs : List Nat} {n : Nat} (hn : n ∈ zs) (harena : l.InArena n) :
    KeepsOtherPools l (l.release n) zs :=
  fun _ _ hys hdisjoint => hys.release harena fun hmem => hdisjoint n hmem hn

/-- An unowned node is in no pool, so it need not be kept apart. -/
theorem KeepsOtherPools.of_unowned {l l' : Links} {zs : List Nat} {n : Nat} (h : KeepsOtherPools l l' (zs ++ [n]))
    (hn : Unowned l n) : KeepsOtherPools l l' zs := by
  obtain ⟨-, -, hnx, -⟩ := hn
  intro other ys hys hdisjoint
  refine h other ys hys fun y hy hmem => ?_
  rcases List.mem_append.mp hmem with hmem | hmem
  · exact hdisjoint y hy hmem
  · exact represents_nx hys hy (List.mem_singleton.mp hmem ▸ hnx)

end Sys2Proof.Machine
end

section
/-! The linked primitives as surgery on rings (spec/40_fifo_controller.md R111 to R118): a push and a merge join a second
segment to the tail and close the ring anew, a removal closes the rest and releases the node, and PoolInit writes a
ring. -/

namespace Sys2Proof.Machine

/-! ### Reading a pool -/

/-- The walk along a ring from one of its nodes lists the nodes up to the head. -/
theorem walk_of_isChain {l : Links} {head : Nat} :
    ∀ {rest : List Nat} {i fuel : Nat}, (i :: rest ++ [head]).IsChain l.Follows → head ∉ rest → rest.length < fuel →
      l.walk head fuel i = i :: rest
  | [], i, fuel + 1, h, _, _ => by
    obtain ⟨⟨hnx, -⟩, -⟩ := List.isChain_cons_cons.mp h
    simp [Links.walk, hnx]
  | j :: rest, i, fuel + 1, h, hnot, hfuel => by
    obtain ⟨⟨hnx, -⟩, hrest⟩ := List.isChain_cons_cons.mp h
    simp only [List.mem_cons, not_or] at hnot
    have hwalk : l.walk head fuel j = j :: rest := walk_of_isChain hrest hnot.2 (by simpa using hfuel)
    simp [Links.walk, hnx, Ne.symm hnot.1, hwalk]

/-- Distinct nodes of an arena are no more than its capacity. -/
theorem Represents.length_le {l : Links} {head : Option Nat} {xs : List Nat} (h : Represents l head xs) :
    xs.length ≤ l.next.length := by
  obtain ⟨-, hnodup, harena, -⟩ := h
  have hsub : xs ⊆ List.range l.next.length := fun n hn => List.mem_range.mpr (harena n hn).1
  simpa using (List.subperm_of_subset hnodup hsub).length_le

theorem Represents.seq_eq {l : Links} {head : Option Nat} {xs : List Nat} (h : Represents l head xs) :
    l.seq head = xs := by
  have hlen := h.length_le
  obtain ⟨rfl, hnodup, -, hlinked⟩ := h
  cases xs with
  | nil => rfl
  | cons a rest =>
    exact walk_of_isChain (linked_iff_isChain.mp hlinked) (List.nodup_cons.mp hnodup).1 (by simpa using hlen)

/-! ### PoolInit -/

theorem nx_linkedInit {cap i : Nat} (h : i < cap) : (linkedInit cap).1.nx i = some ((i + 1) % cap) := by
  simp [linkedInit, Links.nx, h]

theorem pv_linkedInit {cap i : Nat} (h : i < cap) : (linkedInit cap).1.pv i = some ((i + (cap - 1)) % cap) := by
  simp [linkedInit, Links.pv, h]

theorem follows_linkedInit {cap i : Nat} (h : i < cap) : (linkedInit cap).1.Follows i ((i + 1) % cap) := by
  have hpos : 0 < cap := by omega
  refine ⟨nx_linkedInit h, ?_⟩
  have hback : ((i + 1) % cap + (cap - 1)) % cap = i := by
    rw [Nat.mod_add_mod, show i + 1 + (cap - 1) = i + cap by omega, Nat.add_mod_right, Nat.mod_eq_of_lt h]
  rw [pv_linkedInit (Nat.mod_lt _ hpos), hback]

/-- PoolInit makes a ring of the whole arena, in ascending order. -/
theorem linkedInit_represents (cap : Nat) : Represents (linkedInit cap).1 (linkedInit cap).2 (List.range cap) := by
  cases cap with
  | zero => exact represents_nil.mpr rfl
  | succ m =>
    have hfirst : (List.range (m + 1)).head? = some 0 := by simp [List.range_succ_eq_map]
    have hlast : (List.range (m + 1)).getLast? = some m := by simp [List.range_succ]
    refine (represents_iff hfirst hlast).mpr ⟨rfl, ⟨List.nodup_range, ?_, ?_⟩, ?_⟩
    · intro n hn
      simpa [Links.InArena, linkedInit] using hn
    · refine (List.isChain_range_succ _ m).mpr fun i hi => ?_
      have hstep := follows_linkedInit (cap := m + 1) (i := i) (by omega)
      rwa [Nat.mod_eq_of_lt (by omega)] at hstep
    · simpa using follows_linkedInit (cap := m + 1) (i := m) (by omega)

/-- Settles O55: PoolInit writes a ring, and the walk along a ring lists it. -/
theorem linkedPoolIsReadBack : Obligations.LinkedPoolIsReadBack :=
  ⟨linkedInit_represents, fun _ _ _ => Represents.seq_eq⟩

/-! ### Joining two segments to a ring -/

/-- Joining the tail of `p` to the head of `q`, and the tail of `q` to the head of `p`, makes one ring of both, and no
other pool is touched. MergeAll does this to two pools, and a push to a pool and a single node. -/
theorem Links.Segment.join_ring {l : Links} {p q : List Nat} (hp : l.Segment p) (hq : l.Segment q)
    (hdisjoint : ∀ x ∈ p, x ∉ q) {a t a' t' : Nat} (ha : p.head? = some a) (ht : p.getLast? = some t)
    (ha' : q.head? = some a') (ht' : q.getLast? = some t') :
    Represents ((l.join t a').join t' a) (p ++ q).head? (p ++ q) ∧
      KeepsOtherPools l ((l.join t a').join t' a) (p ++ q) := by
  have hsegment := hp.append_join hq hdisjoint ht ha'
  have hhead : (p ++ q).head? = some a := by simp [List.head?_append, ha]
  have hlast : (p ++ q).getLast? = some t' := by simp [List.getLast?_append, ht']
  refine ⟨hhead ▸ hsegment.close hhead hlast, ?_⟩
  have hmem : t ∈ p ++ q ∧ a' ∈ p ++ q :=
    ⟨List.mem_append_left _ (List.mem_of_getLast? ht), List.mem_append_right _ (List.mem_of_head? ha')⟩
  have hunjoined : ∀ n ∈ p ++ q, l.InArena n := fun n hn => inArena_join.mp (hsegment.inArena n hn)
  exact (keepsOtherPools_join hmem.1 hmem.2 hunjoined).trans
    (keepsOtherPools_join (List.mem_of_getLast? hlast) (List.mem_of_head? hhead) hsegment.inArena)

/-! ### Pushes -/

theorem linkedPushBack_refines {l : Links} {head : Option Nat} {xs : List Nat} {n : Nat} (h : Represents l head xs)
    (hn : Unowned l n) :
    ∃ l', linkedPushBack l head n = .ok (l', (xs ++ [n]).head?) ∧ Represents l' (xs ++ [n]).head? (xs ++ [n]) ∧
      KeepsOtherPools l l' xs := by
  have hsingle := segment_singleton hn.inArena
  have hlinks : ¬ (l.nx n ≠ none ∨ l.pv n ≠ none) := by
    obtain ⟨-, -, hnx, hpv⟩ := hn
    simp [hnx, hpv]
  cases xs with
  | nil =>
    obtain rfl := represents_nil.mp h
    refine ⟨l.join n n, by simp [linkedPushBack, hlinks], hsingle.close rfl rfl, ?_⟩
    exact (keepsOtherPools_join (by simp) (by simp) hsingle.inArena).of_unowned hn
  | cons a rest =>
    obtain ⟨t, ht⟩ : ∃ t, (a :: rest).getLast? = some t := ⟨_, List.getLast?_cons⟩
    obtain ⟨rfl, hsegment, -, hpv⟩ := (represents_iff rfl ht).mp h
    have hnot : ∀ x ∈ a :: rest, x ∉ [n] := fun x hx hxn =>
      represents_nx h hx (List.mem_singleton.mp hxn ▸ hn.2.2.1)
    obtain ⟨hring, hothers⟩ := hsegment.join_ring hsingle hnot rfl ht rfl rfl
    exact ⟨(l.join t n).join n a, by simp [linkedPushBack, hlinks, hpv, neighbour], hring, hothers.of_unowned hn⟩

/-- PushFront is PushBack entered one node later. -/
theorem linkedPushFront_refines {l : Links} {head : Option Nat} {xs : List Nat} {n : Nat} (h : Represents l head xs)
    (hn : Unowned l n) :
    ∃ l', linkedPushFront l head n = .ok (l', some n) ∧ Represents l' (some n) (n :: xs) ∧ KeepsOtherPools l l' xs := by
  obtain ⟨l', hpush, hring, hothers⟩ := linkedPushBack_refines h hn
  exact ⟨l', by simp [linkedPushFront, hpush], hring.rotate, hothers⟩

theorem linkedPushBack_owned {l : Links} {n : Nat} (h : l.nx n ≠ none) (head : Option Nat) :
    linkedPushBack l head n = .error .pushOwnedNode := if_pos (.inl h)

/-- Settles O56: a push joins a single node to the ring; a node of any pool has a successor, so it faults. -/
theorem linkedPushRefinesSequencePush : Obligations.LinkedPushRefinesSequencePush := by
  intro l head xs n h
  refine ⟨fun hn => ⟨linkedPushBack_refines h hn, linkedPushFront_refines h hn⟩, fun owner ys hys hmem => ?_⟩
  have howned := linkedPushBack_owned (represents_nx hys hmem) head
  exact ⟨howned, by simp [linkedPushFront, howned]⟩

/-! ### Merges -/

theorem linkedMergeAll_refines {l : Links} {src dst : Option Nat} {xs ys : List Nat} (hx : Represents l src xs)
    (hy : Represents l dst ys) (hdisjoint : ∀ x ∈ xs, x ∉ ys) :
    ∃ l', linkedMergeAll l src dst = .ok (l', none, (ys ++ xs).head?) ∧ Represents l' (ys ++ xs).head? (ys ++ xs) ∧
      KeepsOtherPools l l' (ys ++ xs) := by
  cases xs with
  | nil =>
    obtain rfl := represents_nil.mp hx
    obtain rfl := hy.head_eq
    exact ⟨l, by simp [linkedMergeAll], by simpa using hy, .refl l _⟩
  | cons f xs =>
    obtain ⟨ft, hft⟩ : ∃ ft, (f :: xs).getLast? = some ft := ⟨_, List.getLast?_cons⟩
    obtain ⟨rfl, hxs, -, hpvf⟩ := (represents_iff rfl hft).mp hx
    cases ys with
    | nil =>
      obtain rfl := represents_nil.mp hy
      exact ⟨l, rfl, hx, .refl l _⟩
    | cons t ys =>
      obtain ⟨tt, htt⟩ : ∃ tt, (t :: ys).getLast? = some tt := ⟨_, List.getLast?_cons⟩
      obtain ⟨rfl, hys, -, hpvt⟩ := (represents_iff rfl htt).mp hy
      obtain ⟨hring, hothers⟩ := hys.join_ring hxs (fun y hy hyx => hdisjoint y hyx hy) rfl htt rfl hft
      exact ⟨(l.join tt f).join ft t, by simp [linkedMergeAll, hpvf, hpvt, neighbour], hring, hothers⟩

/-- Settles O59: MergeAll joins the ring of `from` to the ring of `to`. -/
theorem linkedMergeRefinesSequenceMerge : Obligations.LinkedMergeRefinesSequenceMerge := by
  intro l src dst xs ys hx hy hdisjoint
  obtain ⟨l', hmerge, hring, hothers⟩ := linkedMergeAll_refines hx hy hdisjoint
  refine ⟨l', hmerge, hring, fun other zs hzs hout => hothers other zs hzs fun z hz hmem => ?_⟩
  exact (List.mem_append.mp hmem).elim (hout z hz).2 (hout z hz).1

/-! ### Removals -/

theorem unlink_alone {l : Links} {n : Nat} (h : l.nx n = some n) (head : Nat) :
    unlink l head n = .ok (l.release n, none) := by
  simp [unlink, h, neighbour]

theorem unlink_between {l : Links} {n s t : Nat} (hs : l.nx n = some s) (ht : l.pv n = some t) (hne : s ≠ n)
    (head : Nat) : unlink l head n = .ok ((l.join t s).release n, some (if head = n then s else head)) := by
  simp [unlink, hs, ht, hne, neighbour]

/-- The nodes after the first of a ring are a segment, between whose ends the first node stands. -/
theorem represents_cons_inv {l : Links} {n s t : Nat} {rest : List Nat} (h : Represents l (some n) (n :: rest))
    (hs : rest.head? = some s) (ht : rest.getLast? = some t) :
    l.Segment rest ∧ l.nx n = some s ∧ l.pv n = some t := by
  have hlast : (n :: rest).getLast? = some t := by simp [List.getLast?_cons, ht]
  obtain ⟨-, ⟨hnodup, harena, hchain⟩, -, hpv⟩ := (represents_iff rfl hlast).mp h
  obtain ⟨hfollows, hrest⟩ := List.isChain_cons.mp hchain
  exact ⟨⟨(List.nodup_cons.mp hnodup).2, fun m hm => harena m (List.mem_cons_of_mem _ hm), hrest⟩,
    (hfollows s hs).1, hpv⟩

/-- The links after node `n` leaves a ring in which it is not alone: the ring of the rest, closed over the gap. -/
theorem represents_unlinked {l : Links} {n s t : Nat} {rest : List Nat} (h : Represents l (some n) (n :: rest))
    (hs : rest.head? = some s) (ht : rest.getLast? = some t) :
    Represents ((l.join t s).release n) rest.head? rest ∧ Unowned ((l.join t s).release n) n ∧
      KeepsOtherPools l ((l.join t s).release n) (n :: rest) := by
  obtain ⟨hsegment, -, -⟩ := represents_cons_inv h hs ht
  obtain ⟨-, hnodup, harena, -⟩ := h
  have hn : (l.join t s).InArena n := inArena_join.mpr (harena n (by simp))
  refine ⟨hs ▸ (hsegment.close hs ht).release hn (List.nodup_cons.mp hnodup).1, unowned_release hn, ?_⟩
  refine (keepsOtherPools_join ?_ ?_ harena).trans (keepsOtherPools_release (by simp) hn)
  · exact List.mem_cons_of_mem _ (List.mem_of_getLast? ht)
  · exact List.mem_cons_of_mem _ (List.mem_of_head? hs)

/-- The links after the only node of a ring leaves it. -/
theorem represents_released {l : Links} {n : Nat} (h : Represents l (some n) [n]) :
    Unowned (l.release n) n ∧ KeepsOtherPools l (l.release n) [n] := by
  obtain ⟨-, -, harena, -⟩ := h
  have hn : l.InArena n := harena n (by simp)
  exact ⟨unowned_release hn, keepsOtherPools_release (by simp) hn⟩

/-- The head that unlinking node `n` leaves is the first of the other members. -/
theorem head_after_unlink {h n s : Nat} {a b : List Nat} (hhead : some h = (a ++ n :: b).head?)
    (hs : (b ++ a).head? = some s) (hnot : n ∉ b ++ a) : some (if h = n then s else h) = (a ++ b).head? := by
  cases a with
  | nil =>
    obtain rfl : h = n := Option.some.inj hhead
    simpa using hs.symm
  | cons x a =>
    obtain rfl : h = x := Option.some.inj hhead
    have hne : h ≠ n := fun e => hnot (by simp [e])
    simp [hne]

/-- Unlinking a member takes it out of its ring, wherever it stands: the ring is turned to begin with it, and back. -/
theorem unlink_refines {l : Links} {h n : Nat} {a b : List Nat} (hrep : Represents l (some h) (a ++ n :: b)) :
    ∃ l', unlink l h n = .ok (l', (a ++ b).head?) ∧ Represents l' (a ++ b).head? (a ++ b) ∧ Unowned l' n ∧
      KeepsOtherPools l l' (a ++ n :: b) := by
  have hhead : some h = (a ++ n :: b).head? := hrep.head_eq
  have hturned : Represents l (some n) (n :: (b ++ a)) := (hhead ▸ hrep).rotate
  have hsub : n :: (b ++ a) ⊆ a ++ n :: b := fun y hy => by simpa [or_comm, or_left_comm] using hy
  obtain hnil | ⟨s, t, hs, ht⟩ : b ++ a = [] ∨ ∃ s t, (b ++ a).head? = some s ∧ (b ++ a).getLast? = some t := by
    cases hba : b ++ a with
    | nil => exact .inl rfl
    | cons s rest => exact .inr ⟨s, _, rfl, List.getLast?_cons⟩
  · obtain ⟨rfl, rfl⟩ := List.append_eq_nil_iff.mp hnil
    obtain ⟨-, -, hself, -⟩ := (represents_iff rfl rfl).mp hturned
    obtain ⟨hunowned, hothers⟩ := represents_released hturned
    exact ⟨l.release n, unlink_alone hself h, represents_nil.mpr rfl, hunowned, hothers⟩
  · obtain ⟨-, hnx, hpv⟩ := represents_cons_inv hturned hs ht
    obtain ⟨hring, hunowned, hothers⟩ := represents_unlinked hturned hs ht
    obtain ⟨-, hnodup, -⟩ := hturned
    obtain ⟨hnotmem, -⟩ := List.nodup_cons.mp hnodup
    have hne : s ≠ n := fun e => hnotmem (e ▸ List.mem_of_head? hs)
    have hhead' := head_after_unlink hhead hs hnotmem
    exact ⟨_, hhead' ▸ unlink_between hnx hpv hne h, hring.rotate, hunowned, hothers.mono hsub⟩

theorem linkedPopFront_refines {l : Links} {head : Option Nat} {n : Nat} {rest : List Nat}
    (h : Represents l head (n :: rest)) :
    ∃ l', linkedPopFront l head = .ok (some n, l', rest.head?) ∧ Represents l' rest.head? rest ∧ Unowned l' n ∧
      KeepsOtherPools l l' (n :: rest) := by
  obtain rfl : head = some n := h.head_eq
  obtain ⟨l', hunlink, hrest⟩ := unlink_refines (a := []) h
  exact ⟨l', by simp [linkedPopFront, hunlink], hrest⟩

theorem linkedPopBack_refines {l : Links} {head : Option Nat} {n : Nat} {rest : List Nat}
    (h : Represents l head (rest ++ [n])) :
    ∃ l', linkedPopBack l head = .ok (some n, l', rest.head?) ∧ Represents l' rest.head? rest ∧ Unowned l' n ∧
      KeepsOtherPools l l' (rest ++ [n]) := by
  obtain ⟨a, ha⟩ : ∃ a, (rest ++ [n]).head? = some a := by cases rest <;> exact ⟨_, rfl⟩
  obtain ⟨rfl, -, -, hpv⟩ := (represents_iff ha List.getLast?_concat).mp h
  obtain ⟨l', hunlink, hrest⟩ := unlink_refines h
  rw [List.append_nil] at hunlink hrest
  exact ⟨l', by simp [linkedPopBack, hpv, neighbour, hunlink], hrest⟩

/-- Settles O57: a pop unlinks the first or the last node of the ring. -/
theorem linkedPopRefinesSequencePop : Obligations.LinkedPopRefinesSequencePop :=
  fun _ => ⟨⟨rfl, rfl⟩, fun _ _ _ => linkedPopFront_refines, fun _ _ _ => linkedPopBack_refines⟩

theorem linkedRemoveUnchecked_member {l : Links} {h n : Nat} (hmem : n ∈ l.seq (some h)) :
    linkedRemoveUnchecked l (some h) n = unlink l h n := if_pos hmem

theorem linkedRemoveUnchecked_nonMember {l : Links} {head : Option Nat} {n : Nat} (hnot : n ∉ l.seq head) :
    linkedRemoveUnchecked l head n = .error .removeNonMember := by
  cases head with
  | none => rfl
  | some h => exact if_neg hnot

theorem linkedRemove_refines {l : Links} {head : Option Nat} {n : Nat} {a b : List Nat}
    (hrep : Represents l head (a ++ n :: b)) :
    ∃ l', linkedRemoveUnchecked l head n = .ok (l', (a ++ b).head?) ∧
      linkedRemoveChecked l head n = .ok (some (l', (a ++ b).head?)) ∧
      Represents l' (a ++ b).head? (a ++ b) ∧ Unowned l' n ∧ KeepsOtherPools l l' (a ++ n :: b) := by
  obtain ⟨h, rfl⟩ : ∃ h, head = some h := by
    obtain rfl := hrep.head_eq
    cases a <;> exact ⟨_, rfl⟩
  have hmem : n ∈ l.seq (some h) := by simp [hrep.seq_eq]
  obtain ⟨l', hunlink, hrest⟩ := unlink_refines hrep
  have hunchecked := (linkedRemoveUnchecked_member hmem).trans hunlink
  exact ⟨l', hunchecked, by simp [linkedRemoveChecked, hmem, hunchecked], hrest⟩

/-- Settles O58: a member is unlinked from the ring; a non-member is not met by the walk. -/
theorem linkedRemoveRefinesSequenceRemove : Obligations.LinkedRemoveRefinesSequenceRemove := by
  refine fun l head => ⟨fun _ _ _ => linkedRemove_refines, fun xs n h hn => ?_⟩
  have hnot : n ∉ l.seq head := h.seq_eq.symm ▸ hn
  exact ⟨linkedRemoveUnchecked_nonMember hnot, by simp [linkedRemoveChecked, hnot]⟩

end Sys2Proof.Machine
end

section
/-! A TICK over the active channels (spec/41_tick_dispatcher.md R130, R131). What the two passes write at a slot or on a
line is a function of the state before the TICK, so the visiting order cannot show. -/

namespace Sys2Proof.Machine

theorem exec_tick_uninit {s : State} (hi : s.initialized = false) : exec .tick s = .next s := by
  show execTick s = .next s
  simp [execTick, hi]

theorem exec_tick_init {s : State} (hi : s.initialized = true) : exec .tick s = finish (tickOver s.chActive s) := by
  show execTick s = _
  simp [execTick, hi]

@[simp] theorem tickOver_nil (s : State) : tickOver [] s = .ok s := rfl

/-- The state `t` after the two passes over the active channels of `s` (spec/41_tick_dispatcher.md R130). -/
structure TickEffect (s t : State) : Prop where
  frame : t = { s with ch := t.ch, line := t.line }
  active : ∀ c ∈ s.chActive, ∃ r r1 r2 drive, s.ch[c]? = some r ∧ rxStep s.cfg s.line r = .ok r1 ∧
    txStep s.cfg r1 = .ok (r2, drive) ∧ t.ch[c]? = some r2 ∧ t.level r.txPin = drive.or (s.level r.txPin)
  unusedSlots : ∀ c, c ∉ s.chActive → t.ch[c]? = s.ch[c]?
  otherLines : ∀ p : Nat, (∀ r ∈ s.activeChannels, r.txPin.toNat ≠ p) → t.line[p]? = s.line[p]?

theorem tickOver_effect {s : State} (h : BlockInv s) {order : List Nat} (hperm : order.Perm s.chActive) :
    ∃ t, tickOver order s = .ok t ∧ TickEffect s t := by
  obtain ⟨t, ht, -, hframe, hactive, hslots, hlines⟩ :=
    tickOver_ok h (hperm.nodup_iff.mpr h.active_nodup) (fun _ hc => hperm.mem_iff.mp hc)
  refine ⟨t, ht, hframe, fun c hc => ?_, fun c hc => hslots c (mt hperm.mem_iff.mp hc), fun p hp => ?_⟩
  · obtain ⟨r, r1, r2, drive, hr, hrx, htx, -, -, -, -, hr2, hpin⟩ := hactive c (hperm.mem_iff.mpr hc)
    exact ⟨r, r1, r2, drive, hr, hrx, htx, hr2, hpin⟩
  · exact hlines p fun c hc r hr => hp r (mem_activeChannels (hperm.mem_iff.mp hc) hr)

/-- At an active slot the state before determines the record after and the level of the TX pin after. -/
theorem TickEffect.agree {s t u : State} (ht : TickEffect s t) (hu : TickEffect s u) {c : Nat} {r : Channel}
    (hc : c ∈ s.chActive) (hr : s.ch[c]? = some r) :
    t.ch[c]? = u.ch[c]? ∧ t.line[r.txPin.toNat]? = u.line[r.txPin.toNat]? := by
  obtain ⟨x, x1, x2, d, hx, hxrx, hxtx, htc, htl⟩ := ht.active c hc
  obtain ⟨y, y1, y2, e, hy, hyrx, hytx, huc, hul⟩ := hu.active c hc
  obtain rfl : r = x := Option.some.inj (hr.symm.trans hx)
  obtain rfl : r = y := Option.some.inj (hr.symm.trans hy)
  obtain rfl : x1 = y1 := Except.ok.inj (hxrx.symm.trans hyrx)
  obtain ⟨rfl, rfl⟩ := Prod.mk.inj (Except.ok.inj (hxtx.symm.trans hytx))
  exact ⟨htc.trans huc.symm, htl.trans hul.symm⟩

theorem TickEffect.unique {s t u : State} (h : BlockInv s) (ht : TickEffect s t) (hu : TickEffect s u) : t = u := by
  have hch : t.ch = u.ch := by
    refine List.ext_getElem? fun c => ?_
    by_cases hc : c ∈ s.chActive
    · obtain ⟨r, hr, -⟩ := h.record hc
      exact (ht.agree hu hc hr).1
    · rw [ht.unusedSlots c hc, hu.unusedSlots c hc]
  have hline : t.line = u.line := by
    refine List.ext_getElem? fun p => ?_
    by_cases hp : ∃ r ∈ s.activeChannels, r.txPin.toNat = p
    · obtain ⟨r, hmem, rfl⟩ := hp
      obtain ⟨c, hc, hr⟩ := List.mem_filterMap.mp hmem
      exact (ht.agree hu hc hr).2
    · have hother : ∀ r ∈ s.activeChannels, r.txPin.toNat ≠ p := fun r hr he => hp ⟨r, hr, he⟩
      rw [ht.otherLines p hother, hu.otherLines p hother]
  rw [ht.frame, hu.frame, hch, hline]

/-- Settles O33: INIT separates the two kinds of TICK, and a TICK after it has the effect of the two passes. -/
theorem tickFollowsItsRule : Obligations.TickFollowsItsRule := by
  refine fun s h => ⟨exec_tick_uninit, fun hnone => ?_, fun hi => ?_⟩
  · cases hi : s.initialized with
    | false => exact exec_tick_uninit hi
    | true => rw [exec_tick_init hi, hnone, tickOver_nil, finish_ok]
  · obtain ⟨t, ht, heffect⟩ := tickOver_effect h (List.Perm.refl _)
    exact ⟨t, by rw [exec_tick_init hi, ht, finish_ok], heffect.frame, heffect.active, heffect.unusedSlots,
      heffect.otherLines⟩

/-- Settles O35: in either order the passes have the one effect that the state before the TICK determines. -/
theorem channelOrderIsUnobservable : Obligations.ChannelOrderIsUnobservable := by
  intro s order h hperm
  obtain ⟨t, ht, htEffect⟩ := tickOver_effect h hperm
  obtain ⟨u, hu, huEffect⟩ := tickOver_effect h (List.Perm.refl _)
  rw [ht, hu, htEffect.unique h huEffect]

end Sys2Proof.Machine
end

section
/-! The quantum counter (spec/41_tick_dispatcher.md R132). -/

namespace Sys2Proof.Machine

/-- T advances from the entry of a state lead to the entry of its successor. -/
theorem advanceTimes_period {T : Nat} {m : BitMachine} (hT : 1 ≤ T) (hq : m.q = 0) :
    advanceTimes T T m = { m with q := 0, pos := m.pos.succ } := by
  calc advanceTimes T T m
      = advanceTimes T (T - 1 + 1) m := by rw [Nat.sub_add_cancel hT]
    _ = (advance T (advanceTimes T (T - 1) m)).1 := advanceTimes_add T (T - 1) 1 m
    _ = (advance T { m with q := m.q + (T - 1) }).1 := by rw [advanceTimes_inside (by omega)]
    _ = { m with q := 0, pos := m.pos.succ } := by rw [advance_enter (by show m.q + (T - 1) + 1 = T; omega)]

/-- Settles O36: T - 1 advances stay inside the state, and the next one enters the successor. -/
theorem advanceHoldsAStateForTTicks : Obligations.AdvanceHoldsAStateForTTicks := by
  refine fun T m hT => ⟨advance_enter, advance_same, fun hq => ⟨fun j hj => ?_, advanceTimes_period hT hq⟩⟩
  rw [advanceTimes_inside (by omega), hq, Nat.zero_add]

end Sys2Proof.Machine
end

section
/-! One RX pass (spec/41_tick_dispatcher.md R133 to R141). Every pass that answers ends by settling a record: the sample at
q = S, then `last`. The rules about a tick follow from what is settled and from whether it is at its sample instant. -/

namespace Sys2Proof.Machine

variable {cfg : Config} {r : Channel} {v : Bool}

/-! ### Settling (spec/41_tick_dispatcher.md R135, R141) -/

theorem rxSettle_idle {S : Nat} (hp : r.rx.pos = .idle) : rxSettle S r v = { r with last := v } := by
  simp [rxSettle, hp]

theorem rxSettle_off {S : Nat} (hq : r.rx.q ≠ S) : rxSettle S r v = { r with last := v } := by
  simp [rxSettle, hq]

theorem rxSettle_at {S : Nat} (hp : r.rx.pos ≠ .idle) (hq : r.rx.q = S) :
    rxSettle S r v = { r with rx := rxSample r.rx v, last := v } := by
  simp [rxSettle, hp, hq]

/-! ### What a pass settles -/

theorem rxStepWith_idle (hp : r.rx.pos = .idle) : rxStepWith cfg r v = .ok (rxSettle cfg.S (rxIdle r v) v) := by
  simp [rxStepWith, hp]

theorem rxStepWith_notIdle (hp : r.rx.pos ≠ .idle) :
    rxStepWith cfg r v = (rxBusy cfg.T r >>= fun u => .ok (rxSettle cfg.S u v)) := by
  simp [rxStepWith, hp]

/-- A busy machine that stays busy only advances before it settles. -/
theorem rxStepWith_advance (hp : r.rx.pos ≠ .idle) (hm : (advance cfg.T r.rx).1.pos ≠ .idle) :
    rxStepWith cfg r v = .ok (rxSettle cfg.S { r with rx := (advance cfg.T r.rx).1 } v) := by
  simp [rxStepWith_notIdle hp, rxBusy, hm]

theorem rxStepWith_inv {r' : Channel} (h : rxStepWith cfg r v = .ok r') : ∃ u, r' = rxSettle cfg.S u v := by
  by_cases hp : r.rx.pos = .idle
  · rw [rxStepWith_idle hp] at h
    cases h
    exact ⟨_, rfl⟩
  · rw [rxStepWith_notIdle hp] at h
    cases hu : rxBusy cfg.T r with
    | error e => rw [hu] at h; cases h
    | ok u => rw [hu] at h; cases h; exact ⟨u, rfl⟩

/-! ### Idle (spec/41_tick_dispatcher.md R134) -/

/-- The record on entry to Start. -/
def Channel.startRx (r : Channel) : Channel :=
  { r with rx := { pos := .start, q := 0, scr := r.rx.scr.clearFlags }, rxDrop := false }

theorem rxIdle_edge (hl : r.last = true) : rxIdle r false = r.startRx := by simp [rxIdle, hl, Channel.startRx]

theorem rxIdle_stay (h : r.last = false ∨ v = true) : rxIdle r v = r := by
  unfold rxIdle
  rw [if_neg]
  rintro ⟨hl, hv⟩
  rcases h with h | h
  · rw [hl] at h; cases h
  · rw [hv] at h; cases h

/-- A falling edge settles the record on entry to Start, so with S = 0 its level is the Start sample too. -/
theorem rxStepWith_edge (hp : r.rx.pos = .idle) (hl : r.last = true) :
    rxStepWith cfg r false = .ok (rxSettle cfg.S r.startRx false) := by
  rw [rxStepWith_idle hp, rxIdle_edge hl]

/-- The level of a falling edge is a Start sample of 0, which changes nothing (spec/41_tick_dispatcher.md R136). -/
theorem rxSettle_startRx (S : Nat) : rxSettle S r.startRx false = { r.startRx with last := false } := by
  simp [rxSettle, Channel.startRx, rxSample]

/-- Settles O37: in Idle a pass settles the record on entry to Start for a falling edge, else the record itself. -/
theorem rxLeavesIdleOnlyOnAFallingEdge : Obligations.RxLeavesIdleOnlyOnAFallingEdge := by
  refine fun cfg r v hp => ⟨fun hl hv => ?_, fun hstay => ?_⟩
  · subst hv
    rw [rxStepWith_edge hp hl, rxSettle_startRx]
    rfl
  · rw [rxStepWith_idle hp, rxIdle_stay hstay, rxSettle_idle hp]

/-! ### The level that is read -/

theorem rxStep_inv {levels : List Bool} {r' : Channel} (h : rxStep cfg levels r = .ok r') :
    ∃ v, levels[r.rxPin.toNat]? = some v ∧ rxStepWith cfg r v = .ok r' := by
  unfold rxStep lineRead at h
  cases hv : levels[r.rxPin.toNat]? with
  | none => rw [hv] at h; cases h
  | some v => rw [hv] at h; exact ⟨v, rfl, h⟩

/-- Settles O38: settling a record ends with `last <- v`. -/
theorem lastSampleIsRecorded : Obligations.LastSampleIsRecorded := by
  intro cfg r r' levels h
  obtain ⟨v, hv, hstep⟩ := rxStep_inv h
  obtain ⟨u, rfl⟩ := rxStepWith_inv hstep
  exact hv

/-! ### The sample instant (spec/41_tick_dispatcher.md R135, R136) -/

/-- Settles O39: a busy tick settles the advanced record, and at its sample instant Start alone abandons the frame. -/
theorem rxSampleUsesTheLevel : Obligations.RxSampleUsesTheLevel := by
  rintro cfg r v m hp rfl hm
  rw [rxStepWith_advance hp hm]
  refine ⟨fun hoff => by rw [rxSettle_off hoff], fun hat => ?_⟩
  rw [rxSettle_at hm hat]
  refine ⟨fun hs hv => ?_, fun hs hv => ?_, fun _ => rfl⟩
  · simp [rxSample, hs, hv]
  · simp [rxSample, hs, hv]

/-! ### Data, Parity and Stop samples (spec/41_tick_dispatcher.md R137, R138, R139) -/

theorem rxSample_data {m : BitMachine} {k : Fin 8} (hp : m.pos = .data k) :
    rxSample m v = { m with scr := { m.scr with data := setBit m.scr.data k v } } := by simp [rxSample, hp]

theorem rxSample_parity {m : BitMachine} (hp : m.pos = .parity) :
    rxSample m v = { m with scr := { m.scr with parity := v } } := by simp [rxSample, hp]

theorem rxSample_stop_low {m : BitMachine} (hp : m.pos = .stop) :
    rxSample m false = { m with scr := { m.scr with stopViolation := true } } := by simp [rxSample, hp]

theorem rxSample_stop_high {m : BitMachine} (hp : m.pos = .stop) : rxSample m true = m := by simp [rxSample, hp]

/-- Settles O40: the sample in each state, and `setBit` bit by bit. -/
theorem rxBitSamplesAreRecorded : Obligations.RxBitSamplesAreRecorded := by
  refine fun m v => ⟨fun k hp => ⟨setBit m.scr.data k v, ?_, fun j hj => ?_, rxSample_data hp⟩, rxSample_parity, ?_, ?_⟩
  · rw [setBit_getLsbD, if_pos rfl]
  · rw [setBit_getLsbD, if_neg hj]
  · rintro hp rfl
    exact rxSample_stop_low hp
  · rintro hp rfl
    exact rxSample_stop_high hp

/-! ### The end of Stop (spec/41_tick_dispatcher.md R140) -/

/-- The record after the counter has left Stop. -/
def Channel.stopEnded (r : Channel) : Channel := { r with rx := { pos := .idle, q := 0, scr := r.rx.scr } }

theorem rxBusy_stopEnds {T : Nat} (hp : r.rx.pos = .stop) (hq : r.rx.q + 1 = T) :
    rxBusy T r = rxComplete r.stopEnded := by
  simp [rxBusy, advance_enter hq, hp, BitPos.succ, Channel.stopEnded]

/-- The tick that ends Stop completes the frame, takes no sample and records the level. -/
theorem rxStepWith_stopEnds {u : Channel} (hp : r.rx.pos = .stop) (hq : r.rx.q + 1 = cfg.T)
    (hu : rxComplete r.stopEnded = .ok u) (hidle : u.rx.pos = .idle) :
    rxStepWith cfg r v = .ok { u with last := v } := by
  have hbusy : r.rx.pos ≠ .idle := by rw [hp]; decide
  rw [rxStepWith_notIdle hbusy, rxBusy_stopEnds hp hq, hu, ok_bind, rxSettle_idle hidle]

theorem rxComplete_room (hd : r.rxDrop = false) {n : Nat} {free : List Nat} (hf : r.rxFree = n :: free)
    (ha : ArenaSizes cfg r) (hp : PoolPartition cfg r) :
    rxComplete r = .ok { r with rxFree := free, rxPend := r.rxPend ++ [n], rxPay := r.rxPay.set n r.rx.scr } := by
  rw [rxComplete, if_pos hd, enqueueRx_room hf ha hp]

theorem rxComplete_full (hd : r.rxDrop = false) (hf : r.rxFree = []) : rxComplete r = .ok r := by
  rw [rxComplete, if_pos hd, enqueueRx_full hf]

theorem rxComplete_drop (hd : r.rxDrop = true) : rxComplete r = .ok r.mergeRx := by simp [rxComplete, hd]

/-- Settles O42: the drop mark and the free pool decide which of its three ends RxComplete has. -/
theorem rxCompletesWhenStopEnds : Obligations.RxCompletesWhenStopEnds := by
  refine fun cfg r v ha hpart hp hq => ⟨fun n free hd hf => ?_, fun hd hf => ?_, fun hd => ?_⟩
  · exact rxStepWith_stopEnds hp hq (rxComplete_room (r := r.stopEnded) hd hf ha hpart) rfl
  · exact rxStepWith_stopEnds hp hq (rxComplete_full (r := r.stopEnded) hd hf) rfl
  · exact rxStepWith_stopEnds hp hq (rxComplete_drop (r := r.stopEnded) hd) rfl

end Sys2Proof.Machine
end

section
/-! One TX pass (spec/41_tick_dispatcher.md R142 to R149). -/

namespace Sys2Proof.Machine

variable {cfg : Config} {r : Channel}

theorem txStart_keeps {m : Message} (hc : m.clearsRx = false) :
    txStart r m = ({ r with tx := { pos := .start, q := 0, scr := m } },
      if m.isBlank = true then none else some false) := by simp [txStart, hc]

theorem txStart_clears {m : Message} (hc : m.clearsRx = true) :
    txStart r m = ({ r with
      tx := { pos := .start, q := 0, scr := m }
      rxDrop := true, rxFree := r.rxFree ++ r.rxPend, rxPend := [] },
      if m.isBlank = true then none else some false) := by simp [txStart, hc]

/-- Settles O45: an empty queue keeps the line at 1, and a popped message starts with its own flush. -/
theorem txIdleStartsOrDrivesHigh : Obligations.TxIdleStartsOrDrivesHigh := by
  refine fun cfg r ha hpart hp => ⟨txStep_idle hp, fun n pend hq => ?_⟩
  obtain ⟨m, hm, -, hstep⟩ := txStep_pop (cfg := cfg) hp hq ha hpart
  exact ⟨m, hm, fun hc => by rw [hstep, txStart_keeps hc], fun hc => by rw [hstep, txStart_clears hc]⟩

/-- Inside a state the TX machine counts and writes nothing (spec/41_tick_dispatcher.md R145). -/
theorem txBusy_inside {T : Nat} (hq : r.tx.q + 1 ≠ T) :
    txBusy T r = ({ r with tx := { r.tx with q := r.tx.q + 1 } }, none) := by simp [txBusy, advance_same hq]

/-- On entry to a state the TX machine writes the level of the frame there, unless the message is blank or the state is
Idle (spec/41_tick_dispatcher.md R145, R146, R147). -/
theorem txBusy_enter {T : Nat} (hq : r.tx.q + 1 = T) :
    txBusy T r = ({ r with tx := { r.tx with q := 0, pos := r.tx.pos.succ } },
      if r.tx.pos.succ ≠ .idle ∧ r.tx.scr.isBlank = false then some (frameLevel r.tx.scr r.tx.pos.succ) else none) := by
  simp [txBusy, advance_enter hq]

/-- Settles O46: a busy tick is inside a state or enters one, and the level of the frame is the one of the state entered. -/
theorem txWritesOnlyOnEntry : Obligations.TxWritesOnlyOnEntry := by
  intro cfg r hp
  rw [txStep_busy hp]
  refine ⟨fun hq => by rw [txBusy_inside hq], fun hq => ?_⟩
  rw [txBusy_enter hq]
  refine ⟨fun hs => ?_, fun hb => ?_, fun hb => ⟨fun k hk => ?_, fun hk => ?_, fun hk => ?_⟩⟩
  · simp [hs, BitPos.succ]
  · simp [hb]
  · simp [hk, hb, frameLevel]
  · simp [hk, hb, frameLevel]
  · simp [hk, hb, frameLevel]

/-- Settles O47: TxStep reads T of the configuration and no other parameter. -/
theorem txIgnoresTheSampleTick : Obligations.TxIgnoresTheSampleTick := fun _ _ _ => rfl

end Sys2Proof.Machine
end

section
/-! The receive machine over one bit period (spec/41_tick_dispatcher.md R135, R136, R150). A period is the run of ticks from
the one that enters a state: it is quiet up to its sample, and quiet after it. -/

namespace Sys2Proof.Machine

variable {cfg : Config}

theorem rxRun_cons {r u : Channel} {v : Bool} (h : rxStepWith cfg r v = .ok u) (vs : List Bool) :
    rxRun cfg (v :: vs) r = rxRun cfg vs u := by simp [rxRun, h]

/-! ### Ticks inside a period -/

theorem rxStepWith_inside {r : Channel} (v : Bool) (hp : r.rx.pos ≠ .idle) (hq : r.rx.q + 1 ≠ cfg.T) :
    rxStepWith cfg r v = .ok (rxSettle cfg.S { r with rx := { r.rx with q := r.rx.q + 1 } } v) := by
  rw [rxStepWith_advance hp (by rw [advance_same hq]; exact hp), advance_same hq]

/-- Ticks inside a period that are all off its sample instant. -/
theorem rxRun_quiet {vs : List Bool} {r : Channel} (hp : r.rx.pos ≠ .idle) (hT : r.rx.q + vs.length < cfg.T)
    (hS : cfg.S ≤ r.rx.q ∨ r.rx.q + vs.length < cfg.S) :
    rxRun cfg vs r = .ok { r with rx := { r.rx with q := r.rx.q + vs.length }, last := vs.getLastD r.last } := by
  induction vs generalizing r with
  | nil => rfl
  | cons v vs ih =>
    simp only [List.length_cons] at hT hS
    have hoff : r.rx.q + 1 ≠ cfg.S := by omega
    have hstep := (rxStepWith_inside v hp (by omega)).trans (congrArg _ (rxSettle_off hoff))
    refine (rxRun_cons hstep vs).trans ((ih (by exact hp) ?_ ?_).trans ?_)
    · show r.rx.q + 1 + _ < _
      omega
    · show _ ≤ r.rx.q + 1 ∨ r.rx.q + 1 + _ < _
      omega
    · simp only [List.length_cons, List.getLastD_cons, Nat.add_assoc, Nat.add_comm 1]

/-- From a tick that settles `u` up to the sample instant: the last level read is the sample. -/
theorem rxRun_toSample {vs : List Bool} {u : Channel} {v : Bool} (hp : u.rx.pos ≠ .idle)
    (hS : u.rx.q + vs.length = cfg.S) (hT : cfg.S < cfg.T) :
    rxRun cfg vs (rxSettle cfg.S u v) =
      .ok { u with rx := rxSample { u.rx with q := cfg.S } (vs.getLastD v), last := vs.getLastD v } := by
  induction vs generalizing u v with
  | nil =>
    have hq : u.rx.q = cfg.S := hS
    rw [rxSettle_at hp hq, ← hq]
    rfl
  | cons w vs ih =>
    simp only [List.length_cons] at hS
    rw [rxSettle_off (by omega)]
    refine (rxRun_cons (rxStepWith_inside w (by exact hp) ?_) vs).trans ((ih (by exact hp) ?_).trans ?_)
    · show u.rx.q + 1 ≠ _
      omega
    · show u.rx.q + 1 + _ = _
      omega
    · rw [List.getLastD_cons]

/-! ### A whole period -/

theorem getLastD_take_of_get {α : Type} {x b : α} {xs : List α} {n : Nat} (h : (x :: xs)[n]? = some b) :
    (xs.take n).getLastD x = b := by
  cases n with
  | zero => simpa using h
  | succ n =>
    have hn : xs[n]? = some b := h
    simp [List.getLastD_eq_getLast?, List.getLast?_take, hn]

theorem getLastD_drop_of_get {α : Type} {b : α} {xs : List α} {n : Nat} (h : xs[n]? = some b) (d : α) :
    (xs.drop (n + 1)).getLastD b = xs.getLastD d := by
  obtain ⟨hn, rfl⟩ := List.getElem?_eq_some_iff.mp h
  calc (xs.drop (n + 1)).getLastD xs[n]
      = (xs.drop n).getLastD d := by rw [List.drop_eq_getElem_cons hn, List.getLastD_cons]
    _ = xs.getLastD d := by
        rw [List.getLastD_eq_getLast?, List.getLast?_drop, if_neg (by omega), ← List.getLastD_eq_getLast?]

section Period

/-! A period whose first tick settles `u`, the record on entry, and whose level at tick S is `b`. -/

variable {r u : Channel} {vs : List Bool} {b : Bool}
  (hentry : ∀ v, vs[0]? = some v → rxStepWith cfg r v = .ok (rxSettle cfg.S u v))
  (hp : u.rx.pos ≠ .idle) (hq : u.rx.q = 0) (hT : cfg.S < cfg.T) (hb : vs[cfg.S]? = some b)

include hentry hp hq hT hb

/-- The period up to its sample. -/
theorem rxRun_entry_toSample :
    rxRun cfg (vs.take (cfg.S + 1)) r = .ok { u with rx := rxSample { u.rx with q := cfg.S } b, last := b } := by
  cases vs with
  | nil => cases hb
  | cons v rest =>
    have hlen : cfg.S < rest.length + 1 := (List.getElem?_eq_some_iff.mp hb).1
    have hS : u.rx.q + (rest.take cfg.S).length = cfg.S := by rw [hq, List.length_take]; omega
    rw [List.take_succ_cons, rxRun_cons (hentry v rfl), rxRun_toSample hp hS hT, getLastD_take_of_get hb]

/-- A period that its sample does not end: of the levels only the sample reaches the scratch, and the last one `last`. -/
theorem rxRun_period (hlen : vs.length = cfg.T) (hstart : u.rx.pos = .start → b = false) :
    rxRun cfg vs r = .ok { u with
      rx := { pos := u.rx.pos, q := cfg.T - 1, scr := (rxSample u.rx b).scr }, last := vs.getLastD false } := by
  obtain ⟨hpos, hqS⟩ := rxSample_keeps { u.rx with q := cfg.S } b hstart
  have hscr : (rxSample { u.rx with q := cfg.S } b).scr = (rxSample u.rx b).scr := rxSample_scr _ _ _ _ _
  have hrest : cfg.S + (vs.drop (cfg.S + 1)).length = cfg.T - 1 := by rw [List.length_drop]; omega
  rw [← List.take_append_drop (cfg.S + 1) vs, rxRun_append, rxRun_entry_toSample hentry hp hq hT hb, ok_bind,
    rxRun_quiet (by rw [hpos]; exact hp) (by simp only [hqS]; omega) (.inl hqS.ge), List.take_append_drop]
  simp only [hpos, hqS, hscr, hrest, getLastD_drop_of_get hb false]

end Period

/-! ### The Start period and the later ones -/

theorem rxStepWith_edge_of_get {r : Channel} {vs : List Bool} (hp : r.rx.pos = .idle) (hl : r.last = true)
    (h0 : vs[0]? = some false) (v : Bool) (hv : vs[0]? = some v) :
    rxStepWith cfg r v = .ok (rxSettle cfg.S r.startRx v) := by
  obtain rfl : false = v := Option.some.inj (h0.symm.trans hv)
  exact rxStepWith_edge hp hl

/-- The record on entry to the successor state. -/
def Channel.nextRx (r : Channel) : Channel := { r with rx := { pos := r.rx.pos.succ, q := 0, scr := r.rx.scr } }

theorem rxStepWith_enter {r : Channel} (v : Bool) (hp : r.rx.pos ≠ .idle) (hs : r.rx.pos.succ ≠ .idle)
    (hq : r.rx.q + 1 = cfg.T) : rxStepWith cfg r v = .ok (rxSettle cfg.S r.nextRx v) := by
  rw [rxStepWith_advance hp (by rw [advance_enter hq]; exact hs), advance_enter hq]
  rfl

theorem BitPos.succ_ne_start (p : BitPos) : p.succ ≠ .start := by
  cases p with
  | data k => by_cases hk : k.val + 1 < 8 <;> simp [BitPos.succ, hk]
  | idle | start | parity | stop => simp [BitPos.succ]

theorem rxRun_startPeriod {r : Channel} {vs : List Bool} (hT : cfg.S < cfg.T) (hlen : vs.length = cfg.T)
    (hp : r.rx.pos = .idle) (hl : r.last = true) (h0 : vs[0]? = some false) (hS : vs[cfg.S]? = some false) :
    rxRun cfg vs r = .ok { r with
      rx := { pos := .start, q := cfg.T - 1, scr := r.rx.scr.clearFlags }
      rxDrop := false
      last := vs.getLastD false } :=
  rxRun_period (rxStepWith_edge_of_get hp hl h0) (by simp [Channel.startRx]) rfl hT hS hlen (fun _ => rfl)

theorem rxRun_nextPeriod {r : Channel} {vs : List Bool} {b : Bool} (hT : cfg.S < cfg.T) (hlen : vs.length = cfg.T)
    (hp : r.rx.pos ≠ .idle) (hs : r.rx.pos.succ ≠ .idle) (hq : r.rx.q + 1 = cfg.T) (hb : vs[cfg.S]? = some b) :
    rxRun cfg vs r = .ok { r with
      rx := { pos := r.rx.pos.succ, q := cfg.T - 1
              scr := (rxSample { pos := r.rx.pos.succ, q := cfg.S, scr := r.rx.scr } b).scr }
      last := vs.getLastD false } := by
  rw [rxRun_period (u := r.nextRx) (fun v _ => rxStepWith_enter v hp hs hq) hs rfl hT hb hlen
    (fun h => absurd h (BitPos.succ_ne_start _))]
  simp only [Channel.nextRx, rxSample_scr _ 0 cfg.S]

/-- Settles O41: a period is quiet around its sample, and a Start sample of 1 ends it there. -/
theorem rxSamplesOncePerPeriod : Obligations.RxSamplesOncePerPeriod := by
  refine fun cfg r vs hT hlen => ⟨?_, fun hp hl h0 h1 => ?_, fun v hp hs hq hv => ?_⟩
  · exact rxRun_startPeriod hT hlen
  · rw [rxRun_entry_toSample (rxStepWith_edge_of_get hp hl h0) (by simp [Channel.startRx]) rfl hT h1]
    rfl
  · exact rxRun_nextPeriod hT hlen hp hs hq hv

end Sys2Proof.Machine
end

section
/-! Reception of a whole frame (spec/41_tick_dispatcher.md R134 to R140, R151): eleven bit periods, each of which adds its
sample to the scratch, and the tick that ends Stop. -/

namespace Sys2Proof.Machine

/-- Past frame bit `f` the scratch `m` holds the samples `bit 1`, …, `bit f`, and nothing set before the frame but data
bits and a parity bit still to be overwritten (spec/41_tick_dispatcher.md R134, R137, R138, R139). -/
structure FrameRead (bit : Nat → Bool) (f : Nat) (m : Message) : Prop where
  data : ∀ k < f, k < 8 → m.data.getLsbD k = bit (k + 1)
  parity : 9 ≤ f → m.parity = bit 9
  stopAhead : f < 10 → m.stopViolation = false
  stop : 10 ≤ f → m.stopViolation = !bit 10
  flags : ReceivedMessage m

variable {cfg : Config} {bit : Nat → Bool} {f : Nat} {m : Message}

theorem frameRead_clearFlags (bit : Nat → Bool) (m : Message) : FrameRead bit 0 m.clearFlags :=
  ⟨fun _ hk => absurd hk (Nat.not_lt_zero _), by omega, fun _ => rfl, by omega, rfl, rfl⟩

/-- The sample of the next state adds its frame bit. -/
theorem FrameRead.sample (h : FrameRead bit f m) {p : BitPos} (hp : p.ordinal = f + 2) (q : Nat) :
    FrameRead bit (f + 1) (rxSample ⟨p, q, m⟩ (bit (f + 1))).scr := by
  obtain ⟨hdata, hparity, hahead, hstop, hflags⟩ := h
  cases p with
  | idle => simp [BitPos.ordinal] at hp
  | start => simp [BitPos.ordinal] at hp
  | data k =>
    obtain rfl : k.val = f := by simp only [BitPos.ordinal] at hp; omega
    rw [rxSample_data rfl]
    refine ⟨fun j hj h8 => ?_, by omega, fun _ => hahead (by omega), by omega, hflags⟩
    rw [setBit_getLsbD]
    split
    · next hjk => rw [hjk]
    · next hjk => exact hdata j (by omega) h8
  | parity =>
    obtain rfl : f = 8 := by simp only [BitPos.ordinal] at hp; omega
    rw [rxSample_parity rfl]
    exact ⟨fun j _ h8 => hdata j h8 h8, fun _ => rfl, fun _ => hahead (by omega), by omega, hflags⟩
  | stop =>
    obtain rfl : f = 9 := by simp only [BitPos.ordinal] at hp; omega
    cases hb : bit 10 with
    | true =>
      rw [rxSample_stop_high rfl]
      exact ⟨fun j _ h8 => hdata j (by omega) h8, fun _ => hparity (by omega), by omega,
        fun _ => by rw [hahead (by omega), hb]; rfl, hflags⟩
    | false =>
      rw [rxSample_stop_low rfl]
      exact ⟨fun j _ h8 => hdata j (by omega) h8, fun _ => hparity (by omega), by omega,
        fun _ => by rw [hb]; rfl, hflags⟩

/-- The ordinals tell the states apart. -/
theorem BitPos.ordinal_injective {p p' : BitPos} (h : p.ordinal = p'.ordinal) : p = p' :=
  Option.some.inj (by rw [← p.ofOrdinal_ordinal, ← p'.ofOrdinal_ordinal, h])

theorem BitPos.ordinal_eq_zero {p : BitPos} : p.ordinal = 0 ↔ p = .idle :=
  ⟨fun h => BitPos.ordinal_injective (p' := .idle) h, fun h => h ▸ rfl⟩

section Frame

/-! The levels of a frame that starts with an edge and a Start sample of 0; `bit f` is the level at tick f*T + S. -/

variable {r : Channel} {vs : List Bool} (hT : cfg.S < cfg.T) (hp : r.rx.pos = .idle) (hl : r.last = true)
  (hlen : vs.length = 11 * cfg.T + 1) (h0 : vs[0]? = some false)
  (hbit : ∀ f ≤ 10, vs[f * cfg.T + cfg.S]? = some (bit f)) (hstart : bit 0 = false)

include hT hp hl hlen h0 hbit hstart

/-- After the periods of frame bits 0 to `f`, the machine is at the last tick of the last of them. -/
theorem rxRun_frameBits : ∀ f ≤ 10, ∃ p m last, p.ordinal = f + 1 ∧ FrameRead bit f m ∧
    rxRun cfg (vs.take ((f + 1) * cfg.T)) r =
      .ok { r with rx := { pos := p, q := cfg.T - 1, scr := m }, rxDrop := false, last := last } := by
  intro f
  induction f with
  | zero =>
    intro _
    have hS : (vs.take ((0 + 1) * cfg.T))[cfg.S]? = some false := by
      rw [List.getElem?_take_of_lt (by omega), ← hstart, ← hbit 0 (by omega)]
      congr 1
      omega
    have h0' : (vs.take ((0 + 1) * cfg.T))[0]? = some false := by rw [List.getElem?_take_of_lt (by omega), h0]
    exact ⟨.start, _, _, rfl, frameRead_clearFlags bit _,
      rxRun_startPeriod hT (by rw [List.length_take]; omega) hp hl h0' hS⟩
  | succ f ih =>
    intro hf
    obtain ⟨p, m, last, hord, hread, hrun⟩ := ih (by omega)
    have hpos : p ≠ .idle := fun h => by rw [h] at hord; cases hord
    have hnext : p.succ.ordinal = f + 2 := by rw [BitPos.ordinal_succ (by omega), hord]; omega
    have hsucc : p.succ ≠ .idle := fun h => by rw [h] at hnext; cases hnext
    have hmul : (f + 1) * cfg.T + cfg.T ≤ 11 * cfg.T := by
      rw [← Nat.succ_mul]; exact Nat.mul_le_mul_right _ (by omega)
    have hb : ((vs.drop ((f + 1) * cfg.T)).take cfg.T)[cfg.S]? = some (bit (f + 1)) := by
      rw [List.getElem?_take_of_lt hT, List.getElem?_drop]
      exact hbit (f + 1) hf
    have hlen' : ((vs.drop ((f + 1) * cfg.T)).take cfg.T).length = cfg.T := by
      rw [List.length_take, List.length_drop]; omega
    refine ⟨p.succ, _, ((vs.drop ((f + 1) * cfg.T)).take cfg.T).getLastD false, hnext, hread.sample hnext cfg.S, ?_⟩
    rw [Nat.succ_mul (f + 1), List.take_add, rxRun_append, hrun, ok_bind]
    exact rxRun_nextPeriod hT hlen' hpos hsucc (by show cfg.T - 1 + 1 = _; omega) hb

/-- The frame, up to what RxComplete makes of the record at its end. -/
theorem rxRun_frame : ∃ m last, FrameRead bit 10 m ∧ ∀ u,
    rxComplete { r with rx := { pos := .idle, q := 0, scr := m }, rxDrop := false, last := last } = .ok u →
      u.rx.pos = .idle → rxRun cfg vs r = .ok { u with last := vs.getLastD false } := by
  obtain ⟨p, m, last, hord, hread, hrun⟩ := rxRun_frameBits hT hp hl hlen h0 hbit hstart 10 le_rfl
  obtain rfl : p = .stop := BitPos.ordinal_injective hord
  refine ⟨m, last, hread, fun u hu hidle => ?_⟩
  obtain ⟨v, hv⟩ : ∃ v, vs.drop (11 * cfg.T) = [v] :=
    List.length_eq_one_iff.mp (by rw [List.length_drop]; omega)
  rw [← List.take_append_drop (11 * cfg.T) vs, hv, rxRun_append, hrun, ok_bind, List.getLastD_concat]
  exact rxRun_cons (rxStepWith_stopEnds rfl (by show cfg.T - 1 + 1 = _; omega) (by exact hu) hidle) []

end Frame

/-- Settles O43: the frame's samples make the message, and with no drop mark set since the edge it is queued. -/
theorem rxAssemblesAnyFrame : Obligations.RxAssemblesAnyFrame := by
  intro cfg r vs hT ha hpart hp hl hlen h0 hS
  have hbit : ∀ f ≤ 10, vs[f * cfg.T + cfg.S]? = some (vs.getD (f * cfg.T + cfg.S) false) := by
    intro f hf
    have hmul : f * cfg.T ≤ 10 * cfg.T := Nat.mul_le_mul_right _ hf
    have hlt : f * cfg.T + cfg.S < vs.length := by omega
    rw [List.getD_eq_getElem?_getD, List.getElem?_eq_getElem hlt]
    rfl
  have hstart : vs.getD (0 * cfg.T + cfg.S) false = false := by
    rw [List.getD_eq_getElem?_getD, Nat.zero_mul, Nat.zero_add, hS]
    rfl
  obtain ⟨m, last, hread, hrun⟩ :=
    rxRun_frame (bit := fun f => vs.getD (f * cfg.T + cfg.S) false) hT hp hl hlen h0 hbit hstart
  refine ⟨m, fun k hk => ?_, ?_, ?_, hread.flags.1, hread.flags.2, fun n free hf => ?_, fun hf => ?_⟩
  · rw [hread.data k (by omega) hk]
    exact hbit (k + 1) (by omega)
  · rw [hread.parity (by omega)]
    exact hbit 9 (by omega)
  · rw [hread.stop (by omega), Bool.not_not]
    exact hbit 10 (by omega)
  · exact hrun _ (rxComplete_room (cfg := cfg) rfl hf ha hpart) rfl
  · exact hrun _ (rxComplete_full rfl hf) rfl

end Sys2Proof.Machine
end

section
/-! Transmission of a whole frame (spec/41_tick_dispatcher.md R144 to R147, R151). A message that is popped at a TICK is
followed tick by tick: the machine's place in the frame, and the level that the frame has put on the pin. A blank message
goes through the same places and puts none there. -/

namespace Sys2Proof.Machine

/-- The level of the frame of `m` in a state, if its machine writes one (spec/41_tick_dispatcher.md R145, R147). -/
def frameDrive (m : Message) (p : BitPos) : Option Bool := if m.isBlank = true then none else some (frameLevel m p)

theorem frameDrive_blank {m : Message} (hb : m.isBlank = true) (p : BitPos) : frameDrive m p = none := if_pos hb

theorem frameDrive_plain {m : Message} (hb : m.isBlank = false) (p : BitPos) :
    frameDrive m p = some (frameLevel m p) := by simp [frameDrive, hb]

/-- The return to Idle writes nothing, and the stop level stays (spec/41_tick_dispatcher.md R146). -/
theorem frameDrive_stop (m : Message) : frameDrive m .stop = frameDrive m .idle := rfl

theorem txStart_enters (r : Channel) (m : Message) :
    (txStart r m).1.tx = { pos := .start, q := 0, scr := m } ∧ (txStart r m).2 = frameDrive m .start := by
  refine ⟨?_, rfl⟩
  unfold txStart
  split <;> rfl

/-! ### One TICK of a frame -/

/-- Tick `f * T + q` of the frame of `m` on the TX pin of slot `c`, counted from the TICK after `s` that pops `m`: the
machine has been in the state of frame bit `f` for `q` ticks more than the one that entered it, and the pin has the level
of the frame there, or the one it had before if the message is blank. Frame bit 11 is the return to Idle. -/
structure Sending (s : State) (c : Nat) (r : Channel) (m : Message) (f q : Nat) (t : State) : Prop where
  inv : BlockInv t
  cfg : t.cfg = s.cfg
  active : c ∈ t.chActive
  machine : ∃ x p, t.ch[c]? = some x ∧ x.txPin = r.txPin ∧ p.ordinal = (f + 1) % 12 ∧
    x.tx = { pos := p, q := q, scr := m } ∧ t.level r.txPin = (frameDrive m p).or (s.level r.txPin)

variable {s t : State} {c : Nat} {r : Channel} {m : Message}

/-- The TICK that pops the message. -/
theorem sending_start (h : BlockInv s) (hc : c ∈ s.chActive) (hr : s.ch[c]? = some r) (hp : r.tx.pos = .idle) {n : Nat}
    {pend : List Nat} (hq : r.txPend = n :: pend) (hm : r.txPay[n]? = some m) :
    ∃ t, exec .tick s = .next t ∧ Sending s c r m 0 0 t := by
  obtain ⟨t, r1, r2, d, he, ht, hframe, -, hrx, hok, htx, htxf, -, hr2, hpin⟩ := tick_channel h hc hr
  obtain ⟨m', hm', -, hpop⟩ := txStep_pop (cfg := s.cfg) (hrx.tx ▸ hp) (hrx.txPend.trans hq) hok.arenas hok.pools
  obtain rfl : m = m' := Option.some.inj (by rw [← hm, ← hm', hrx.txPay])
  obtain ⟨hmach, hdrive⟩ := txStart_enters { r1 with txPend := pend, txFree := r1.txFree ++ [n] } m
  have hres := Except.ok.inj (htx.symm.trans hpop)
  rw [← hres] at hmach hdrive
  refine ⟨t, he, ht, by rw [hframe], by rw [hframe]; exact hc, r2, .start, hr2, htxf.txPin.trans hrx.txPin, rfl, hmach, ?_⟩
  rw [hpin, ← hdrive]

/-- Of the busy states only Stop has Idle as its successor. -/
theorem BitPos.eq_stop_of_succ_idle {p : BitPos} (hp : p ≠ .idle) (hs : p.succ = .idle) : p = .stop := by
  have hpos : 1 ≤ p.ordinal := Nat.one_le_iff_ne_zero.mpr (mt BitPos.ordinal_eq_zero.mp hp)
  have hle := p.ordinal_le
  have hsucc : 0 = (p.ordinal + 1) % 12 := by rw [← BitPos.ordinal_succ hpos, hs]; rfl
  exact BitPos.ordinal_injective (show p.ordinal = 11 by omega)

/-- What entry to the successor writes puts the level of the frame there on the pin. -/
theorem frameDrive_enter {p : BitPos} (hp : p ≠ .idle) (m : Message) (base : Option Bool) :
    (if p.succ ≠ .idle ∧ m.isBlank = false then some (frameLevel m p.succ) else none).or ((frameDrive m p).or base) =
      (frameDrive m p.succ).or base := by
  cases hb : m.isBlank with
  | true => simp [frameDrive_blank hb]
  | false =>
    by_cases hs : p.succ = .idle
    · obtain rfl := BitPos.eq_stop_of_succ_idle hp hs
      rw [frameDrive_stop]
      rfl
    · simp [hs, frameDrive_plain hb]

/-- A TICK between the pop and the return to Idle. -/
theorem Sending.tick {f q : Nat} (h : Sending s c r m f q t) (hf : f ≤ 10) (hq : q < s.cfg.T) :
    ∃ t' f' q', exec .tick t = .next t' ∧ f' * s.cfg.T + q' = f * s.cfg.T + q + 1 ∧ q' < s.cfg.T ∧
      Sending s c r m f' q' t' := by
  obtain ⟨hinv, hcfg, hact, x, p, hx, hxpin, hord, hmach, hlevel⟩ := h
  rw [Nat.mod_eq_of_lt (by omega)] at hord
  have hbusy : p ≠ .idle := fun hp => by rw [hp] at hord; cases hord
  obtain ⟨t', r1, r2, d, he, ht', hframe, -, hrx, -, htx, htxf, -, hr2, hpin⟩ := tick_channel hinv hact hx
  have htx1 : r1.tx = { pos := p, q := q, scr := m } := hrx.tx.trans hmach
  rw [txStep_busy (by rw [htx1]; exact hbusy), hcfg] at htx
  have hcfg' : t'.cfg = s.cfg := by rw [hframe]; exact hcfg
  have hact' : c ∈ t'.chActive := by rw [hframe]; exact hact
  have hpin' : r2.txPin = r.txPin := (htxf.txPin.trans hrx.txPin).trans hxpin
  rw [hxpin, hlevel] at hpin
  by_cases hend : q + 1 = s.cfg.T
  · rw [txBusy_enter (by rw [htx1]; exact hend), htx1] at htx
    obtain ⟨rfl, rfl⟩ := Prod.mk.inj (Except.ok.inj htx)
    have hnext : p.succ.ordinal = (f + 1 + 1) % 12 := by rw [BitPos.ordinal_succ (by omega), hord]
    refine ⟨t', f + 1, 0, he, by rw [Nat.succ_mul]; omega, by omega, ht', hcfg', hact', _, p.succ, hr2, hpin', hnext,
      rfl, hpin.trans (frameDrive_enter hbusy m _)⟩
  · rw [txBusy_inside (by rw [htx1]; exact hend), htx1] at htx
    obtain ⟨rfl, rfl⟩ := Prod.mk.inj (Except.ok.inj htx)
    have hsame : p.ordinal = (f + 1) % 12 := by rw [Nat.mod_eq_of_lt (by omega), hord]
    exact ⟨t', f, q + 1, he, by omega, by omega, ht', hcfg', hact', _, p, hr2, hpin', hsame, rfl, hpin⟩

/-! ### The whole frame -/

/-- Tick `j` of the frame, counted from the one that pops the message. -/
theorem sending_run (h : BlockInv s) (hc : c ∈ s.chActive) (hr : s.ch[c]? = some r) (hp : r.tx.pos = .idle) {n : Nat}
    {pend : List Nat} (hq : r.txPend = n :: pend) (hm : r.txPay[n]? = some m) :
    ∀ j ≤ 11 * s.cfg.T, ∃ t f q, tickTimes (j + 1) s = .next t ∧ f * s.cfg.T + q = j ∧ q < s.cfg.T ∧
      Sending s c r m f q t := by
  intro j
  induction j with
  | zero =>
    intro _
    obtain ⟨t, he, hsend⟩ := sending_start h hc hr hp hq hm
    exact ⟨t, 0, 0, tickTimes_next he, by omega, h.tickPos, hsend⟩
  | succ j ih =>
    intro hj
    obtain ⟨t, f, q, hrun, hfq, hlt, hsend⟩ := ih (by omega)
    have hf : f ≤ 10 := by
      have hmul : f * s.cfg.T < 11 * s.cfg.T := by omega
      have := Nat.lt_of_mul_lt_mul_right hmul
      omega
    obtain ⟨t', f', q', he, hfq', hlt', hsend'⟩ := hsend.tick hf hlt
    exact ⟨t', f', q', (tickTimes_succ hrun).trans he, by omega, hlt', hsend'⟩

/-- Which frame bit tick `j` is in, and whether it is the return to Idle. -/
theorem frameBit_of_tick {T f q j : Nat} (hfq : f * T + q = j) (hq : q < T) (hj : j ≤ 11 * T) :
    f = j / T ∧ f ≤ 11 ∧ (f = 11 ↔ j = 11 * T) := by
  have hdiv : j / T = f := by
    rw [← hfq, Nat.add_comm, Nat.add_mul_div_right _ _ (by omega), Nat.div_eq_of_lt hq, Nat.zero_add]
  refine ⟨hdiv.symm, ?_, ?_, ?_⟩
  · rw [← hdiv]
    exact Nat.div_le_of_le_mul (by rw [Nat.mul_comm]; exact hj)
  · rintro rfl
    omega
  · rintro rfl
    rw [← hdiv, Nat.mul_div_cancel _ (by omega)]

/-- Settles O48: tick j of the frame is in frame bit j / T, and frame bit 11 is Idle with the stop level. -/
theorem txFrameHoldsEachBitForTTicks : Obligations.TxFrameHoldsEachBitForTTicks := by
  intro s c n r pend m h hc hr hp hq hm hb
  refine ⟨fun j hj => ?_, ?_⟩
  · obtain ⟨t, f, q, hrun, hfq, hlt, hsend⟩ := sending_run h hc hr hp hq hm j hj.le
    obtain ⟨rfl, hle, hend⟩ := frameBit_of_tick hfq hlt hj.le
    obtain ⟨x, p, -, -, hord, -, hlevel⟩ := hsend.machine
    rw [Nat.mod_eq_of_lt (by omega)] at hord
    refine ⟨t, p, hrun, ?_, by rw [hlevel, frameDrive_plain hb]; rfl⟩
    rw [framePos, ← hord, BitPos.ofOrdinal_ordinal]
  · obtain ⟨t, f, q, hrun, hfq, hlt, hsend⟩ := sending_run h hc hr hp hq hm _ le_rfl
    obtain rfl : f = 11 := (frameBit_of_tick hfq hlt le_rfl).2.2.mpr rfl
    obtain ⟨x, p, hx, -, hord, hmach, hlevel⟩ := hsend.machine
    obtain rfl : p = .idle := BitPos.ordinal_eq_zero.mp hord
    exact ⟨t, x, hrun, hx, by rw [hmach], by rw [hlevel, frameDrive_plain hb]; rfl⟩

/-- Settles O49: a blank frame drives nothing at any tick, and is Idle at frame bit 11 only. -/
theorem blankFrameWritesNothing : Obligations.BlankFrameWritesNothing := by
  intro s c n r pend m h hc hr hp hq hm hb j hj
  obtain ⟨t, f, q, hrun, hfq, hlt, hsend⟩ := sending_run h hc hr hp hq hm j hj
  obtain ⟨-, hle, hend⟩ := frameBit_of_tick hfq hlt hj
  obtain ⟨x, p, hx, -, hord, hmach, hlevel⟩ := hsend.machine
  refine ⟨t, x, hrun, hx, by rw [hlevel, frameDrive_blank hb, Option.none_or], ?_⟩
  calc x.tx.pos = .idle ↔ p.ordinal = 0 := by rw [hmach, BitPos.ordinal_eq_zero]
    _ ↔ f = 11 := by omega
    _ ↔ j = 11 * s.cfg.T := hend

end Sys2Proof.Machine
end

section
/-! The rules of the host commands (spec/42_host_commands.md R172 to R179), each with its response word and the exact next
state. Between events a name finds the one active channel that has it, so the cases of a rule are those of the lookup. -/

namespace Sys2Proof.Machine

/-! ### Response words in the list -/

/-- An event that answers by one response word without data. -/
theorem answers {o : Host.Outcome State Fault Refusal} {s : State} {code : ResultCode} {w : Word}
    (h : o = .next (s.respond code 0)) (hw : responseWord code 0 = w) :
    o = .next { s with responses := s.responses ++ [w] } := by rw [h, State.respond, hw]

/-- The low byte of a response word is its code (spec/30_encoding.md R87). -/
theorem responseWord_eq (code : ResultCode) (data : Byte) :
    responseWord code data = (0#16) ++ data ++ ((0#4) ++ code.bits) := by
  refine BitVec.eq_of_getLsbD_eq fun k _ => ?_
  simp only [responseWord, BitVec.getLsbD_append]
  grind

/-- The response word that delivers a message (spec/42_host_commands.md R175). -/
theorem responseWord_classify (m : Message) :
    responseWord (classify m) m.data = (0#16) ++ m.data ++ (if m.stopViolation = true then 0x08#8
      else if parity8 m.data ≠ m.parity then 0x07#8 else 0x00#8) := by
  rw [responseWord_eq, classify]
  split
  · rfl
  · split <;> rfl

/-- What the invariant says of an active channel that its own name finds (spec/42_host_commands.md R171). -/
theorem BlockInv.known {s : State} (h : BlockInv s) {k : Nat} {r : Channel} (hk : k ∈ s.chActive)
    (hr : s.ch[k]? = some r) : s.initialized = true ∧ s.lookup r.name = some (k, r) ∧ ChannelOk s.cfg r :=
  ⟨h.initialized_of_active hk, lookup_known h hk hr, h.channelOk hk hr⟩

/-! ### INIT -/

/-- Settles O17: the first INIT links the pools, and every INIT answers Ok. -/
theorem initFollowsItsRule : Obligations.InitFollowsItsRule :=
  fun s => ⟨fun hi => answers (s := s.initAll) (execInit_first hi) responseWord_ok,
    fun hi => answers (execInit_again hi) responseWord_ok⟩

/-! ### ADD -/

/-- Settles O18: the pins come first, then the four rejections, and the new channel is `addedChannel` in the head slot. -/
theorem addFollowsItsRule : Obligations.AddFollowsItsRule := by
  intro s name txPin rxPin h
  refine ⟨fun hp => execAdd_illegal hp name, fun ht hx => ⟨fun hi => ?_, fun hi hf => ?_, fun hi hf hname => ?_,
    fun hi hf hname hpin => ?_, fun c free old hi hf hold hname hpin => ?_⟩⟩
  · exact answers (execAdd_uninit ht hx hi) responseWord_notInitialized
  · exact answers (execAdd_full ht hx hi hf) responseWord_bufferFull
  · obtain ⟨c, free, hf⟩ := List.exists_cons_of_ne_nil hf
    exact answers (execAdd_nameUsed ht hx hi hf hname) responseWord_nameAlreadyUsed
  · obtain ⟨c, free, hf⟩ := List.exists_cons_of_ne_nil hf
    exact answers (execAdd_txPinUsed ht hx hi hf (by simpa using hname) hpin) responseWord_txPinAlreadyUsed
  · obtain ⟨old', hold', he⟩ := execAdd_ok h hf ht hx hname hpin
    obtain rfl : old = old' := Option.some.inj (hold.symm.trans hold')
    exact answers (s := s.joined c free _) he responseWord_ok

/-! ### SEND -/

/-- Settles O19: the rejections in their order, and a message that goes to the head free slot. -/
theorem sendFollowsItsRule : Obligations.SendFollowsItsRule := by
  refine fun s name data c b h => ⟨fun hi => ?_, fun hi hn => ?_, fun k r hk hr hname => ?_⟩
  · exact answers (execSend_uninit hi name data c b) responseWord_notInitialized
  · exact answers (execSend_unknown hi (lookup_unknown h hn) data c b) responseWord_unknownName
  · subst hname
    obtain ⟨hi, hl, hok⟩ := h.known hk hr
    refine ⟨fun hf => ?_, fun n free hf => ?_⟩
    · exact answers (execSend_full hi hl hf data c b) responseWord_bufferFull
    · exact answers (s := s.setSlot k _) (execSend_room hi hl hf hok.arenas hok.pools data c b) responseWord_ok

/-- Settles O20: a partition has TXD nodes, and SEND answers BufferFull exactly when none of them is free. -/
theorem sendSucceedsIffASlotIsFree : Obligations.SendSucceedsIffASlotIsFree := by
  intro s k r data c b h hk hr
  refine ⟨partition_length (h.channelOk hk hr).pools.1, ?_⟩
  obtain ⟨-, -, hknown⟩ := sendFollowsItsRule s r.name data c b h
  obtain ⟨hfull, hroom⟩ := hknown k r hk hr rfl
  refine ⟨?_, fun hf => ?_⟩
  · rintro ⟨t, he, hres⟩ hf
    rw [hfull hf] at he
    cases he
    simp at hres
  · obtain ⟨n, free, hf⟩ := List.exists_cons_of_ne_nil hf
    exact ⟨_, hroom n free hf, rfl⟩

/-! ### RECV and RECVB -/

/-- Settles O21: RECV returns the code and the data that `receive` finds. -/
theorem recvFollowsItsRule : Obligations.RecvFollowsItsRule := by
  refine fun s name h => ⟨fun hi => ?_, fun hi hn => ?_, fun k r hk hr hname => ?_⟩
  · exact answers (execRecv_of (receive_uninit hi name)) responseWord_notInitialized
  · exact answers (execRecv_of (receive_unknown hi (lookup_unknown h hn))) responseWord_unknownName
  · subst hname
    obtain ⟨hi, hl, hok⟩ := h.known hk hr
    refine ⟨fun hq => ?_, fun n pend hq => ?_⟩
    · exact answers (execRecv_of (receive_empty hi hl hq)) responseWord_bufferEmpty
    · obtain ⟨m, hm, -, he⟩ := receive_head hi hl hq hok.arenas hok.pools
      refine ⟨m, hm, (execRecv_of he).trans ?_⟩
      rw [State.respond, responseWord_classify]
      rfl

/-- Settles O22: RECVB holds where `receive` finds BufferEmpty, and else answers as RECV does. -/
theorem recvbFollowsItsRule : Obligations.RecvbFollowsItsRule := by
  refine fun s name h => ⟨fun hi => ?_, fun hi hn => ?_, fun k r hk hr hname => ?_⟩
  · exact answers (s := { s with outstanding := none }) (execRecvb_complete (receive_uninit hi name) (by decide))
      responseWord_notInitialized
  · exact answers (s := { s with outstanding := none })
      (execRecvb_complete (receive_unknown hi (lookup_unknown h hn)) (by decide)) responseWord_unknownName
  · subst hname
    obtain ⟨hi, hl, hok⟩ := h.known hk hr
    refine ⟨fun hq => ?_, fun n pend hq => ?_⟩
    · exact execRecvb_hold (receive_empty hi hl hq)
    · obtain ⟨m, hm, -, he⟩ := receive_head hi hl hq hok.arenas hok.pools
      refine ⟨m, hm, (execRecvb_complete he (classify_ne_bufferEmpty m)).trans ?_⟩
      rw [State.respond, responseWord_classify]
      rfl

/-! ### CLRTX and CLRRX -/

/-- Settles O23: an unknown name is rejected, and a known one has its TX pools merged. -/
theorem clrtxFollowsItsRule : Obligations.ClrtxFollowsItsRule := by
  refine fun s name h => ⟨fun hn => ?_, fun k r hk hr hname => ?_⟩
  · exact answers (execClrtx_unknown (lookup_unknown h hn)) responseWord_unknownName
  · subst hname
    exact answers (s := s.setSlot k _) (execClrtx_known (lookup_known h hk hr)) responseWord_ok

/-- Settles O24: an unknown name is rejected, and a known one has its RX pools merged and the drop mark set. -/
theorem clrrxFollowsItsRule : Obligations.ClrrxFollowsItsRule := by
  refine fun s name h => ⟨fun hn => ?_, fun k r hk hr hname => ?_⟩
  · exact answers (execClrrx_unknown (lookup_unknown h hn)) responseWord_unknownName
  · subst hname
    exact answers (s := s.setSlot k _) (execClrrx_known (lookup_known h hk hr)) responseWord_ok

end Sys2Proof.Machine
end

section
/-! The step while a RECVB is outstanding (spec/42_host_commands.md R176). What is pending on its channel and the schedule
decide between the command and the environment, and of the environment's two events only TICK writes a record. -/

namespace Sys2Proof.Machine

/-! ### The environment's next word -/

section Environment

variable {u : State}

theorem fetchEnvironment_word {pre post : List Word} {w : Word} (he : u.events = pre ++ w :: post)
    (hp : ∀ x ∈ pre, isHostWord x = true) (hw : isHostWord w = false) :
    fetchEnvironment u = issueWord w { u with events := pre ++ post } := by
  rw [fetchEnvironment, he, takeEnvironment_append hp hw]

theorem fetchEnvironment_rest (h : ∀ x ∈ u.events, isHostWord x = true) : fetchEnvironment u = .rest u := by
  rw [fetchEnvironment, takeEnvironment_none h]

variable {s : State} (hf : fetch s = fetchEnvironment u)

include hf

/-- When the environment goes on, its first word happens or is refused, and without one the step rests. -/
theorem step_environment :
    (∀ pre w post, u.events = pre ++ w :: post → (∀ x ∈ pre, isHostWord x = true) →
      (∀ i, decode w = .ok i → i.agent ≠ .host → step s = exec i { u with events := pre ++ post }) ∧
      (∀ e, decode w = .error e → step s = .refused (.illegalWord e))) ∧
    ((∀ x ∈ u.events, isHostWord x = true) → step s = .next u) := by
  refine ⟨fun pre w post he hp => ⟨fun i hd hi => ?_, fun e hd => ?_⟩, fun hhost => ?_⟩
  · have hw : isHostWord w = false := by simp [isHostWord_ok hd, hi]
    simp only [step, hf, fetchEnvironment_word he hp hw, issueWord, hd]
  · simp only [step, hf, fetchEnvironment_word he hp (isHostWord_error hd), issueWord, hd]
  · simp only [step, hf, fetchEnvironment_rest hhost]

/-- What a step that answers has done when the environment goes on: nothing, or the first word that is not a host
command. -/
theorem step_environment_inv {t : State} (hs : step s = .next t) :
    t = u ∨ ∃ w rest i, takeEnvironment u.events = some (w, rest) ∧ decode w = .ok i ∧ i.agent ≠ .host ∧
      exec i { u with events := rest } = .next t := by
  cases he : takeEnvironment u.events with
  | none =>
    simp only [step, hf, fetchEnvironment, he] at hs
    cases hs
    exact .inl rfl
  | some p =>
    obtain ⟨w, rest⟩ := p
    cases hd : decode w with
    | error e =>
      simp only [step, hf, fetchEnvironment, he, issueWord, hd] at hs
      cases hs
    | ok i =>
      simp only [step, hf, fetchEnvironment, he, issueWord, hd] at hs
      obtain ⟨hw, -⟩ := takeEnvironment_some he
      exact .inr ⟨w, rest, i, rfl, hd, by simpa [isHostWord_ok hd] using hw, hs⟩

end Environment

/-! ### The command or the environment -/

/-- Settles O8: readiness is what is pending, and the step of each case is that of `fetchWaiting`. -/
theorem waitingHostLetsOtherEventsHappen : Obligations.WaitingHostLetsOtherEventsHappen := by
  intro s name k r h ho hk hr hname
  have hready : recvReady name s = true ↔ r.rxPend ≠ [] := recvReady_iff h (hname ▸ lookup_known h hk hr)
  refine ⟨fun u hu => ?_, fun hq hturn => ?_⟩
  · have hfetch : fetch s = fetchEnvironment u ∧ u.events = s.events := by
      rcases hu with ⟨hq, rfl⟩ | ⟨hq, turns, hturns, rfl⟩
      · exact ⟨fetch_waiting_holds h.config ho (by simpa [hq] using hready), rfl⟩
      · have hnot : s.hostScheduled = false := by rw [State.hostScheduled, hturns]; rfl
        exact ⟨by rw [fetch_waiting_spends h.config ho (hready.mpr hq) hnot, hturns]; rfl, rfl⟩
    obtain ⟨hf, hevents⟩ := hfetch
    simpa only [hevents, isHostWord_iff] using step_environment hf
  · have hnow : s.hostScheduled = true := by
      rw [State.hostScheduled]
      cases hturns : s.hostTurns with
      | nil => rfl
      | cons b turns => simpa [hturns] using hturn
    exact step_waiting_performs h.config ho (hready.mpr hq) hnow

/-! ### What lifts the hold -/

/-- Whether a RECVB is ready is told by the records and the Registry alone. -/
theorem recvReady_congr {s t : State} (h : BlockInv s) (ht : BlockInv t) (hch : t.ch = s.ch)
    (hactive : t.chActive = s.chActive) {name : Byte} (hf : (s.find name).isSome = true) :
    recvReady name t = recvReady name s := by
  have hl : t.lookup name = s.lookup name := by
    have hfind : t.find name = s.find name := by
      unfold State.find State.hasName
      rw [hch, hactive]
    unfold State.lookup
    rw [hfind, hch]
  cases hs : s.lookup name with
  | none => simp [(lookup_none_iff h).mp hs] at hf
  | some p =>
    obtain ⟨k, r⟩ := p
    rw [Bool.eq_iff_iff, recvReady_iff h hs, recvReady_iff ht (hl.trans hs)]

/-- Settles O9: a rest and a LINE leave the records alone, so only a TICK can make the command ready. -/
theorem onlyTickLiftsTheHold : Obligations.OnlyTickLiftsTheHold := by
  intro s t name h ho hready hs
  obtain ⟨-, hfind⟩ := h.waiting name ho
  rcases step_environment_inv (fetch_waiting_holds h.config ho hready) hs with rfl | ⟨w, rest, i, htake, hd, hi, he⟩
  · exact ⟨ho, rfl, fun hr => by rw [hready] at hr; cases hr⟩
  · have hu : BlockInv { s with events := rest } := inv_port h rest s.hostTurns
    have ht := exec_keeps_inv hu he
    have hres := exec_environment_silent hi he
    cases i with
    | tick => exact ⟨by rw [execTick_frame he]; exact ho, hres, fun _ => ⟨w, rest, htake, hd⟩⟩
    | line pin v =>
      have hframe := execLine_frame he
      refine ⟨by rw [hframe]; exact ho, hres, fun hr => ?_⟩
      have hsame := recvReady_congr h ht (by rw [hframe]) (by rw [hframe]) hfind
      rw [hsame, hready] at hr
      cases hr
    | init | add | send | recv | recvb | clrtx | clrrx => exact absurd rfl hi

end Sys2Proof.Machine
end

section
/-! A command that fails changes nothing (spec/42_host_commands.md R170): a host command that answers has done its effect,
and says so by a code of success, or has written nothing but the host port. -/

namespace Sys2Proof.Machine

/-! ### Codes of success -/

/-- The codes of a command that has had its effect: Ok, and the two that deliver a corrupted message. -/
def ResultCode.Success (code : ResultCode) : Prop := code = .ok ∨ code = .parityError ∨ code = .stopViolation

/-- The code of a number (spec/30_encoding.md R84). -/
def ResultCode.ofBits (n : BitVec 4) : Option ResultCode :=
  [.ok, .notInitialized, .unknownName, .nameAlreadyUsed, .txPinAlreadyUsed, .bufferFull, .bufferEmpty, .parityError,
    .stopViolation][n.toNat]?

theorem ResultCode.ofBits_bits (code : ResultCode) : ResultCode.ofBits code.bits = some code := by
  cases code <;> rfl

/-- A response word tells its code. -/
theorem code_eq_of_responseWord_eq {code code' : ResultCode} {data data' : Byte}
    (h : responseWord code data = responseWord code' data') : code = code' := by
  have hbits : code.bits = code'.bits := by
    rw [← (responseWord_fields code data).1, h, (responseWord_fields code' data').1]
  exact Option.some.inj (by rw [← code.ofBits_bits, ← code'.ofBits_bits, hbits])

/-! ### What a host command that answers has done -/

/-- The event `i` has reported success between `s` and `t`, or has written nothing but the host port: one response, or for
RECVB the marker of the hold too. -/
def SucceedsOrFails (i : Instr) (s t : State) : Prop :=
  (∃ code data, code.Success ∧ t.responses = s.responses ++ [responseWord code data]) ∨
  (∃ code, t = s.respond code 0) ∨
  (∃ name, i = .recvb name ∧ t = { s with responses := t.responses, outstanding := t.outstanding })

section Events

variable {s t : State}

/-- A command that answers Ok succeeds, whatever it wrote. -/
theorem respond_ok_succeeds (i : Instr) {u : State} (hu : u.responses = s.responses) :
    SucceedsOrFails i s (u.respond .ok 0) :=
  .inl ⟨.ok, 0, .inl rfl, by simp [hu]⟩

theorem respond_fails (i : Instr) (code : ResultCode) : SucceedsOrFails i s (s.respond code 0) :=
  .inr (.inl ⟨code, rfl⟩)

theorem execInit_succeedsOrFails (he : execInit s = .next t) : SucceedsOrFails .init s t := by
  cases hi : s.initialized with
  | false =>
    rw [execInit_first hi] at he
    cases he
    exact respond_ok_succeeds _ (initAll_responses s)
  | true =>
    rw [execInit_again hi] at he
    cases he
    exact respond_fails _ _

theorem execAdd_succeedsOrFails {name txPin rxPin : Byte} (he : execAdd name txPin rxPin s = .next t) :
    SucceedsOrFails (.add name txPin rxPin) s t := by
  rcases execAdd_inv he with ⟨code, -, rfl⟩ | ⟨_, _, u, -, -, ha, rfl⟩
  · exact respond_fails _ code
  · exact respond_ok_succeeds _ (addChannel_frame ha).1

theorem execSend_succeedsOrFails {name data : Byte} {c b : Bool} (he : execSend name data c b s = .next t) :
    SucceedsOrFails (.send name data c b) s t := by
  rcases execSend_inv he with ⟨code, -, rfl⟩ | ⟨k, _, r', -, -, -, rfl⟩
  · exact respond_fails _ code
  · exact respond_ok_succeeds _ (setSlot_responses s k r')

theorem execRecv_succeedsOrFails {name : Byte} (he : execRecv name s = .next t) :
    SucceedsOrFails (.recv name) s t := by
  obtain ⟨code, data, u, hu, rfl⟩ := execRecv_inv he
  rcases receive_inv hu with ⟨rfl, rfl, -⟩ | ⟨_, _, _, m, -, rfl, rfl, -, -, rfl⟩
  · exact respond_fails _ code
  · exact .inl ⟨classify m, m.data, classify_delivers m, rfl⟩

theorem execRecvb_succeedsOrFails {name : Byte} (he : execRecvb name s = .next t) :
    SucceedsOrFails (.recvb name) s t := by
  obtain ⟨code, data, u, hu, rfl⟩ := execRecvb_inv he
  split
  · exact .inr (.inr ⟨name, rfl, rfl⟩)
  · rcases receive_inv hu with ⟨rfl, rfl, -⟩ | ⟨_, _, _, m, -, rfl, rfl, -, -, rfl⟩
    · exact .inr (.inr ⟨name, rfl, rfl⟩)
    · exact .inl ⟨classify m, m.data, classify_delivers m, rfl⟩

theorem execClrtx_succeedsOrFails {name : Byte} (he : execClrtx name s = .next t) :
    SucceedsOrFails (.clrtx name) s t := by
  cases hl : s.lookup name with
  | none =>
    rw [execClrtx_unknown hl] at he
    cases he
    exact respond_fails _ _
  | some p =>
    rw [execClrtx_known hl] at he
    cases he
    exact respond_ok_succeeds _ (setSlot_responses ..)

theorem execClrrx_succeedsOrFails {name : Byte} (he : execClrrx name s = .next t) :
    SucceedsOrFails (.clrrx name) s t := by
  cases hl : s.lookup name with
  | none =>
    rw [execClrrx_unknown hl] at he
    cases he
    exact respond_fails _ _
  | some p =>
    rw [execClrrx_known hl] at he
    cases he
    exact respond_ok_succeeds _ (setSlot_responses ..)

theorem exec_host_succeedsOrFails {i : Instr} (hi : i.agent = .host) (he : exec i s = .next t) :
    SucceedsOrFails i s t := by
  cases i with
  | tick => cases hi
  | line pin v => cases hi
  | init => exact execInit_succeedsOrFails he
  | add name txPin rxPin => exact execAdd_succeedsOrFails he
  | send name data c b => exact execSend_succeedsOrFails he
  | recv name => exact execRecv_succeedsOrFails he
  | recvb name => exact execRecvb_succeedsOrFails he
  | clrtx name => exact execClrtx_succeedsOrFails he
  | clrrx name => exact execClrrx_succeedsOrFails he

end Events

/-- Settles O27: the response of a command that has had its effect has a code of success, and TICK and LINE give none. -/
theorem failedCommandsChangeNothing : Obligations.FailedCommandsChangeNothing := by
  intro i s t code he hres hok hparity hstop
  have hhost : i.agent = .host := by
    by_contra hi
    rw [exec_environment_silent hi he] at hres
    simp at hres
  rcases exec_host_succeedsOrFails hhost he with ⟨code', data, hsuccess, hres'⟩ | ⟨code', rfl⟩ | ⟨name, rfl, ht⟩
  · obtain rfl : code' = code := by
      rw [hres] at hres'
      simp only [List.append_cancel_left_eq, List.cons.injEq, and_true] at hres'
      exact (code_eq_of_responseWord_eq hres').symm
    rcases hsuccess with rfl | rfl | rfl
    · exact absurd rfl hok
    · exact absurd rfl hparity
    · exact absurd rfl hstop
  · exact ⟨rfl, fun _ => rfl⟩
  · exact ⟨ht, fun hne => absurd rfl (hne name)⟩

end Sys2Proof.Machine
end

section
/-! Parity against corruption (spec/42_host_commands.md R175, spec/30_encoding.md R83). -/

namespace Sys2Proof.Machine

/-- The places where two rows of bits differ are odd in number exactly when their ones together are. -/
theorem countP_bne_mod_two {α : Type} (p q : α → Bool) (xs : List α) :
    (xs.countP fun x => p x != q x) % 2 = (xs.countP p + xs.countP q) % 2 := by
  induction xs with
  | nil => rfl
  | cons x xs ih =>
    simp only [List.countP_cons]
    cases p x <;> cases q x <;> simp <;> omega

/-- The number of corrupted data bits is odd exactly when the two parities differ. -/
theorem corrupted_mod_two (a b : Byte) :
    ((List.range 8).countP fun k => a.getLsbD k != b.getLsbD k) % 2 = (parity8 a ^^ parity8 b).toNat := by
  have ha := parityIsTheLowBitOfTheCount a
  have hb := parityIsTheLowBitOfTheCount b
  rw [countP_bne_mod_two, Nat.add_mod, ← ha, ← hb]
  cases parity8 a <;> cases parity8 b <;> rfl

theorem classify_eq_parityError_iff {m : Message} (hs : m.stopViolation = false) :
    classify m = .parityError ↔ parity8 m.data ≠ m.parity := by
  simp [classify, hs]

theorem classify_eq_ok_iff {m : Message} (hs : m.stopViolation = false) :
    classify m = .ok ↔ parity8 m.data = m.parity := by
  simp [classify, hs]

/-- Settles O52: nine bits are corrupted oddly exactly when the parity received is not that of the data received. -/
theorem parityCatchesOddCorruption : Obligations.ParityCatchesOddCorruption := by
  intro sent m hs
  rw [classify_eq_parityError_iff hs, classify_eq_ok_iff hs, Nat.add_mod, corrupted_mod_two]
  cases parity8 sent <;> cases parity8 m.data <;> cases m.parity <;> decide

end Sys2Proof.Machine
end

section
/-! A byte from SEND to RECV (spec/42_host_commands.md R181). A listening channel's receive machine runs on the levels that
its pin has at the starts of the TICKs; the frame that TX puts on the pin is such a run, and its samples are the message. -/

namespace Sys2Proof.Machine

/-! ### A record with another TX side -/

/-- The record with another TX machine and TX queue; the receive side stays. -/
def Channel.withTx (r : Channel) (tx : BitMachine) (free pend : List Nat) (pay : List Message) : Channel :=
  { r with tx := tx, txFree := free, txPend := pend, txPay := pay }

section WithTx

variable (r : Channel) (tx : BitMachine) (free pend : List Nat) (pay : List Message)

theorem enqueueRx_withTx (m : Message) :
    (r.withTx tx free pend pay).enqueueRx m = (r.enqueueRx m).map (·.withTx tx free pend pay) := by
  cases hf : r.rxFree with
  | nil => rw [enqueueRx_full hf, enqueueRx_full (r := r.withTx tx free pend pay) hf, map_ok]
  | cons n rest =>
    simp only [Channel.enqueueRx, Channel.withTx, hf, popFront_cons]
    cases memWrite r.rxPay n m with
    | error e => rfl
    | ok rxPay => cases pushBack (rest ++ r.rxPend) r.rxPend n <;> rfl

theorem rxComplete_withTx :
    rxComplete (r.withTx tx free pend pay) = (rxComplete r).map (·.withTx tx free pend pay) := by
  cases hd : r.rxDrop with
  | false =>
    rw [rxComplete, rxComplete, if_pos hd, if_pos (by exact hd)]
    exact enqueueRx_withTx r tx free pend pay r.rx.scr
  | true => rw [rxComplete_drop hd, rxComplete_drop (r := r.withTx tx free pend pay) hd]; rfl

theorem rxBusy_withTx (T : Nat) :
    rxBusy T (r.withTx tx free pend pay) = (rxBusy T r).map (·.withTx tx free pend pay) := by
  unfold rxBusy
  by_cases hstop : r.rx.pos = .stop ∧ (advance T r.rx).1.pos = .idle
  · rw [if_pos (by exact hstop), if_pos hstop]
    exact rxComplete_withTx { r with rx := (advance T r.rx).1 } tx free pend pay
  · rw [if_neg (by exact hstop), if_neg hstop]
    rfl

theorem rxIdle_withTx (v : Bool) : rxIdle (r.withTx tx free pend pay) v = (rxIdle r v).withTx tx free pend pay := by
  unfold rxIdle
  by_cases hedge : r.last = true ∧ v = false
  · rw [if_pos (by exact hedge), if_pos hedge]
    rfl
  · rw [if_neg (by exact hedge), if_neg hedge]

/-- RxStep neither reads nor writes the TX side. -/
theorem rxStepWith_withTx (cfg : Config) (v : Bool) :
    rxStepWith cfg (r.withTx tx free pend pay) v = (rxStepWith cfg r v).map (·.withTx tx free pend pay) := by
  by_cases hp : r.rx.pos = .idle
  · rw [rxStepWith_idle hp, rxStepWith_idle (r := r.withTx tx free pend pay) hp, rxIdle_withTx]
    rfl
  · rw [rxStepWith_notIdle hp, rxStepWith_notIdle (r := r.withTx tx free pend pay) hp, rxBusy_withTx]
    cases rxBusy cfg.T r <;> rfl

theorem rxRun_withTx (cfg : Config) (vs : List Bool) :
    rxRun cfg vs (r.withTx tx free pend pay) = (rxRun cfg vs r).map (·.withTx tx free pend pay) := by
  induction vs generalizing r with
  | nil => rfl
  | cons v vs ih =>
    unfold rxRun
    rw [rxStepWith_withTx]
    cases rxStepWith cfg r v with
    | error e => rfl
    | ok u => exact ih u

end WithTx

/-! ### A channel that listens -/

/-- None of the messages that wait to be sent clears the receive side (spec/41_tick_dispatcher.md R148). -/
def Channel.KeepsRx (r : Channel) : Prop := ∀ m ∈ r.txQueue, m.clearsRx = false

/-- TxStep of a channel with no clearing message in its queue leaves the receive side alone. -/
theorem txStep_keepsRx {cfg : Config} {r r' : Channel} {d : Option Bool} (h : ChannelOk cfg r) (hk : r.KeepsRx)
    (he : txStep cfg r = .ok (r', d)) :
    r'.KeepsRx ∧ ∃ tx free pend, r' = r.withTx tx free pend r.txPay := by
  by_cases hp : r.tx.pos = .idle
  · cases hq : r.txPend with
    | nil =>
      rw [txStep_idle hp hq] at he
      cases he
      exact ⟨hk, r.tx, r.txFree, r.txPend, rfl⟩
    | cons n pend =>
      obtain ⟨m, -, hqueue, hpop⟩ := txStep_pop hp hq h.arenas h.pools
      rw [Channel.KeepsRx, hqueue, List.forall_mem_cons] at hk
      obtain ⟨hm, hrest⟩ := hk
      rw [txStart_keeps hm] at hpop
      obtain ⟨rfl, -⟩ := Prod.mk.inj (Except.ok.inj (hpop.symm.trans he))
      exact ⟨hrest, _, _, _, rfl⟩
  · rw [txStep_busy hp] at he
    cases he
    exact ⟨hk, _, _, _, rfl⟩

/-- `vs` are the levels of a pin at the starts of consecutive TICKs from `s`. -/
def State.Carries (s : State) (pin : Byte) (vs : List Bool) : Prop :=
  ∀ j v, vs[j]? = some v → ∃ t, tickTimes j s = .next t ∧ t.level pin = some v

theorem State.Carries.head {s : State} {pin : Byte} {v : Bool} {vs : List Bool} (h : s.Carries pin (v :: vs)) :
    s.level pin = some v := by
  obtain ⟨t, ht, hv⟩ := h 0 v rfl
  cases ht
  exact hv

theorem State.Carries.tail {s t : State} {pin : Byte} {v : Bool} {vs : List Bool} (h : s.Carries pin (v :: vs))
    (ht : exec .tick s = .next t) : t.Carries pin vs := by
  intro j w hw
  rw [← tickTimes_next ht]
  exact h (j + 1) w hw

/-- Over a run of TICKs the receive side of an active channel is the receive machine over the levels its pin carries, as
long as no message it sends clears it. -/
theorem rxRun_of_carries {c : Nat} {vs : List Bool} : ∀ {s : State} {r u : Channel}, BlockInv s → c ∈ s.chActive →
    s.ch[c]? = some r → r.KeepsRx → s.Carries r.rxPin vs → rxRun s.cfg vs r = .ok u →
    ∃ t tx free pend, tickTimes vs.length s = .next t ∧ BlockInv t ∧ t.chActive = s.chActive ∧
      t.ch[c]? = some (u.withTx tx free pend r.txPay) := by
  induction vs with
  | nil =>
    intro s r u h hc hr hk hv hrun
    cases hrun
    exact ⟨s, r.tx, r.txFree, r.txPend, rfl, h, rfl, hr⟩
  | cons v vs ih =>
    intro s r u h hc hr hk hv hrun
    obtain ⟨t, r₁, r₂, d, he, ht, hframe, hrx, hrxf, hok, htx, htxf, -, hr₂, -⟩ := tick_channel h hc hr
    have hk₁ : r₁.KeepsRx := by rw [Channel.KeepsRx, hrxf.txQueue]; exact hk
    obtain ⟨hk₂, tx, free, pend, rfl⟩ := txStep_keepsRx hok hk₁ htx
    obtain ⟨v', hv', hstep⟩ := rxStep_inv hrx
    obtain rfl : v = v' := Option.some.inj (hv.head.symm.trans hv')
    have hrun₁ : rxRun s.cfg vs r₁ = .ok u := by rw [← hrun, rxRun_cons hstep]
    have hcfg : t.cfg = s.cfg := by rw [hframe]
    have hact : t.chActive = s.chActive := by rw [hframe]
    have hpin : (r₁.withTx tx free pend r₁.txPay).rxPin = r.rxPin := hrxf.rxPin
    obtain ⟨t', tx', free', pend', hrun', ht', hact', hr'⟩ := ih ht (hact ▸ hc) hr₂ hk₂ (hpin ▸ hv.tail he)
      (by rw [hcfg, rxRun_withTx, hrun₁, map_ok])
    refine ⟨t', tx', free', pend', (tickTimes_next he).trans hrun', ht', hact'.trans hact, ?_⟩
    rw [hr', ← hrxf.txPay]
    rfl

/-- Writing back another TX side at one slot, with no clearing message in its queue, keeps a record that listens, at this
slot too. -/
theorem listener_after_setSlot {s : State} {cx cy : Nat} {x y : Channel} (hx : s.ch[cx]? = some x)
    (hy : s.ch[cy]? = some y) (tx : BitMachine) (free pend : List Nat) (pay : List Message)
    (hkx : (x.withTx tx free pend pay).KeepsRx) (hky : y.KeepsRx) :
    ∃ tx' free' pend' pay',
      (s.setSlot cx (x.withTx tx free pend pay)).ch[cy]? = some (y.withTx tx' free' pend' pay') ∧
      (y.withTx tx' free' pend' pay').KeepsRx := by
  by_cases hc : cy = cx
  · subst hc
    obtain rfl : x = y := Option.some.inj (hx.symm.trans hy)
    exact ⟨tx, free, pend, pay, getElem?_setSlot_self hx, hkx⟩
  · exact ⟨y.tx, y.txFree, y.txPend, y.txPay, (getElem?_setSlot_other _ hc).trans hy, hky⟩

/-! ### The frame on the pin -/

/-- The levels of the frame of `m`, one for each tick from the one that starts it to the one that ends it
(spec/41_tick_dispatcher.md R151). -/
def frameLevels (T : Nat) (m : Message) : List Bool :=
  (List.range (11 * T + 1)).map fun j => frameLevel m ((framePos (j / T)).getD .idle)

@[simp] theorem length_frameLevels (T : Nat) (m : Message) : (frameLevels T m).length = 11 * T + 1 := by
  simp [frameLevels]

theorem getElem?_frameLevels {T j : Nat} (hj : j ≤ 11 * T) (m : Message) :
    (frameLevels T m)[j]? = some (frameLevel m ((framePos (j / T)).getD .idle)) := by
  rw [frameLevels, List.getElem?_map, List.getElem?_range (by omega), Option.map_some]

theorem BitPos.ordinal_data (k : Fin 8) : (BitPos.data k).ordinal = k.val + 1 + 1 := Nat.add_comm 2 k.val

/-- Tick S of each bit period has the level of its frame bit. -/
theorem frameLevels_sample {T S : Nat} (hS : S < T) {p : BitPos} {f : Nat} (hp : p.ordinal = f + 1) (m : Message) :
    (frameLevels T m)[f * T + S]? = some (frameLevel m p) := by
  have hf : f * T ≤ 10 * T := Nat.mul_le_mul_right _ (by have := p.ordinal_le; omega)
  have hdiv : (f * T + S) / T = f := (frameBit_of_tick rfl hS (by omega)).1.symm
  rw [getElem?_frameLevels (by omega), hdiv, framePos, ← hp, BitPos.ofOrdinal_ordinal, Option.getD_some]

theorem frameLevels_end {T : Nat} (hT : 1 ≤ T) (m : Message) : (frameLevels T m)[11 * T]? = some true := by
  rw [getElem?_frameLevels le_rfl, Nat.mul_div_cancel _ hT]
  rfl

/-- The pin of a channel that is about to send on a high line carries 1 and then the frame. -/
theorem carries_frame {s : State} {c n : Nat} {r : Channel} {pend : List Nat} {m : Message} (h : BlockInv s)
    (hc : c ∈ s.chActive) (hr : s.ch[c]? = some r) (hp : r.tx.pos = .idle) (hq : r.txPend = n :: pend)
    (hm : r.txPay[n]? = some m) (hb : m.isBlank = false) (hlevel : s.level r.txPin = some true) :
    s.Carries r.txPin (true :: frameLevels s.cfg.T m) := by
  obtain ⟨hbits, t, -, hrun, -, -, hstop⟩ := txFrameHoldsEachBitForTTicks s c n r pend m h hc hr hp hq hm hb
  intro j v hj
  cases j with
  | zero =>
    cases hj
    exact ⟨s, rfl, hlevel⟩
  | succ j =>
    rw [List.getElem?_cons_succ] at hj
    have hlen : j < 11 * s.cfg.T + 1 := length_frameLevels s.cfg.T m ▸ (List.getElem?_eq_some_iff.mp hj).1
    rcases Nat.lt_succ_iff_lt_or_eq.mp hlen with hlt | rfl
    · obtain ⟨t, p, hrun, hpos, hlevel⟩ := hbits j hlt
      rw [getElem?_frameLevels hlt.le, hpos] at hj
      exact ⟨t, hrun, hlevel.trans hj⟩
    · rw [frameLevels_end h.tickPos] at hj
      exact ⟨t, hrun, hstop.trans hj⟩

/-! ### The frame received -/

theorem Message.eq_of_fields {m m' : Message} (hdata : m.data = m'.data) (hparity : m.parity = m'.parity)
    (hblank : m.isBlank = m'.isBlank) (hclears : m.clearsRx = m'.clearsRx)
    (hstop : m.stopViolation = m'.stopViolation) : m = m' := by
  cases m
  cases m'
  simp_all only

/-- An idle receiver that sees a high line and then the frame of a message queues the message. -/
theorem rxRun_frameLevels {cfg : Config} {r : Channel} {m : Message} {n : Nat} {free : List Nat} (hS : cfg.S < cfg.T)
    (ha : ArenaSizes cfg r) (hpart : PoolPartition cfg r) (hp : r.rx.pos = .idle) (hf : r.rxFree = n :: free)
    (hflags : ReceivedMessage m) (hs : m.stopViolation = false) :
    ∃ u, rxRun cfg (true :: frameLevels cfg.T m) r = .ok u ∧ u.rxQueue = r.rxQueue ++ [m] ∧ u.name = r.name := by
  have hhigh : rxStepWith cfg r true = .ok { r with last := true } :=
    (rxLeavesIdleOnlyOnAFallingEdge cfg r true hp).2 (.inr rfl)
  have h0 : (frameLevels cfg.T m)[0]? = some false := by
    rw [getElem?_frameLevels (by omega), Nat.zero_div]
    rfl
  have hstart : (frameLevels cfg.T m)[cfg.S]? = some false := by
    rw [← Nat.zero_add cfg.S, ← Nat.zero_mul cfg.T]
    exact frameLevels_sample hS (p := .start) rfl m
  obtain ⟨m', hdata, hparity, hstop, hblank, hclears, hroom, -⟩ := rxAssemblesAnyFrame cfg { r with last := true }
    (frameLevels cfg.T m) hS ha hpart hp rfl (length_frameLevels _ _) h0 hstart
  have hd : m.data = m'.data := BitVec.eq_of_getLsbD_eq fun k hk =>
    Option.some.inj ((frameLevels_sample hS (p := .data ⟨k, hk⟩) (BitPos.ordinal_data _) m).symm.trans (hdata k hk))
  have hpar : m.parity = m'.parity :=
    Option.some.inj ((frameLevels_sample hS (p := .parity) rfl m).symm.trans hparity)
  have hviol : m'.stopViolation = false := by
    simpa [frameLevel] using Option.some.inj ((frameLevels_sample hS (p := .stop) rfl m).symm.trans hstop)
  obtain rfl : m = m' := Message.eq_of_fields hd hpar (hflags.1.trans hblank.symm) (hflags.2.trans hclears.symm)
    (hs.trans hviol.symm)
  refine ⟨_, (rxRun_cons hhigh _).trans (hroom n free hf), ?_, rfl⟩
  exact enqueueRx_queue hf ha hpart m

/-! ### The two commands -/

/-- RECV returns the head of the receive queue (spec/42_host_commands.md R175). -/
theorem recv_of_rxQueue {s : State} (h : BlockInv s) {k : Nat} {r : Channel} (hk : k ∈ s.chActive)
    (hr : s.ch[k]? = some r) {m : Message} {rest : List Message} (hq : r.rxQueue = m :: rest) :
    ∃ t, exec (.recv r.name) s = .next t ∧ t.responses = s.responses ++ [responseWord (classify m) m.data] := by
  obtain ⟨hi, hl, hok⟩ := h.known hk hr
  cases hp : r.rxPend with
  | nil => simp [Channel.rxQueue, hp] at hq
  | cons n pend =>
    obtain ⟨m', -, hq', he⟩ := receive_head hi hl hp hok.arenas hok.pools
    obtain ⟨rfl, -⟩ := List.cons.inj (hq.symm.trans hq')
    exact ⟨_, execRecv_of he, rfl⟩

/-- SEND on an idle channel with an empty queue (spec/42_host_commands.md R174, R179): the message is the whole queue. -/
theorem send_of_empty {s : State} (h : BlockInv s) {k : Nat} {r : Channel} (hk : k ∈ s.chActive)
    (hr : s.ch[k]? = some r) (hq : r.txPend = []) (data : Byte) (c b : Bool) :
    ∃ n free, n < r.txPay.length ∧ exec (.send r.name data c b) s = .next ((s.setSlot k (r.withTx r.tx free [n]
      (r.txPay.set n (sentMessage data c b)))).respond .ok 0) := by
  obtain ⟨hi, hl, hok⟩ := h.known hk hr
  cases hf : r.txFree with
  | nil =>
    have hlen := partition_length hok.pools.1
    have htxd := ((legal_iff _).mp h.config).1
    simp only [hf, hq, List.length_nil] at hlen
    omega
  | cons n free =>
    have hpart := hok.pools.1
    rw [hf] at hpart
    obtain ⟨hlt, -⟩ := partition_push hpart
    refine ⟨n, free, hok.arenas.1 ▸ hlt, (execSend_room hi hl hf hok.arenas hok.pools data c b).trans ?_⟩
    rw [hq]
    rfl

/-- Settles O50: SEND makes X's pin carry the frame, and Y's receive machine runs on what its pin carries. -/
theorem sentByteIsReceived : Obligations.SentByteIsReceived := by
  intro s cx cy x y data h hcx hx hcy hy hxidle hxq hpin hlevel hyidle hroom hkeep
  obtain ⟨n, free, hn, hsend⟩ := send_of_empty h hcx hx hxq data false false
  have h₁ := exec_keeps_inv h hsend
  have hx₁ := getElem?_setSlot_self (r' := x.withTx x.tx free [n] (x.txPay.set n (sentMessage data false false))) hx
  have hcarries := carries_frame h₁ hcx hx₁ hxidle rfl (List.getElem?_set_self hn) rfl hlevel
  obtain ⟨tx, free', pend, pay, hy₁, hk₁⟩ := listener_after_setSlot hx hy x.tx free [n]
    (x.txPay.set n (sentMessage data false false))
    (by simp [Channel.KeepsRx, Channel.txQueue, Channel.withTx, hn, sentMessage]) hkeep
  obtain ⟨m, rest, hroom⟩ := List.exists_cons_of_ne_nil hroom
  have hok := h.channelOk hcy hy
  obtain ⟨u, hrun, hqueue, hname⟩ := rxRun_frameLevels (m := sentMessage data false false)
    ((legal_iff _).mp h.config).2.2.1 hok.arenas hok.pools hyidle hroom ⟨rfl, rfl⟩ rfl
  obtain ⟨t, tx', free', pend', hticks, ht, hact, hyt⟩ := rxRun_of_carries h₁ hcy hy₁ hk₁ (hpin ▸ hcarries)
    (by rw [rxRun_withTx]; exact congrArg _ hrun)
  refine ⟨_, t, u.withTx tx' free' pend' pay, hsend, by rw [respond_responses, responseWord_ok]; rfl, ?_, hyt, hqueue,
    fun hempty => ?_⟩
  · rwa [List.length_cons, length_frameLevels] at hticks
  · have hact' : cy ∈ t.chActive := hact ▸ hcy
    have hhead : (u.withTx tx' free' pend' pay).rxQueue = [sentMessage data false false] :=
      hqueue.trans (by rw [hempty, List.nil_append])
    obtain ⟨t', hrecv, hres⟩ := recv_of_rxQueue ht hact' hyt hhead
    refine ⟨t', hname ▸ hrecv, ?_⟩
    rw [hres, responseWord_classify]
    simp [sentMessage]

end Sys2Proof.Machine
end

section
/-! The lines (spec/43_line_environment.md R210, R211). Three events write them, each at one pin that it names or, for a
TICK, at the TX pins of the active channels; every other event answers with the lines it found. -/

namespace Sys2Proof.Machine

section Events

variable {s t : State}

/-! ### The events that leave the lines alone -/

theorem execInit_line (he : execInit s = .next t) : t.line = s.line := by
  cases hi : s.initialized with
  | false => rw [execInit_first hi] at he; cases he; rfl
  | true => rw [execInit_again hi] at he; cases he; rfl

theorem execSend_line {name data : Byte} {c b : Bool} (he : execSend name data c b s = .next t) : t.line = s.line := by
  rcases execSend_inv he with ⟨_, -, rfl⟩ | ⟨_, _, _, -, -, -, rfl⟩ <;> rfl

theorem receive_line {name data : Byte} {code : ResultCode} (he : receive name s = .ok (code, data, t)) :
    t.line = s.line := by
  rcases receive_inv he with ⟨rfl, -⟩ | ⟨_, _, _, _, -, -, -, -, -, rfl⟩ <;> rfl

theorem execRecv_line {name : Byte} (he : execRecv name s = .next t) : t.line = s.line := by
  obtain ⟨_, _, u, hu, rfl⟩ := execRecv_inv he
  exact (receive_line hu : u.line = s.line)

theorem execRecvb_line {name : Byte} (he : execRecvb name s = .next t) : t.line = s.line := by
  obtain ⟨_, _, u, hu, rfl⟩ := execRecvb_inv he
  split
  · rfl
  · exact (receive_line hu : u.line = s.line)

theorem execClrtx_line {name : Byte} (he : execClrtx name s = .next t) : t.line = s.line := by
  cases hl : s.lookup name with
  | none => rw [execClrtx_unknown hl] at he; cases he; rfl
  | some p => rw [execClrtx_known hl] at he; cases he; rfl

theorem execClrrx_line {name : Byte} (he : execClrrx name s = .next t) : t.line = s.line := by
  cases hl : s.lookup name with
  | none => rw [execClrrx_unknown hl] at he; cases he; rfl
  | some p => rw [execClrrx_known hl] at he; cases he; rfl

/-! ### The three writers, and the lines that they leave alone -/

theorem execAdd_next_pins {name txPin rxPin : Byte} (he : execAdd name txPin rxPin s = .next t) :
    txPin.toNat < s.cfg.npins ∧ rxPin.toNat < s.cfg.npins := by
  by_contra hp
  rw [execAdd_illegal (by omega) name] at he
  cases he

variable (h : BlockInv s) {p : Nat}

include h

/-- LINE writes the line of its pin (spec/43_line_environment.md R211). -/
theorem execLine_otherLines {pin : Byte} {v : Bool} (he : execLine pin v s = .next t) (hp : pin.toNat ≠ p) :
    t.line[p]? = s.line[p]? := by
  rcases Nat.lt_or_ge pin.toNat s.cfg.npins with hlegal | hillegal
  · rw [execLine_legal h hlegal] at he
    cases he
    exact List.getElem?_set_ne hp
  · rw [execLine_illegal hillegal] at he
    cases he

/-- ADD drives its TX pin when it succeeds (spec/42_host_commands.md R173). -/
theorem execAdd_otherLines {name txPin rxPin : Byte} (he : execAdd name txPin rxPin s = .next t)
    (hp : txPin.toNat ≠ p) : t.line[p]? = s.line[p]? := by
  obtain ⟨htx, hrx⟩ := execAdd_next_pins he
  rcases execAdd_inv he with ⟨_, -, rfl⟩ | ⟨c, free, u, -, hf, ha, rfl⟩
  · rfl
  · obtain ⟨_, -, hjoin⟩ := addChannel_ok h hf htx hrx name
    rw [hjoin] at ha
    cases ha
    exact List.getElem?_set_ne hp

/-- TICK drives TX pins of active channels (spec/41_tick_dispatcher.md R130). -/
theorem execTick_otherLines (he : execTick s = .next t) (hp : ∀ r ∈ s.activeChannels, r.txPin.toNat ≠ p) :
    t.line[p]? = s.line[p]? := by
  obtain ⟨huninit, -, hinit⟩ := tickFollowsItsRule s h
  cases hi : s.initialized with
  | false =>
    obtain rfl : s = t := Host.Outcome.next.inj ((huninit hi).symm.trans he)
    rfl
  | true =>
    obtain ⟨u, hu, -, -, -, hother⟩ := hinit hi
    obtain rfl : u = t := Host.Outcome.next.inj (hu.symm.trans he)
    exact hother p hp

end Events

/-- Settles O29: TICK, ADD and LINE leave every line alone but the ones they name, and the other events leave all. -/
theorem lineWritersAreKnown : Obligations.LineWritersAreKnown := by
  intro i s t p h he hchange
  have hkept : t.line ≠ s.line := fun hline => hchange (by rw [hline])
  cases i with
  | line pin v => exact .inl ⟨pin, v, rfl, by_contra fun hp => hchange (execLine_otherLines h he hp)⟩
  | add name txPin rxPin =>
    exact .inr (.inl ⟨name, txPin, rxPin, rfl, by_contra fun hp => hchange (execAdd_otherLines h he hp)⟩)
  | tick =>
    exact .inr (.inr ⟨rfl, by_contra fun hnone =>
      hchange (execTick_otherLines h he fun r hr hp => hnone ⟨r, hr, hp⟩)⟩)
  | init => exact absurd (execInit_line he) hkept
  | send name data c b => exact absurd (execSend_line he) hkept
  | recv name => exact absurd (execRecv_line he) hkept
  | recvb name => exact absurd (execRecvb_line he) hkept
  | clrtx name => exact absurd (execClrtx_line he) hkept
  | clrrx name => exact absurd (execClrrx_line he) hkept

/-- Settles O28: the pin decides between the one write and the refusal. -/
theorem lineFollowsItsRule : Obligations.LineFollowsItsRule :=
  fun _ _ v h => ⟨fun hp => execLine_legal h hp v, fun hp => execLine_illegal hp v⟩

end Sys2Proof.Machine
end

section
/-! Exceptions (spec/60_exceptions.md R220, R225, R227). Under the invariant an event with legal pins completes and one
with an illegal pin is refused, so none faults; and the choice of the event keeps the invariant, so no step does. -/

namespace Sys2Proof.Machine

/-! ### No event changes the configuration -/

section Events

variable {s t : State}

theorem execInit_cfg (he : execInit s = .next t) : t.cfg = s.cfg := by
  cases hi : s.initialized with
  | false => rw [execInit_first hi] at he; cases he; rfl
  | true => rw [execInit_again hi] at he; cases he; rfl

theorem execAdd_cfg (h : BlockInv s) {name txPin rxPin : Byte} (he : execAdd name txPin rxPin s = .next t) :
    t.cfg = s.cfg := by
  obtain ⟨htx, hrx⟩ := execAdd_next_pins he
  rcases execAdd_inv he with ⟨_, -, rfl⟩ | ⟨c, free, u, -, hf, ha, rfl⟩
  · rfl
  · obtain ⟨_, -, hjoin⟩ := addChannel_ok h hf htx hrx name
    rw [hjoin] at ha
    cases ha
    rfl

theorem execSend_cfg {name data : Byte} {c b : Bool} (he : execSend name data c b s = .next t) : t.cfg = s.cfg := by
  rcases execSend_inv he with ⟨_, -, rfl⟩ | ⟨_, _, _, -, -, -, rfl⟩ <;> rfl

theorem receive_cfg {name data : Byte} {code : ResultCode} (he : receive name s = .ok (code, data, t)) :
    t.cfg = s.cfg := by
  rcases receive_inv he with ⟨rfl, -⟩ | ⟨_, _, _, _, -, -, -, -, -, rfl⟩ <;> rfl

theorem execRecv_cfg {name : Byte} (he : execRecv name s = .next t) : t.cfg = s.cfg := by
  obtain ⟨_, _, u, hu, rfl⟩ := execRecv_inv he
  exact (receive_cfg hu : u.cfg = s.cfg)

theorem execRecvb_cfg {name : Byte} (he : execRecvb name s = .next t) : t.cfg = s.cfg := by
  obtain ⟨_, _, u, hu, rfl⟩ := execRecvb_inv he
  split
  · rfl
  · exact (receive_cfg hu : u.cfg = s.cfg)

theorem execClrtx_cfg {name : Byte} (he : execClrtx name s = .next t) : t.cfg = s.cfg := by
  cases hl : s.lookup name with
  | none => rw [execClrtx_unknown hl] at he; cases he; rfl
  | some p => rw [execClrtx_known hl] at he; cases he; rfl

theorem execClrrx_cfg {name : Byte} (he : execClrrx name s = .next t) : t.cfg = s.cfg := by
  cases hl : s.lookup name with
  | none => rw [execClrrx_unknown hl] at he; cases he; rfl
  | some p => rw [execClrrx_known hl] at he; cases he; rfl

/-- The configuration is fixed from reset on (spec/10_state.md R23). -/
theorem exec_cfg (h : BlockInv s) {i : Instr} (he : exec i s = .next t) : t.cfg = s.cfg := by
  cases i with
  | tick => rw [execTick_frame he]
  | init => exact execInit_cfg he
  | add name txPin rxPin => exact execAdd_cfg h he
  | send name data c b => exact execSend_cfg he
  | recv name => exact execRecv_cfg he
  | recvb name => exact execRecvb_cfg he
  | clrtx name => exact execClrtx_cfg he
  | clrrx name => exact execClrrx_cfg he
  | line pin v => rw [execLine_frame he]

end Events

/-- Settles O15: the next state that an event with legal pins answers has the configuration of the state it left. -/
theorem wellFormedEventsComplete : Obligations.WellFormedEventsComplete := by
  intro s i h hw
  obtain ⟨t, he, ht⟩ := exec_completes h hw
  exact ⟨t, he, ht, exec_cfg h he⟩

/-! ### No fault -/

theorem exec_ne_fault {s : State} (h : BlockInv s) (i : Instr) (f : Fault) : exec i s ≠ .fault f := by
  cases hw : i.wellFormed s.cfg.npins with
  | false => simp [exec_illegal_pin hw]
  | true =>
    obtain ⟨t, he, -⟩ := exec_completes h hw
    simp [he]

/-- A step faults only where the event it chose does, and the state of that event meets the invariant. -/
theorem step_ne_fault {s : State} (h : BlockInv s) (f : Fault) : step s ≠ .fault f := by
  unfold step
  split
  · simp
  · rename_i i u hf
    exact exec_ne_fault (fetch_keeps_inv h (by rw [hf]; rfl)) i f
  · simp

/-- Settles O14: an event completes or is refused, and a step is a rest, a refusal or such an event. -/
theorem eventsNeverFault : Obligations.EventsNeverFault :=
  fun _ h => ⟨exec_ne_fault h, step_ne_fault h⟩

/-! ### The classification of a received message -/

/-- Settles O53: the stop flag is tested first, and the parity only without it. -/
theorem stopViolationWinsOverParityError : Obligations.StopViolationWinsOverParityError := by
  intro m
  refine ⟨fun hs => ?_, fun hs => ?_, fun hs => ?_⟩
  · simp [classify, hs]
  · exact (classify_eq_parityError_iff hs).mpr
  · exact (classify_eq_ok_iff hs).mpr

end Sys2Proof.Machine
end

section
/-! Nothing leads back to reset (spec/70_reset_and_hazards.md R251). INIT after the first only responds, a successful ADD
appends one slot to the active channels, and every other event leaves `initialized` and the active channels alone. -/

namespace Sys2Proof.Machine

/-- From `s` to `t` the block is as initialized as it was, and no channel was removed. -/
structure RegistryKept (s t : State) : Prop where
  initialized : t.initialized = s.initialized
  active : s.chActive <+: t.chActive

section Events

variable {s t : State}

/-- What keeps the two fields keeps the registry, whatever it writes to the channel records and the host port. -/
theorem RegistryKept.of_eq (hi : t.initialized = s.initialized) (ha : t.chActive = s.chActive) : RegistryKept s t :=
  ⟨hi, ha ▸ List.prefix_rfl⟩

theorem execInit_registryKept (hi : s.initialized = true) (he : execInit s = .next t) : RegistryKept s t := by
  rw [execInit_again hi] at he
  cases he
  exact .of_eq rfl rfl

/-- ADD appends the new slot to the active channels (spec/42_host_commands.md R173). -/
theorem execAdd_registryKept {name txPin rxPin : Byte} (he : execAdd name txPin rxPin s = .next t) :
    RegistryKept s t := by
  rcases execAdd_inv he with ⟨_, -, rfl⟩ | ⟨c, _, u, -, -, ha, rfl⟩
  · exact .of_eq rfl rfl
  · obtain ⟨-, -, hinit, hactive⟩ := addChannel_frame ha
    exact ⟨hinit, [c], hactive.symm⟩

theorem execSend_registryKept {name data : Byte} {c b : Bool} (he : execSend name data c b s = .next t) :
    RegistryKept s t := by
  rcases execSend_inv he with ⟨_, -, rfl⟩ | ⟨_, _, _, -, -, -, rfl⟩
  · exact .of_eq rfl rfl
  · exact .of_eq rfl rfl

theorem receive_registryKept {name data : Byte} {code : ResultCode} (he : receive name s = .ok (code, data, t)) :
    RegistryKept s t := by
  rcases receive_inv he with ⟨rfl, -⟩ | ⟨_, _, _, _, -, -, -, -, -, rfl⟩
  · exact .of_eq rfl rfl
  · exact .of_eq rfl rfl

theorem execRecv_registryKept {name : Byte} (he : execRecv name s = .next t) : RegistryKept s t := by
  obtain ⟨_, _, u, hu, rfl⟩ := execRecv_inv he
  obtain ⟨hinit, hactive⟩ := receive_registryKept hu
  exact ⟨hinit, hactive⟩

theorem execRecvb_registryKept {name : Byte} (he : execRecvb name s = .next t) : RegistryKept s t := by
  obtain ⟨_, _, u, hu, rfl⟩ := execRecvb_inv he
  split
  · exact .of_eq rfl rfl
  · obtain ⟨hinit, hactive⟩ := receive_registryKept hu
    exact ⟨hinit, hactive⟩

theorem execClrtx_registryKept {name : Byte} (he : execClrtx name s = .next t) : RegistryKept s t := by
  cases hl : s.lookup name with
  | none => rw [execClrtx_unknown hl] at he; cases he; exact .of_eq rfl rfl
  | some p => rw [execClrtx_known hl] at he; cases he; exact .of_eq rfl rfl

theorem execClrrx_registryKept {name : Byte} (he : execClrrx name s = .next t) : RegistryKept s t := by
  cases hl : s.lookup name with
  | none => rw [execClrrx_unknown hl] at he; cases he; exact .of_eq rfl rfl
  | some p => rw [execClrrx_known hl] at he; cases he; exact .of_eq rfl rfl

theorem exec_registryKept (hi : s.initialized = true) {i : Instr} (he : exec i s = .next t) : RegistryKept s t := by
  cases i with
  | tick => rw [execTick_frame he]; exact .of_eq rfl rfl
  | init => exact execInit_registryKept hi he
  | add name txPin rxPin => exact execAdd_registryKept he
  | send name data c b => exact execSend_registryKept he
  | recv name => exact execRecv_registryKept he
  | recvb name => exact execRecvb_registryKept he
  | clrtx name => exact execClrtx_registryKept he
  | clrrx name => exact execClrrx_registryKept he
  | line pin v => rw [execLine_frame he]; exact .of_eq rfl rfl

end Events

/-- Settles O16: every event keeps the registry, and a later INIT is the second case of its rule. -/
theorem nothingReturnsToReset : Obligations.NothingReturnsToReset := by
  intro i s t hi he
  obtain ⟨hinit, hactive⟩ := exec_registryKept hi he
  refine ⟨hinit.trans hi, hactive, ?_⟩
  rintro rfl
  obtain ⟨-, hagain⟩ := initFollowsItsRule s
  exact (Host.Outcome.next.inj ((hagain hi).symm.trans he)).symm

end Sys2Proof.Machine
end

section
/-! Reset and the time before INIT (spec/70_reset_and_hazards.md R250, R254). No channel is active then, so no name is
known; the rules of the commands and of LINE say the rest. -/

namespace Sys2Proof.Machine

theorem BlockInv.activeChannels_uninit {s : State} (h : BlockInv s) (hi : s.initialized = false) :
    s.activeChannels = [] := by
  obtain ⟨-, hactive⟩ := h.beforeInit hi
  rw [State.activeChannels, hactive, List.filterMap_nil]

/-- Settles O25: each event by the first case of its rule, CLRTX and CLRRX because no name is known. -/
theorem beforeInitOnlyLineActs : Obligations.BeforeInitOnlyLineActs := by
  intro s name data txPin rxPin pin c b v h hi htx hrx hpin
  have hunknown : ∀ r ∈ s.activeChannels, r.name ≠ name := by simp [h.activeChannels_uninit hi]
  obtain ⟨-, hlegal⟩ := addFollowsItsRule s name txPin rxPin h
  obtain ⟨hadd, -⟩ := hlegal htx hrx
  obtain ⟨hsend, -⟩ := sendFollowsItsRule s name data c b h
  obtain ⟨hrecv, -⟩ := recvFollowsItsRule s name h
  obtain ⟨hrecvb, -⟩ := recvbFollowsItsRule s name h
  obtain ⟨hclrtx, -⟩ := clrtxFollowsItsRule s name h
  obtain ⟨hclrrx, -⟩ := clrrxFollowsItsRule s name h
  exact ⟨hadd hi, hsend hi, hrecv hi, hrecvb hi, hclrtx hunknown, hclrrx hunknown, exec_tick_uninit hi,
    execLine_legal h hpin v⟩

/-- Before INIT the ticks of a run have no effect (spec/41_tick_dispatcher.md R130). -/
theorem tickTimes_uninit {s : State} (hi : s.initialized = false) (n : Nat) : tickTimes n s = .next s := by
  induction n with
  | zero => rfl
  | succ n ih => exact (tickTimes_next (exec_tick_uninit hi)).trans ih

/-- Settles O11: the fields of the reset state are read off, and it is a state before INIT. -/
theorem resetLeavesTheSpecValues : Obligations.ResetLeavesTheSpecValues :=
  fun _ => ⟨rfl, rfl, rfl, rfl, rfl, rfl, rfl, tickTimes_uninit rfl⟩

/-- Reset has no channel and no unused slot, so of the invariant only the sizes of what is allocated are left. -/
theorem inv_resetOf {cfg : Config} (hlegal : cfg.legal = true) : BlockInv (State.resetOf cfg) where
  config := hlegal
  pins := by
    obtain ⟨-, -, -, -, -, hline⟩ := (legal_iff cfg).mp hlegal
    exact ⟨hline, List.length_replicate⟩
  slots := List.length_replicate
  arenas := by
    intro r hr
    obtain rfl := List.eq_of_mem_replicate hr
    exact ⟨List.length_replicate, List.length_replicate⟩
  beforeInit := fun _ => ⟨rfl, rfl⟩
  registry := fun hi => absurd hi Bool.false_ne_true
  pools := fun hi => absurd hi Bool.false_ne_true
  fresh := fun _ hc => absurd hc List.not_mem_nil
  active := fun _ hr => absurd hr List.not_mem_nil
  names := List.nodup_nil
  txPins := List.nodup_nil
  waiting := fun _ hname => absurd hname (Option.not_mem_none _)

theorem legal_chosen : Config.chosen.legal = true :=
  (legal_iff _).mpr ⟨by decide, by decide, by decide, by decide, by decide, List.length_replicate⟩

/-- Settles O12: the configuration of `State.reset` is one of the legal ones. -/
theorem resetMeetsTheInvariant : Obligations.ResetMeetsTheInvariant :=
  ⟨inv_resetOf legal_chosen, fun _ => inv_resetOf⟩

end Sys2Proof.Machine
end

section
/-! A low pulse on the receive line (spec/70_reset_and_hazards.md R260). -/

namespace Sys2Proof.Machine

/-- A low pulse of `w` ticks, and 1 up to the Start sample. -/
def lowPulse (S w : Nat) : List Bool := List.replicate w false ++ List.replicate (S + 1 - w) true

theorem length_lowPulse {S w : Nat} (hw : w ≤ S) : (lowPulse S w).length = S + 1 := by
  simp only [lowPulse, List.length_append, List.length_replicate]
  omega

theorem lowPulse_low {S w j : Nat} (hj : j < w) : (lowPulse S w)[j]? = some false := by
  rw [lowPulse, List.getElem?_append_left (by simpa using hj), List.getElem?_replicate, if_pos hj]

/-- The pulse is over at the Start sample. -/
theorem lowPulse_sample {S w : Nat} (hw : w ≤ S) : (lowPulse S w)[S]? = some true := by
  rw [lowPulse, List.getElem?_append_right (by simpa using hw), List.length_replicate, List.getElem?_replicate,
    if_pos (by omega)]

/-- Settles O44: the pulse enters Start at its first tick, and the Start sample after its end is 1. -/
theorem rxRejectsAShortPulse : Obligations.RxRejectsAShortPulse := by
  intro cfg r w hT hp hl hw hwS
  have hentry := rxStepWith_edge_of_get (cfg := cfg) hp hl (lowPulse_low (S := cfg.S) (Nat.lt_of_lt_of_le one_pos hw))
  have hrun := rxRun_entry_toSample hentry (by simp [Channel.startRx]) rfl hT (lowPulse_sample hwS)
  rw [List.take_of_length_le (length_lowPulse hwS).le] at hrun
  exact hrun

end Sys2Proof.Machine
end
